-- ==== Sys2Proof/Word.lean ====
section
/-! DEFINITION. The word types of KWE (spec/00_scope.md R5, R6). Every value is unsigned (R7, R200). -/

namespace Sys2Proof

/-- A semiblock, a register word or a command word: 64 bits (R5 `SBW`, R6 `DW`). -/
abbrev Word := BitVec 64

/-- A cipher block: 128 bits (R5 `BLKW`). -/
abbrev Block := BitVec 128

/-- A host word address: 32 bits (R6 `AW`). -/
abbrev Addr := BitVec 32

/-- One byte of a key, a plaintext or a ciphertext. -/
abbrev Byte := BitVec 8

end Sys2Proof
end

