-- ==== Sys2Proof/Config.lean ====
section
/-! DEFINITION. What an implementation fixes (spec/00_scope.md R6, spec/40_block_cipher_port.md R80 to R82)
and the free values (R81, R83; spec/93_implementation_defined.md U1 to U3). -/

namespace Sys2Proof

/-- Direction of a cipher transaction (R80 `dir`: 0 = encrypt, 1 = decrypt). -/
inductive Dir where
  | encrypt
  | decrypt
deriving DecidableEq, Repr

/-- A key of 128, 192 or 256 bits (R80, R82): the port's `klen` and `key` in one. -/
inductive Key where
  | k128 (v : BitVec 128)
  | k192 (v : BitVec 192)
  | k256 (v : BitVec 256)
deriving DecidableEq, Repr

/-- The environment's draw for one transaction (R81): `ok` = 1, or `ok` = 0 with any block as `Y`. -/
inductive BcsAnswer where
  | ok
  | failed (y : Block)
deriving DecidableEq, Repr, Inhabited

/-- One point at which the cipher service's function is known: `key` maps `x` to `y` in direction `dir`. -/
structure KnownBlock where
  dir : Dir
  key : Key
  x   : Block
  y   : Block
deriving DecidableEq, Repr

/-- Which cipher answers on the port (R82: any total function of the key and the block; log entry 2).
`service known` is the opaque service, fixed only at the listed points; `mockswap` is R87's mock cipher. -/
inductive Cipher where
  | service (known : List KnownBlock)
  | mockswap
deriving DecidableEq, Repr

/-- The parameters of one KWE (R11): they are not state, and no step changes them. -/
structure Config where
  /-- `NMAX`, the largest semiblock count the buffer holds (R6, OPEN: 2 ≤ `NMAX` ≤ 2^29). -/
  nmax   : Nat
  /-- The functions `Enc` and `Dec` of the service behind the port (R82, OPEN). -/
  cipher : Cipher
deriving DecidableEq, Repr

/-- The configuration `State.reset` is written with: the capacity at which the whole length domain is
accepted (R6; the test vectors' value), and the opaque service. DESIGN CHOICE, log entries 1 and 2. -/
def Config.default : Config := { nmax := 2 ^ 29, cipher := .service [] }

/-- `Enc` of the opaque service (R82, U1). No body: nothing is known of it. -/
opaque Config.enc : Key → Block → Block

/-- `Dec` of the opaque service (R82, U1). No body: nothing is known of it. -/
opaque Config.dec : Key → Block → Block

/-- The free draw of the n-th transaction when no listed event carries one (R81, U2, U3). No body. -/
opaque Config.freeAnswer : Nat → BcsAnswer

end Sys2Proof
end

