-- ==== Sys2Proof/Syntax.lean ====
section
/-! DEFINITION. The instructions of KWE: its eight commands (spec/30_encoding.md R62), one constructor per row
of spec/opcode_table.json. A command word carries no operand (R61), so no constructor has an argument. -/

namespace Sys2Proof

/-- A command (R62). -/
inductive Instr where
  /-- `wrap(plaintext, kek)`, opcode 0. -/
  | wrap
  /-- `unwrap(ciphertext, kek)`, opcode 1. -/
  | unwrap
  /-- `wrapWithPadding(plaintext, kek)`, opcode 2. -/
  | wrapp
  /-- `unwrapWithPadding(ciphertext, kek)`, opcode 3. -/
  | unwrapp
  /-- `defaultIV()`, opcode 4. -/
  | ivdef
  /-- `verify(candidate, expected)`, opcode 5. -/
  | ivchk
  /-- `alternativeIV(originalLength)`, opcode 6. -/
  | ivalt
  /-- The AIV verification, opcode 7. -/
  | aivchk
deriving DecidableEq, Repr

end Sys2Proof
end

