-- ==== Sys2Proof/WellFormed.lean ====
section
/-! DEFINITION. The checks on what is presented to KWE: the reserved field of a command word
(spec/30_encoding.md R61, R64) and the legal range of the capacity (spec/00_scope.md R6).
An `Instr` carries no operand, so every term of that type is well formed. -/

namespace Sys2Proof

/-- A command word taken apart as R61 lays it out. -/
structure CommandFields where
  /-- bits 63:3, must be zero -/
  rsv  : BitVec 61
  /-- bit 2: 0 = chaining engine, 1 = IV unit alone -/
  unit : Bool
  /-- bit 1: 0 = RFC 3394 form, 1 = RFC 5649 form -/
  pad  : Bool
  /-- bit 0: 0 = forward, 1 = inverse -/
  dir  : Bool
deriving DecidableEq, Repr

/-- R64: a word with any of bits 63:3 set is illegal. -/
def CommandFields.wf (f : CommandFields) : Bool := f.rsv == 0

/-- R6: 2 ≤ `NMAX` ≤ 2^29. -/
abbrev Config.Valid (c : Config) : Prop := 2 ≤ c.nmax ∧ c.nmax ≤ 2 ^ 29

end Sys2Proof
end

