-- ==== Sys2Proof/Decode.lean ====
section
/-! DEFINITION. Decoding and encoding of command words (spec/30_encoding.md R60 to R65). There is one format and
one length, 64 bits; decoding is total and rejects every illegal word by name. -/

namespace Sys2Proof

/-- Why a word is no command. -/
inductive DecodeError where
  /-- R64: one of bits 63:3 is set. -/
  | illegalCommand
deriving DecidableEq, Repr

/-- The fields of a command word (R61). -/
def commandFields (w : Word) : CommandFields where
  rsv  := w.extractLsb' 3 61
  unit := w.getLsbD 2
  pad  := w.getLsbD 1
  dir  := w.getLsbD 0

/-- The command of `UNIT`, `PAD`, `DIR` (R62). -/
def instrOfFields : Bool → Bool → Bool → Instr
  | false, false, false => .wrap
  | false, false, true  => .unwrap
  | false, true,  false => .wrapp
  | false, true,  true  => .unwrapp
  | true,  false, false => .ivdef
  | true,  false, true  => .ivchk
  | true,  true,  false => .ivalt
  | true,  true,  true  => .aivchk

/-- The command a word selects, or the rejection of an illegal word (R62, R64). -/
def decode (w : Word) : Except DecodeError Instr :=
  let f := commandFields w
  if f.wf then .ok (instrOfFields f.unit f.pad f.dir) else .error .illegalCommand

/-- R61 `UNIT`: does the command use the IV unit alone? -/
def Instr.unit : Instr → Bool
  | .wrap => false | .unwrap => false | .wrapp => false | .unwrapp => false
  | .ivdef => true | .ivchk => true | .ivalt => true | .aivchk => true

/-- R61 `PAD`: is it the RFC 5649 form? -/
def Instr.pad : Instr → Bool
  | .wrap => false | .unwrap => false | .wrapp => true | .unwrapp => true
  | .ivdef => false | .ivchk => false | .ivalt => true | .aivchk => true

/-- R61 `DIR`: is it the inverse direction? -/
def Instr.dir : Instr → Bool
  | .wrap => false | .unwrap => true | .wrapp => false | .unwrapp => true
  | .ivdef => false | .ivchk => true | .ivalt => false | .aivchk => true

/-- A codec command is one of WRAP, UNWRAP, WRAPP, UNWRAPP (R9). -/
def Instr.isCodec (i : Instr) : Bool := !i.unit

/-- `OP = C[2:0]` = `UNIT PAD DIR` (R61). -/
def Instr.opcode (i : Instr) : BitVec 3 :=
  BitVec.ofBool i.unit ++ BitVec.ofBool i.pad ++ BitVec.ofBool i.dir

/-- The command word of a command (R61, R62): the reserved bits are zero. -/
def encode (i : Instr) : Word := (0 : BitVec 61) ++ i.opcode

/-- The instruction the decoder reads from a word of `nbits` bits, numbered as spec/opcode_table.json numbers
them; the bits above `nbits` are zero. A command word is one 64-bit unit (R60), so nothing is laid out further. -/
def decodeTableWord (nbits w : Nat) : Option Instr :=
  match decode (BitVec.ofNat 64 (w % 2 ^ nbits)) with
  | .ok i => some i
  | .error _ => none

end Sys2Proof
end

