-- ==== Sys2Proof/Machine/State.lean ====
section
/-! DEFINITION. The state of KWE (spec/10_state.md R12 to R29), what can act on it, and the state after reset (R29). -/

namespace Sys2Proof.Machine

/-- The sequencer's phase `PH` (R15). -/
inductive Phase where
  | idle
  | run
  | fin
deriving DecidableEq, Repr

/-- The error kinds of R151. -/
inductive ErrKind where
  | inputDataTooSmall
  | inputDataTooBig
  | inputDataNotAlignedProperly
  | invalidKeyEncryptionKey
  | encryptionFailed
  | overflow
  | integrityCheckingOfInitialValueFailed
  | illegalCommand
deriving DecidableEq, Repr

/-- What a command's validation says: go on with this semiblock count n, or refuse with this kind. -/
inductive Verdict where
  | pass (n : Nat)
  | refuse (k : ErrKind)
deriving DecidableEq, Repr

/-- The buffer `BUF`, sparse: (entry index, semiblock) pairs, indices strictly rising, no entry listed that
reads as an unlisted one does (R12; log entry 8). The smallest addressable unit is the semiblock (R40). -/
abbrev Memory := List (Nat × Word)

/-- What an unlisted buffer entry holds: zero, the reset value of every entry (R29; log entry 17). -/
def Memory.unlisted : Word := 0

/-- The canonical form of a buffer: indices strictly rising from at least `lo`, no unlisted value listed. -/
def Memory.wfFrom : Nat → Memory → Bool
  | _, [] => true
  | lo, (k, v) :: m => decide (lo ≤ k) && v != Memory.unlisted && Memory.wfFrom (k + 1) m

/-- The canonical form of a buffer (log entry 8). -/
def Memory.wf (m : Memory) : Bool := Memory.wfFrom 0 m

/-- One request on the block cipher port (R80): `dir`, `klen` and `key`, and the input block `X`. -/
structure BcsRequest where
  dir : Dir
  key : Key
  x   : Block
deriving DecidableEq, Repr

/-- One host access: `MemRead(addr, 8)` or `MemWrite(addr, 8, v)` (R8, R42, R43). -/
inductive HostOp where
  | read (addr : Addr)
  | write (addr : Addr) (v : Word)
deriving DecidableEq, Repr

/-- A step of one of the agents of R10; the cipher service's answer comes with the engine's step (R81). -/
inductive Event where
  | host (op : HostOp)
  | engine (a : BcsAnswer)
  | reset
deriving DecidableEq, Repr

/-- What a host address selects (R19, R41). -/
inductive Port where
  | cmd
  | status
  | len
  | olen
  | klen
  | n
  | iva
  | ivb
  | kek0
  | kek1
  | kek2
  | kek3
  | buf (k : Nat)
  | unmapped
deriving DecidableEq, Repr

/-- The state of KWE. The last three fields and `cfg` are the model's own (INVENTORY.md, '## State'). -/
structure State where
  /-- the parameters of R11, changed by no step -/
  cfg      : Config
  /-- `PH`, R15 -/
  ph       : Phase
  /-- `OP`, the latched opcode, R15 (log entry 9) -/
  op       : Instr
  /-- `J`, the round index, R15 -/
  j        : BitVec 3
  /-- `I`, the semiblock index, R15 -/
  i        : BitVec 32
  /-- `CF`, "cipher failed", R18 -/
  cf       : Bool
  /-- `STATUS.DONE`, R20 -/
  done     : Bool
  /-- `STATUS.MATCH`, R20 -/
  matched  : Bool
  /-- `STATUS.ERR`, R20: no error, or one of the kinds (log entry 10) -/
  err      : Option ErrKind
  /-- `LEN`, R22 -/
  len      : Word
  /-- `OLEN`, R23 -/
  olen     : Word
  /-- `KLEN`, R24 -/
  klen     : Byte
  /-- `N`, R25 -/
  n        : BitVec 32
  /-- `IVA`, R26 -/
  iva      : Word
  /-- `IVB`, R26 -/
  ivb      : Word
  /-- `KEK0`, R14 -/
  kek0     : Word
  /-- `KEK1`, R14 -/
  kek1     : Word
  /-- `KEK2`, R14 -/
  kek2     : Word
  /-- `KEK3`, R14 -/
  kek3     : Word
  /-- `BUF`, R12 -/
  buf      : Memory
  /-- the steps still to come, first one next (log entry 4) -/
  agenda   : List Event
  /-- the values host reads have returned, newest first (log entry 6) -/
  replies  : List Word
  /-- the requests made on the cipher port, newest first (log entry 7) -/
  requests : List BcsRequest
deriving DecidableEq, Repr

/-- Why the model stops. No fault is the hardware's: each is raised only in states no run from reset reaches,
where the spec gives no transition, so stopping is safe (log entry 12). -/
inductive Fault where
  /-- Raised by a RUN or FIN step for which R206 has no row (`N` = 0, or `OP` and `N` that cannot occur
  together). Safe. -/
  | noTransition
  /-- Raised by a RUN step while `KLEN` is not 16, 24 or 32, when `KEY` is not defined (R14). Safe. -/
  | keyUndefined
  /-- Raised by a RUN or FIN step that would reach a `BUF[k]` with k > `NMAX`, which does not exist (R12). Safe. -/
  | noEntry
deriving DecidableEq, Repr

/-- Why an instruction has no meaning. -/
inductive Refusal where
  /-- Raised by an arm of `exec` whose instruction has no meaning yet (none has this now). Safe. -/
  | notModelled (mnemonic : String)
deriving DecidableEq, Repr

/-- The outcome of a step. -/
abbrev Result := Host.Outcome State Fault Refusal

/-- The state after reset (R29, R180) of a KWE with configuration `c`: every piece of state zero, `PH` = IDLE. -/
def State.resetWith (c : Config) : State where
  cfg      := c
  ph       := .idle
  op       := .wrap
  j        := 0
  i        := 0
  cf       := false
  done     := false
  matched  := false
  err      := none
  len      := 0
  olen     := 0
  klen     := 0
  n        := 0
  iva      := 0
  ivb      := 0
  kek0     := 0
  kek1     := 0
  kek2     := 0
  kek3     := 0
  buf      := []
  agenda   := []
  replies  := []
  requests := []

/-- The state right after reset (R29), with the default configuration (log entries 1, 2). -/
def State.reset : State := State.resetWith Config.default

end Sys2Proof.Machine
end

