-- ==== Sys2Proof/Machine/Ops.lean ====
section
/-! DEFINITION. The named operations over the buffer and the registers, and the raising of an error, KWE's
"exception" (spec/60_exceptions.md R152, R153), with the completion that ends a command. -/

namespace Sys2Proof.Machine

/-- The value of `BUF[k]` (R12). -/
def Memory.read : Memory → Nat → Word
  | [], _ => Memory.unlisted
  | (a, v) :: m, k => if k = a then v else Memory.read m k

/-- `BUF[k] <- v`, keeping the canonical form. -/
def Memory.write : Memory → Nat → Word → Memory
  | [], k, v => if v = Memory.unlisted then [] else [(k, v)]
  | (a, w) :: m, k, v =>
    if k < a then if v = Memory.unlisted then (a, w) :: m else (k, v) :: (a, w) :: m
    else if k = a then if v = Memory.unlisted then m else (k, v) :: m
    else (a, w) :: Memory.write m k v

/-- `for k = 0 to n: BUF[k] <- 0` (R153): an entry of value zero is one that is not listed. -/
def Memory.clearTo (m : Memory) (n : Nat) : Memory := m.filter fun c => decide (n < c.1)

/-- The first line of R63: the previous result is withdrawn. -/
def State.withdraw (s : State) : State :=
  { s with done := false, matched := false, err := none, olen := 0, cf := false }

/-- The key is not retained (R14): `KEK0..KEK3` and `KLEN` become 0. -/
def State.clearKey (s : State) : State :=
  { s with kek0 := 0, kek1 := 0, kek2 := 0, kek3 := 0, klen := 0 }

/-- `DONE <- 1` at the end of a command that completes in its accept step (R95 to R99). -/
def State.setDone (s : State) : State := { s with done := true }

/-- `raise K` in an accept step, the lines common to all commands (R152, R161); `PH` stays IDLE. -/
def State.raiseEarly (k : ErrKind) (s : State) : State :=
  { s with err := some k, olen := 0, done := true }

/-- `raise K` in the accept step of a codec command (R152): the key is cleared as well. -/
def State.raiseEarlyCodec (k : ErrKind) (s : State) : State := (s.raiseEarly k).clearKey

/-- `raise K` in a FIN step (R153): the working area `BUF[0..N]` is cleared. -/
def State.raiseLate (k : ErrKind) (s : State) : State :=
  { s with err := some k, buf := s.buf.clearTo s.n.toNat, olen := 0 }

/-- The unconditional end of a FIN step (R120, R140, R141): there is nothing to return to (R158). -/
def State.finish (s : State) : State := { s.clearKey with done := true, ph := .idle }

/-- One reset step (R180, R181): every piece of KWE's state at its reset value. What is not KWE's state, the
configuration, the steps still to come and the records of the two ports, stays (log entry 15). -/
def State.resetStep (s : State) : State :=
  { State.resetWith s.cfg with agenda := s.agenda, replies := s.replies, requests := s.requests }

/-- A write of command `i`'s word to `CMD` (R63): ignored unless `PH` = IDLE (R44); otherwise the previous
result is withdrawn, `OP` is latched and the command's own part `body` follows. -/
def accept (i : Instr) (body : State → State) (s : State) : Result :=
  if s.ph = .idle then .next (body { s.withdraw with op := i }) else .next s

/-- A write of an illegal word to `CMD` (R63, R64): `OP` is not latched and the key is kept (R161). -/
def acceptIllegal (s : State) : Result :=
  if s.ph = .idle then .next (s.withdraw.raiseEarly .illegalCommand) else .next s

/-- A codec command's accept step after the common clearing: an early error, or the start of the command. -/
def codecStart (v : Verdict) (start : Nat → State → State) (s : State) : State :=
  match v with
  | .refuse k => s.raiseEarlyCodec k
  | .pass n => start n s

end Sys2Proof.Machine
end

