-- ==== Sys2Proof/Machine/Operands.lean ====
section
/-! DEFINITION. The operand forms of KWE: block halves and byte order (spec/00_scope.md R7, spec/20_memory.md R45),
the key (spec/10_state.md R14), the step counter (R17, R68), lengths (R202) and pad positions (R70, R137). -/

namespace Sys2Proof.Machine

/-- `hi64(B) = B[127:64]` (R7). -/
def hi64 (b : Block) : Word := b.extractLsb' 64 64

/-- `lo64(B) = B[63:0]` (R7). -/
def lo64 (b : Block) : Word := b.extractLsb' 0 64

/-- `be64(t)`: t as a 64-bit value (R7, R68). -/
def be64 (t : Nat) : Word := BitVec.ofNat 64 t

/-- `be32(L)`: L as a 32-bit value (R7, R67). -/
def be32 (l : Nat) : BitVec 32 := BitVec.ofNat 32 l

/-- `ceil8(L) = (L + 7) div 8`, in the unbounded integers (R7, R202). -/
def ceil8 (l : Nat) : Nat := (l + 7) / 8

/-- `LMAX` = 2^32 − 1 bytes (R5). -/
def lmax : Nat := 2 ^ 32 - 1

/-- Byte `k` of a semiblock, 0 ≤ k ≤ 7, most significant first: `S[63−8k : 56−8k]` (R7). -/
def byteOf (w : Word) (k : Nat) : Byte := w.extractLsb' (56 - 8 * k) 8

/-- Byte `p` of the byte sequence that starts at buffer entry `start` (R45). -/
def Memory.byteAt (m : Memory) (start p : Nat) : Byte := byteOf (m.read (start + p / 8)) (p % 8)

/-- The byte sequence of length `len` that starts at buffer entry `start` (R45). -/
def Memory.bytes (m : Memory) (start len : Nat) : List Byte := (List.range len).map (m.byteAt start)

/-- The semiblock that holds eight bytes, first byte most significant (R7). -/
def wordOfBytes (b : Nat → Byte) : Word := b 0 ++ b 1 ++ b 2 ++ b 3 ++ b 4 ++ b 5 ++ b 6 ++ b 7

/-- A byte sequence as semiblocks, padded on the right with zero bytes to the next multiple of 8 (R45, R70). -/
def semiblocks (p : List Byte) : List Word :=
  (List.range (ceil8 p.length)).map fun q => wordOfBytes fun k => p.getD (8 * q + k) 0

/-- `KEKV = KEK0 || KEK1 || KEK2 || KEK3` (R14). -/
def State.kekv (s : State) : BitVec 256 := s.kek0 ++ s.kek1 ++ s.kek2 ++ s.kek3

/-- `KLEN` ∈ {16, 24, 32}: the key lengths of AES-128, AES-192 and AES-256 (R5, R24). -/
def klenValid (k : Byte) : Bool := k == 16 || k == 24 || k == 32

/-- `KEY = KEKV[255 : 256 − 8*KLEN]`, defined only for `KLEN` ∈ {16, 24, 32} (R14). -/
def State.key (s : State) : Option Key :=
  if s.klen = 16 then some (.k128 (s.kekv.extractLsb' 128 128))
  else if s.klen = 24 then some (.k192 (s.kekv.extractLsb' 64 192))
  else if s.klen = 32 then some (.k256 s.kekv)
  else none

/-- The step counter `t = N*J + I`, exact (R17, R201). -/
def State.t (s : State) : Nat := s.n.toNat * s.j.toNat + s.i.toNat

/-- `6*n ≥ 2^64`: some t would not fit the source's 64-bit counter (R117, R135). -/
def counterOverflows (n : Nat) : Bool := decide (2 ^ 64 ≤ 6 * n)

/-- `PadMask(r)`, 1 ≤ r ≤ 7: ones in the r most significant bytes (R70). -/
def padMask (r : Nat) : Word := BitVec.ofNat 64 (0xFFFFFFFFFFFFFFFF - (2 ^ (8 * (8 - r)) - 1))

/-- The padding of WRAPP (R115): with r = L mod 8 ≠ 0 the pad bytes of `BUF[n]` become zero. -/
def padEntry (m : Memory) (n l : Nat) : Memory :=
  if l % 8 = 0 then m else m.write n (m.read n &&& padMask (l % 8))

/-- `PadZero(S, b)`: the b least significant bytes of S are zero (R137). -/
def padZero (w : Word) (b : Nat) : Bool := w.extractLsb' 0 (8 * b) == 0

end Sys2Proof.Machine
end

