-- ==== Sys2Proof/Machine/IvUnit.lean ====
section
/-! DEFINITION. The IV unit: its four functions (spec/41_iv_unit.md R90 to R94) and the commands IVDEF, IVALT,
IVCHK, AIVCHK (R95, R96, R97, R99), each complete in its accept step. -/

namespace Sys2Proof.Machine

/-- `DefaultIV()` (R91). -/
def defaultIV : Word := 0xA6A6A6A6A6A6A6A6

/-- The constant high half `AIVC` of an alternative IV (R67). -/
def aivConst : BitVec 32 := 0xA65959A6

/-- `0xA65959A6 || be32(L)` (R67). -/
def aivOf (l : Nat) : Word := aivConst ++ be32 l

/-- `AltIV(L)` (R92); `none` is its failure with `Overflow`. -/
def altIV (l : Nat) : Option Word := if lmax < l then none else some (aivOf l)

/-- `Verify(c, e)` (R93). -/
def verify (c e : Word) : Bool := c == e

/-- The claimed length `M = c[31:0]` (R67, R94). -/
def aivLength (c : Word) : Nat := (c.extractLsb' 0 32).toNat

/-- `AIVCheck(c, n)` = (ok, M) (R94), the comparison in the unbounded integers (R203). -/
def aivCheck (c : Word) (n : Nat) : Bool × Nat :=
  (c.extractLsb' 32 32 == aivConst && decide (8 * (n : Int) - 7 ≤ (aivLength c : Int) ∧ (aivLength c : Int) ≤ 8 * n),
    aivLength c)

/-- IVDEF (R95). -/
def execIvdef (s : State) : Result :=
  accept .ivdef (fun s => { s with iva := defaultIV }.setDone) s

/-- IVALT (R96): `Overflow` iff `LEN` > 2^32 − 1, and then `IVA` is unchanged. -/
def execIvalt (s : State) : Result :=
  accept .ivalt (fun s =>
    match altIV s.len.toNat with
    | none => s.raiseEarly .overflow
    | some v => { s with iva := v }.setDone) s

/-- IVCHK (R97): a mismatch is a result, not an error. -/
def execIvchk (s : State) : Result :=
  accept .ivchk (fun s => { s with matched := verify s.iva s.ivb }.setDone) s

/-- AIVCHK (R99): a failed check is a result, not an error. -/
def execAivchk (s : State) : Result :=
  accept .aivchk (fun s =>
    let r := aivCheck s.iva s.n.toNat
    { s with matched := r.1, olen := if r.1 then be64 r.2 else 0 }.setDone) s

end Sys2Proof.Machine
end

