-- ==== Sys2Proof/Machine/Bcs.lean ====
section
/-! DEFINITION. The block cipher service port: the transaction `BcsCall` (spec/40_block_cipher_port.md R80, R81,
R83, R84), the functions behind it (R82) and MOCKSWAP (R87). -/

namespace Sys2Proof.Machine

/-- `Kh` = key bytes 0 to 7 (R87). -/
def keyHigh : Key → Word
  | .k128 v => v.extractLsb' 64 64
  | .k192 v => v.extractLsb' 128 64
  | .k256 v => v.extractLsb' 192 64

/-- `Kl` = key bytes 8 to 15 (R87). -/
def keyLow : Key → Word
  | .k128 v => v.extractLsb' 0 64
  | .k192 v => v.extractLsb' 64 64
  | .k256 v => v.extractLsb' 128 64

/-- The key length on the port, in bytes (R80 `klen`). -/
def keyBytes : Key → Nat
  | .k128 _ => 16
  | .k192 _ => 24
  | .k256 _ => 32

/-- `EncM` (R87). -/
def mockEnc (k : Key) (x : Block) : Block := (lo64 x ^^^ keyHigh k) ++ (hi64 x ^^^ keyLow k)

/-- `DecM` (R87). -/
def mockDec (k : Key) (y : Block) : Block := (lo64 y ^^^ keyLow k) ++ (hi64 y ^^^ keyHigh k)

/-- The opaque service's function in one direction (R82). -/
def serviceFn : Dir → Key → Block → Block
  | .encrypt => Config.enc
  | .decrypt => Config.dec

/-- The function of the cipher behind the port: it depends on the key and the block alone (R82). -/
def cipherFn (c : Cipher) (d : Dir) (k : Key) (x : Block) : Block :=
  match c with
  | .mockswap => match d with
    | .encrypt => mockEnc k x
    | .decrypt => mockDec k x
  | .service known =>
    match known.find? fun p => p.dir == d && p.key == k && p.x == x with
    | some p => p.y
    | none => serviceFn d k x

/-- BCS_INV (R82): encryption and decryption under a key undo each other. A named premise of claims. -/
def BcsInv (c : Cipher) : Prop :=
  ∀ k x, cipherFn c .decrypt k (cipherFn c .encrypt k x) = x ∧
    cipherFn c .encrypt k (cipherFn c .decrypt k x) = x

/-- `BcsCall(dir, key, X)` = (ok, Y) for the environment's draw `a` (R81). -/
def bcsCall (c : Cipher) (d : Dir) (k : Key) (x : Block) : BcsAnswer → Bool × Block
  | .ok => (true, cipherFn c d k x)
  | .failed y => (false, y)

/-- The part of a RUN step that is common to all four: one transaction with `KEY` (R84), `CF <- 1` on a failure
(R83), and then `upd` with the answered block. -/
def withBcs (d : Dir) (x : Block) (a : BcsAnswer) (upd : Block → State → State) (s : State) : Result :=
  match s.key with
  | none => .fault .keyUndefined
  | some k =>
    let r := bcsCall s.cfg.cipher d k x a
    .next (upd r.2 { s with cf := s.cf || !r.1, requests := { dir := d, key := k, x := x } :: s.requests })

/-- The one-block RUN step (R119, R139): the block `BUF[0] || BUF[1]` in one transaction, no xor with t. -/
def runOneBlock (d : Dir) (a : BcsAnswer) (s : State) : Result :=
  if s.cfg.nmax < 1 then .fault .noEntry
  else
    withBcs d (s.buf.read 0 ++ s.buf.read 1) a (fun y s =>
      { s with buf := (s.buf.write 0 (hi64 y)).write 1 (lo64 y), ph := .fin }) s

end Sys2Proof.Machine
end

