-- ==== Sys2Proof/Machine/Unwrap.lean ====
section
/-! DEFINITION. The unwrap commands UNWRAP and UNWRAPP (spec/43_unwrap.md R132 to R141): validation, accept step,
the RUN steps they share and their two FIN steps. -/

namespace Sys2Proof.Machine

/-- UNWRAP's validation, first applicable check wins (R132); L is `LEN`. -/
def unwrapVerdict (c : Config) (l : Nat) (klen : Byte) : Verdict :=
  if l < 24 then .refuse .inputDataTooSmall
  else if lmax < l - 8 ∨ 8 * (c.nmax + 1) < l then .refuse .inputDataTooBig
  else if l % 8 ≠ 0 then .refuse .inputDataNotAlignedProperly
  else if klenValid klen = false then .refuse .invalidKeyEncryptionKey
  else if counterOverflows (l / 8 - 1) then .refuse .overflow
  else .pass (l / 8 - 1)

/-- UNWRAPP's validation (R134). -/
def unwrappVerdict (c : Config) (l : Nat) (klen : Byte) : Verdict :=
  if l < 16 then .refuse .inputDataTooSmall
  else if 8 * (c.nmax + 1) < l then .refuse .inputDataTooBig
  else if l % 8 ≠ 0 then .refuse .inputDataNotAlignedProperly
  else if klenValid klen = false then .refuse .invalidKeyEncryptionKey
  else if counterOverflows (l / 8 - 1) then .refuse .overflow
  else .pass (l / 8 - 1)

/-- The start of an unwrap (R133, R136): `BUF` is not changed. -/
def startUnwrap (n : Nat) (s : State) : State :=
  { s with n := BitVec.ofNat 32 n, j := 5, i := BitVec.ofNat 32 n, ph := .run }

/-- UNWRAP, its accept step (R133). -/
def execUnwrap (s : State) : Result :=
  accept .unwrap (fun s => codecStart (unwrapVerdict s.cfg s.len.toNat s.klen) startUnwrap s) s

/-- UNWRAPP, its accept step (R136). -/
def execUnwrapp (s : State) : Result :=
  accept .unwrapp (fun s => codecStart (unwrappVerdict s.cfg s.len.toNat s.klen) startUnwrap s) s

/-- The successor of (`J`, `I`) in an unwrap: j outer, i inner, both downward, then FIN (R138). -/
def advanceUnwrap (s : State) : State :=
  if 1 < s.i.toNat then { s with i := s.i - 1 }
  else if 0 < s.j.toNat then { s with j := s.j - 1, i := s.n }
  else { s with ph := .fin }

/-- The unwrap RUN step for `N` ≥ 2 (R138): xor t into A, then decrypt (A xor t) || R[I]. -/
def runUnwrap (a : BcsAnswer) (s : State) : Result :=
  if s.cfg.nmax < s.i.toNat then .fault .noEntry
  else
    withBcs .decrypt ((s.buf.read 0 ^^^ be64 s.t) ++ s.buf.read s.i.toNat) a (fun y s =>
      advanceUnwrap { s with buf := (s.buf.write 0 (hi64 y)).write s.i.toNat (lo64 y) }) s

/-- The UNWRAP FIN step (R140): `EncryptionFailed` is tested first. -/
def finUnwrap (s : State) : State :=
  if s.cf then (s.raiseLate .encryptionFailed).finish
  else if verify (s.buf.read 0) defaultIV = false then
    (s.raiseLate .integrityCheckingOfInitialValueFailed).finish
  else { s with olen := be64 (8 * s.n.toNat) }.finish

/-- The integrity conditions of UNWRAPP (R141): the AIV pattern, the range of M, and zero padding. -/
def unwrappOk (m : Memory) (n : Nat) : Bool :=
  let r := aivCheck (m.read 0) n
  r.1 && padZero (m.read n) (8 * n - r.2)

/-- The UNWRAPP FIN step (R141). -/
def finUnwrapp (s : State) : State :=
  if s.cf then (s.raiseLate .encryptionFailed).finish
  else if unwrappOk s.buf s.n.toNat = false then
    (s.raiseLate .integrityCheckingOfInitialValueFailed).finish
  else { s with olen := be64 (aivLength (s.buf.read 0)) }.finish

end Sys2Proof.Machine
end

