-- ==== Sys2Proof/Machine/Wrap.lean ====
section
/-! DEFINITION. The wrap commands WRAP and WRAPP (spec/42_wrap.md R112 to R120): validation, accept step, and
the RUN and FIN steps they share. -/

namespace Sys2Proof.Machine

/-- WRAP's validation, first applicable check wins (R112); L is `LEN`. -/
def wrapVerdict (c : Config) (l : Nat) (klen : Byte) : Verdict :=
  if l < 16 then .refuse .inputDataTooSmall
  else if lmax < l ∨ 8 * c.nmax < l then .refuse .inputDataTooBig
  else if l % 8 ≠ 0 then .refuse .inputDataNotAlignedProperly
  else if klenValid klen = false then .refuse .invalidKeyEncryptionKey
  else if counterOverflows (l / 8) then .refuse .overflow
  else .pass (l / 8)

/-- WRAPP's validation (R114): any length from 1 byte. -/
def wrappVerdict (c : Config) (l : Nat) (klen : Byte) : Verdict :=
  if l < 1 then .refuse .inputDataTooSmall
  else if lmax < l ∨ c.nmax < ceil8 l then .refuse .inputDataTooBig
  else if klenValid klen = false then .refuse .invalidKeyEncryptionKey
  else if counterOverflows (ceil8 l) then .refuse .overflow
  else .pass (ceil8 l)

/-- The start of a wrap with initial value `iv` on the buffer `buf` (R113, R116). -/
def startWrap (iv : Word) (buf : Memory) (n : Nat) (s : State) : State :=
  { s with n := BitVec.ofNat 32 n, buf := buf.write 0 iv, j := 0, i := 1, ph := .run }

/-- WRAP, its accept step (R113). -/
def execWrap (s : State) : Result :=
  accept .wrap (fun s =>
    codecStart (wrapVerdict s.cfg s.len.toNat s.klen) (fun n s => startWrap defaultIV s.buf n s) s) s

/-- WRAPP, its accept step (R115, R116): the pad bytes of `BUF[n]` are cleared and A is the alternative IV. -/
def execWrapp (s : State) : Result :=
  accept .wrapp (fun s =>
    codecStart (wrappVerdict s.cfg s.len.toNat s.klen)
      (fun n s => startWrap (aivOf s.len.toNat) (padEntry s.buf n s.len.toNat) n s) s) s

/-- The successor of (`J`, `I`) in a wrap: j outer, i inner, both upward, then FIN (R118). -/
def advanceWrap (s : State) : State :=
  if s.i.toNat < s.n.toNat then { s with i := s.i + 1 }
  else if s.j.toNat < 5 then { s with j := s.j + 1, i := 1 }
  else { s with ph := .fin }

/-- The wrap RUN step for `N` ≥ 2 (R118): encrypt A || R[I], then xor t into A. -/
def runWrap (a : BcsAnswer) (s : State) : Result :=
  if s.cfg.nmax < s.i.toNat then .fault .noEntry
  else
    withBcs .encrypt (s.buf.read 0 ++ s.buf.read s.i.toNat) a (fun y s =>
      advanceWrap { s with buf := (s.buf.write 0 (hi64 y ^^^ be64 s.t)).write s.i.toNat (lo64 y) }) s

/-- The wrap FIN step (R120). -/
def finWrap (s : State) : State :=
  if s.cf then (s.raiseLate .encryptionFailed).finish
  else { s with olen := be64 (8 * (s.n.toNat + 1)) }.finish

end Sys2Proof.Machine
end

