-- ==== Sys2Proof/Machine/Dispatch.lean ====
section
/-! DEFINITION. One arm per command: what a write of the command's word to `CMD` does (spec/30_encoding.md R63). -/

namespace Sys2Proof.Machine

def exec (i : Instr) (s : State) : Host.Outcome State Fault Refusal :=
  match i with
  | .wrap => Sys2Proof.Machine.execWrap s
  | .unwrap => Sys2Proof.Machine.execUnwrap s
  | .wrapp => Sys2Proof.Machine.execWrapp s
  | .unwrapp => Sys2Proof.Machine.execUnwrapp s
  | .ivdef => Sys2Proof.Machine.execIvdef s
  | .ivchk => Sys2Proof.Machine.execIvchk s
  | .ivalt => Sys2Proof.Machine.execIvalt s
  | .aivchk => Sys2Proof.Machine.execAivchk s

end Sys2Proof.Machine
end

