-- ==== Sys2Proof/Machine/Flags.lean ====
section
/-! DEFINITION. The flags of KWE and the status word (spec/10_state.md R18, R20, spec/30_encoding.md R66). -/

namespace Sys2Proof.Machine

/-- `STATUS.ERR` of an error kind (R66). -/
def ErrKind.code : ErrKind → BitVec 4
  | .inputDataTooSmall => 1
  | .inputDataTooBig => 2
  | .inputDataNotAlignedProperly => 3
  | .invalidKeyEncryptionKey => 4
  | .encryptionFailed => 5
  | .overflow => 6
  | .integrityCheckingOfInitialValueFailed => 7
  | .illegalCommand => 8

/-- `STATUS.ERR`: 0 for none (R20, R66). -/
def errCode : Option ErrKind → BitVec 4
  | none => 0
  | some k => k.code

/-- `STATUS.BUSY` = 1 exactly when `PH` ≠ IDLE (R20). -/
def State.busy (s : State) : Bool := s.ph != .idle

/-- The `STATUS` word (R20): bits 63:8 and bit 3 are 0, 7:4 `ERR`, 2 `MATCH`, 1 `DONE`, 0 `BUSY`. -/
def State.status (s : State) : Word :=
  (0 : BitVec 56) ++ errCode s.err ++ (0 : BitVec 1) ++ BitVec.ofBool s.matched ++ BitVec.ofBool s.done
    ++ BitVec.ofBool s.busy

end Sys2Proof.Machine
end

