-- ==== Sys2Proof/Machine/HostPort.lean ====
section
/-! DEFINITION. The host port: the address map (spec/10_state.md R19, spec/20_memory.md R41), `MemRead` (R42),
`MemWrite` (R43) and the lock-out while busy (R44). -/

namespace Sys2Proof.Machine

/-- The word address of `BUF[0]` (R41). -/
def bufBase : Nat := 0x40000000

/-- The registers of the map (R19). -/
def registerMap : List (Addr × Port) :=
  [(0x0, .cmd), (0x1, .status), (0x2, .len), (0x3, .olen), (0x4, .klen), (0x5, .n), (0x6, .iva), (0x7, .ivb),
   (0x8, .kek0), (0x9, .kek1), (0xA, .kek2), (0xB, .kek3)]

/-- What a host address selects, for capacity `nmax` (R19, R41, R50). -/
def portOf (nmax : Nat) (addr : Addr) : Port :=
  match registerMap.lookup addr with
  | some p => p
  | none => if bufBase ≤ addr.toNat ∧ addr.toNat - bufBase ≤ nmax then .buf (addr.toNat - bufBase) else .unmapped

/-- The value of a readable register or entry while `PH` = IDLE; `CMD`, `KEK0..3` and unmapped words read 0 (R42). -/
def readPort (s : State) : Port → Word
  | .cmd => 0
  | .status => s.status
  | .len => s.len
  | .olen => s.olen
  | .klen => s.klen.setWidth 64
  | .n => s.n.setWidth 64
  | .iva => s.iva
  | .ivb => s.ivb
  | .kek0 => 0
  | .kek1 => 0
  | .kek2 => 0
  | .kek3 => 0
  | .buf k => s.buf.read k
  | .unmapped => 0

/-- `MemRead(addr, 8)` (R42): `STATUS` in every phase, otherwise 0 while busy. -/
def memRead (s : State) (addr : Addr) : Word :=
  match portOf s.cfg.nmax addr with
  | .status => s.status
  | p => if s.ph = .idle then readPort s p else 0

/-- A write to `CMD` (R63): the accept step of the decoded command, or of an illegal word. -/
def commandWrite (s : State) (w : Word) : Result :=
  match decode w with
  | .ok i => exec i s
  | .error .illegalCommand => acceptIllegal s

/-- A write to a register other than `CMD` or to a buffer entry while `PH` = IDLE: that register only (R43). -/
def writePort (s : State) (v : Word) : Port → State
  | .cmd => s
  | .status => s
  | .len => { s with len := v }
  | .olen => s
  | .klen => { s with klen := v.setWidth 8 }
  | .n => { s with n := v.setWidth 32 }
  | .iva => { s with iva := v }
  | .ivb => { s with ivb := v }
  | .kek0 => { s with kek0 := v }
  | .kek1 => { s with kek1 := v }
  | .kek2 => { s with kek2 := v }
  | .kek3 => { s with kek3 := v }
  | .buf k => { s with buf := s.buf.write k v }
  | .unmapped => s

/-- `MemWrite(addr, 8, v)` (R43); ignored while busy (R44; `commandWrite` keeps that rule itself). -/
def memWrite (s : State) (addr : Addr) (v : Word) : Result :=
  match portOf s.cfg.nmax addr with
  | .cmd => commandWrite s v
  | p => if s.ph = .idle then .next (writePort s v p) else .next s

/-- One host access. The value a read returns goes to the host's record and changes nothing of KWE (R42). -/
def hostStep (s : State) : HostOp → Result
  | .read addr => .next { s with replies := memRead s addr :: s.replies }
  | .write addr v => memWrite s addr v

end Sys2Proof.Machine
end

