-- ==== Sys2Proof/Machine/Sequencer.lean ====
section
/-! DEFINITION. The sequencer: which RUN or FIN step is enabled (spec/44_arith_control_system.md R206). -/

namespace Sys2Proof.Machine

/-- The RUN step (R118, R119, R138, R139), with the cipher service's draw. -/
def runStep (a : BcsAnswer) (s : State) : Result :=
  match s.op with
  | .wrap => if 2 ≤ s.n.toNat then runWrap a s else .fault .noTransition
  | .unwrap => if 2 ≤ s.n.toNat then runUnwrap a s else .fault .noTransition
  | .wrapp =>
    if 2 ≤ s.n.toNat then runWrap a s
    else if s.n.toNat = 1 then runOneBlock .encrypt a s
    else .fault .noTransition
  | .unwrapp =>
    if 2 ≤ s.n.toNat then runUnwrap a s
    else if s.n.toNat = 1 then runOneBlock .decrypt a s
    else .fault .noTransition
  | .ivdef => .fault .noTransition
  | .ivchk => .fault .noTransition
  | .ivalt => .fault .noTransition
  | .aivchk => .fault .noTransition

/-- The FIN step (R120, R140, R141). -/
def finStep (s : State) : Result :=
  match s.op with
  | .wrap => .next (finWrap s)
  | .wrapp => .next (finWrap s)
  | .unwrap => .next (finUnwrap s)
  | .unwrapp => if s.cfg.nmax < s.n.toNat then .fault .noEntry else .next (finUnwrapp s)
  | .ivdef => .fault .noTransition
  | .ivchk => .fault .noTransition
  | .ivalt => .fault .noTransition
  | .aivchk => .fault .noTransition

/-- The sequencer's turn: nothing while `PH` = IDLE (R52), otherwise the RUN or the FIN step. -/
def engineStep (a : BcsAnswer) (s : State) : Result :=
  match s.ph with
  | .idle => .next s
  | .run => runStep a s
  | .fin => finStep s

end Sys2Proof.Machine
end

