-- ==== Sys2Proof/Machine/Agents.lean ====
section
/-! DEFINITION. The agents of KWE (spec/10_state.md R10) and whose turn it is (R11; log entries 3, 4, 5). -/

namespace Sys2Proof.Machine

/-- One step of the agent an event names (R10). -/
def eventStep (s : State) : Event → Result
  | .host op => hostStep s op
  | .engine a => engineStep a s
  | .reset => .next s.resetStep

/-- One step of the machine: the first event of the agenda; with none left, the sequencer by itself, whose
transaction is answered by a free draw (log entries 3, 4). -/
def turn (s : State) : Result :=
  match s.agenda with
  | [] => engineStep (Config.freeAnswer s.requests.length) s
  | e :: rest => eventStep { s with agenda := rest } e

/-- The host write of a command word comes next (log entry 5). -/
def placeCommand (s : State) (w : Word) : State :=
  { s with agenda := .host (.write 0 w) :: s.agenda }

end Sys2Proof.Machine
end

