-- ==== Sys2Proof/Machine/Step.lean ====
section
/-! DEFINITION. The step of the machine, and where an instruction is placed so that the next step runs it. -/

namespace Sys2Proof.Machine

/-- One step of the machine (R10, R52: accesses and steps are interleaved in one total order). -/
def step (s : State) : Host.Outcome State Fault Refusal := turn s

/-- `s` with the instruction of bits `w` coming next: KWE fetches nothing (R15), a command is the host's write
of its word to `CMD` (R21, R60), so that write becomes the first event (log entry 5). -/
def State.withFetchWord (s : State) (nbits w : Nat) : State := placeCommand s (BitVec.ofNat 64 (w % 2 ^ nbits))

end Sys2Proof.Machine
end

