-- ==== Sys2Proof/Machine/HostNotation.lean ====
section
/-! DEFINITION. The host notation of spec/30_encoding.md R71, as the bus accesses it expands to, and the bus tuple
of R72. It adds no meaning beyond `MemRead` and `MemWrite`. -/

namespace Sys2Proof.Machine

/-- The word address of a register or of `BUF[k]` (R19, R41); an unmapped word stands at 0xC (R50). -/
def portAddr : Port → Addr
  | .cmd => 0x0
  | .status => 0x1
  | .len => 0x2
  | .olen => 0x3
  | .klen => 0x4
  | .n => 0x5
  | .iva => 0x6
  | .ivb => 0x7
  | .kek0 => 0x8
  | .kek1 => 0x9
  | .kek2 => 0xA
  | .kek3 => 0xB
  | .buf k => BitVec.ofNat 32 (bufBase + k)
  | .unmapped => 0xC

/-- `WR <reg>, <value>` (R71). -/
def wr (p : Port) (v : Word) : Event := .host (.write (portAddr p) v)

/-- `RD <reg>` (R71). -/
def rd (p : Port) : Event := .host (.read (portAddr p))

/-- A command written by its mnemonic: `WR CMD, <opcode>` (R71). -/
def command (i : Instr) : Event := wr .cmd (encode i)

/-- Bytes 8q to 8q+7 of a sequence as a big-endian word, zero-padded on the right (R71). -/
def wordAt (b : List Byte) (q : Nat) : Word := wordOfBytes fun k => b.getD (8 * q + k) 0

/-- `LOADKEY` (R71). -/
def loadKey (k : List Byte) : List Event :=
  [wr .klen (be64 k.length), wr .kek0 (wordAt k 0), wr .kek1 (wordAt k 1), wr .kek2 (wordAt k 2), wr .kek3 (wordAt k 3)]

/-- `LOADPT` (R71): the plaintext from `BUF[1]` up, then `LEN`. -/
def loadPt (p : List Byte) : List Event :=
  (List.range (ceil8 p.length)).map (fun q => wr (.buf (1 + q)) (wordAt p q)) ++ [wr .len (be64 p.length)]

/-- `LOADCT` (R71): the ciphertext from `BUF[0]` up, then `LEN`. -/
def loadCt (c : List Byte) : List Event :=
  (List.range (c.length / 8)).map (fun q => wr (.buf q) (wordAt c q)) ++ [wr .len (be64 c.length)]

/-- `POLL` (R71) that needs `k` reads of `STATUS` before `BUSY` = 0; how many is the schedule's affair (U11). -/
def poll (k : Nat) : List Event := List.replicate k (rd .status)

/-- One bus transaction (R72): `rw` = 1 for a write; a read's `data` is the value returned. -/
structure BusTx where
  rw   : Bool
  addr : Addr
  data : Word
deriving DecidableEq, Repr

/-- The transaction of an access made in state `s` (R72). -/
def busTx (s : State) : HostOp → BusTx
  | .read addr => { rw := false, addr := addr, data := memRead s addr }
  | .write addr v => { rw := true, addr := addr, data := v }

/-- The 97-bit tuple `(rw, addr[31:0], data[63:0])` (R72). -/
def BusTx.tuple (x : BusTx) : BitVec 97 := BitVec.ofBool x.rw ++ x.addr ++ x.data

/-- The transaction of a 97-bit tuple (R72). -/
def busTxOfTuple (b : BitVec 97) : BusTx :=
  { rw := b.getLsbD 96, addr := b.extractLsb' 64 32, data := b.extractLsb' 0 64 }

end Sys2Proof.Machine
end

