-- ==== Sys2Proof/Machine/Reference.lean ====
section
/-! DEFINITION. The reference functions the commands compute: `WrapCore`, `WrapRef`, `WrapPadRef`
(spec/42_wrap.md R110, R111) and `UnwrapCore`, `UnwrapRef`, `UnwrapPadRef` (spec/43_unwrap.md R130, R131).
They are pure functions of the cipher's function under one key; a chaining state is (A, R[1..n]). -/

namespace Sys2Proof.Machine

/-- The loop body of R110 for round j and semiblock i (1 ≤ i ≤ n), with cipher function `E`. -/
def wrapBody (E : Block → Block) (n j i : Nat) (c : Word × List Word) : Word × List Word :=
  let b := E (c.1 ++ c.2.getD (i - 1) 0)
  (hi64 b ^^^ be64 (n * j + i), c.2.set (i - 1) (lo64 b))

/-- `WrapCore(K, iv, R[1..n])` (R110): for j = 0 to 5, for i = 1 to n. -/
def wrapCore (E : Block → Block) (iv : Word) (r : List Word) : Word × List Word :=
  (List.range 6).foldl
    (fun c j => (List.range r.length).foldl (fun c i => wrapBody E r.length j (i + 1) c) c) (iv, r)

/-- The loop body of R130 for round j and semiblock i (1 ≤ i ≤ n), with cipher function `D`. -/
def unwrapBody (D : Block → Block) (n j i : Nat) (c : Word × List Word) : Word × List Word :=
  let b := D ((c.1 ^^^ be64 (n * j + i)) ++ c.2.getD (i - 1) 0)
  (hi64 b, c.2.set (i - 1) (lo64 b))

/-- `UnwrapCore(K, A0, R[1..n])` (R130): for j = 5 downto 0, for i = n downto 1. -/
def unwrapCore (D : Block → Block) (a : Word) (r : List Word) : Word × List Word :=
  (List.range 6).reverse.foldl
    (fun c j => (List.range r.length).reverse.foldl (fun c i => unwrapBody D r.length j (i + 1) c) c) (a, r)

/-- The bytes of a sequence of semiblocks, in order (R45). -/
def bytesOf (ws : List Word) : List Byte := ws.flatMap fun w => (List.range 8).map (byteOf w)

/-- `WrapRef(K, P)` as semiblocks A, R[1], …, R[n] (R111). -/
def wrapRef (E : Block → Block) (p : List Byte) : List Word :=
  let c := wrapCore E defaultIV (semiblocks p)
  c.1 :: c.2

/-- `WrapPadRef(K, P)` as semiblocks (R111): one cipher block when n = 1, otherwise the same rounds from the AIV. -/
def wrapPadRef (E : Block → Block) (p : List Byte) : List Word :=
  match semiblocks p with
  | [r] =>
    let b := E (aivOf p.length ++ r)
    [hi64 b, lo64 b]
  | rs =>
    let c := wrapCore E (aivOf p.length) rs
    c.1 :: c.2

/-- `UnwrapRef(K, C)` (R131) on the ciphertext's semiblocks; `none` is `IntegrityCheckingOfInitialValueFailed`. -/
def unwrapRef (D : Block → Block) : List Word → Option (List Byte)
  | [] => none
  | a :: rs =>
    let c := unwrapCore D a rs
    if verify c.1 defaultIV then some (bytesOf c.2) else none

/-- The candidate (A, R[1..n]) of `UnwrapPadRef` (R131): one cipher block when n = 1, otherwise the rounds. -/
def unwrapPadCandidate (D : Block → Block) (a : Word) : List Word → Word × List Word
  | [r] =>
    let b := D (a ++ r)
    (hi64 b, [lo64 b])
  | rs => unwrapCore D a rs

/-- `UnwrapPadRef(K, C)` (R131): the first M bytes, if the AIV pattern holds, M is in range for n and every
discarded byte is zero; `none` is `IntegrityCheckingOfInitialValueFailed`. -/
def unwrapPadRef (D : Block → Block) : List Word → Option (List Byte)
  | [] => none
  | a :: rs =>
    let c := unwrapPadCandidate D a rs
    let p := bytesOf c.2
    let r := aivCheck c.1 rs.length
    if r.1 && (p.drop r.2).all (· == 0) then some (p.take r.2) else none

end Sys2Proof.Machine
end

