-- ==== Sys2Proof/Safety.lean ====
section
/-! DEFINITION. The terms claims are made in: the invariant that rules out states no run reaches, a step taken for
one given event, whole schedules, and the shapes of a refused command and of two states that differ in the key. -/

namespace Sys2Proof.Machine

/-- The kinds a command can report (spec/60_exceptions.md R156, the entries marked x; `Overflow` from a codec
command, marked u, is unreachable). `IllegalCommand` belongs to no command. -/
def canRaise : Instr → ErrKind → Bool
  | .wrap, k => k == .inputDataTooSmall || k == .inputDataTooBig || k == .inputDataNotAlignedProperly
      || k == .invalidKeyEncryptionKey || k == .encryptionFailed
  | .unwrap, k => k == .inputDataTooSmall || k == .inputDataTooBig || k == .inputDataNotAlignedProperly
      || k == .invalidKeyEncryptionKey || k == .encryptionFailed || k == .integrityCheckingOfInitialValueFailed
  | .wrapp, k => k == .inputDataTooSmall || k == .inputDataTooBig || k == .invalidKeyEncryptionKey
      || k == .encryptionFailed
  | .unwrapp, k => k == .inputDataTooSmall || k == .inputDataTooBig || k == .inputDataNotAlignedProperly
      || k == .invalidKeyEncryptionKey || k == .encryptionFailed || k == .integrityCheckingOfInitialValueFailed
  | .ivdef, _ => false
  | .ivchk, _ => false
  | .ivalt, k => k == .overflow
  | .aivchk, _ => false

/-- What holds in every state a run from reset can reach (R206's invariants, and those of R12, R20, R23, R66, R156). -/
structure Inv (s : State) : Prop where
  /-- 2 ≤ `NMAX` ≤ 2^29 (R6) -/
  cfg : s.cfg.Valid
  /-- the buffer is in its canonical form (log entry 8) -/
  bufWf : s.buf.wf = true
  /-- there are no entries above `NMAX` (R12) -/
  bufIn : ∀ c ∈ s.buf, c.1 ≤ s.cfg.nmax
  /-- no result is reported before `DONE` (R20, R63) -/
  pending : s.done = false → s.matched = false ∧ s.err = none ∧ s.olen = 0
  /-- `DONE` = 0 while busy (R20) -/
  busyDone : s.ph ≠ .idle → s.done = false
  /-- an error comes with `MATCH` = 0 and `OLEN` = 0 (R23, R66) -/
  errQuiet : s.err ≠ none → s.matched = false ∧ s.olen = 0
  /-- `MATCH` = 1 comes only from IVCHK or AIVCHK (R20) -/
  matchedBy : s.matched = true → s.op = .ivchk ∨ s.op = .aivchk
  /-- which command can report which kind (R156) -/
  errBy : ∀ k, s.err = some k → k = .illegalCommand ∨ canRaise s.op k = true
  /-- only a codec command is ever in flight (R206) -/
  busyOp : s.ph ≠ .idle → s.op.isCodec = true
  /-- 1 ≤ `N` ≤ `NMAX` while busy (R206) -/
  busyN : s.ph ≠ .idle → 1 ≤ s.n.toNat ∧ s.n.toNat ≤ s.cfg.nmax
  /-- the unpadded commands have `N` ≥ 2 (R206) -/
  busyChain : s.ph ≠ .idle → s.op.pad = false → 2 ≤ s.n.toNat
  /-- the key length has been validated (R14, R84) -/
  busyKey : s.ph ≠ .idle → klenValid s.klen = true
  /-- `J` ≤ 5 and 1 ≤ `I` ≤ `N` in the chaining rounds (R15, R206) -/
  runPos : s.ph = .run → 2 ≤ s.n.toNat → s.j.toNat ≤ 5 ∧ 1 ≤ s.i.toNat ∧ s.i.toNat ≤ s.n.toNat

/-- The machine's step from `s` when event `e` comes next, before the rest of the agenda. -/
def stepWith (e : Event) (s : State) : Result := step { s with agenda := e :: s.agenda }

/-- Run the machine to the end of its agenda. -/
def runAgenda (s : State) : Result := Host.Core.run core s.agenda.length s

/-- Is the event a step of the engine? -/
def Event.isEngine : Event → Bool
  | .host _ => false
  | .engine _ => true
  | .reset => false

/-- Is the event no reset? -/
def Event.noReset : Event → Bool
  | .host _ => true
  | .engine _ => true
  | .reset => false

/-- Is the event no failed cipher transaction? -/
def Event.okAnswer : Event → Bool
  | .host _ => true
  | .engine .ok => true
  | .engine (.failed _) => false
  | .reset => true

/-- How many engine steps a schedule holds. -/
def engineCount (evs : List Event) : Nat := evs.countP Event.isEngine

/-- The RUN steps a command of semiblock count n takes: 6·n, or 1 when n = 1 (R85, R122). -/
def runSteps (n : Nat) : Nat := if n = 1 then 1 else 6 * n

/-- The schedule of a command of semiblock count n up to its FIN step: exactly the RUN steps R122 counts, no reset,
and any host accesses in between. -/
def RunSchedule (n : Nat) (pre : List Event) : Prop :=
  (∀ e ∈ pre, e.noReset = true) ∧ engineCount pre = runSteps n

/-- The named premise of R81, R121 and R142: every transaction of the schedule answers `ok` = 1. -/
def AllOk (pre : List Event) : Prop := ∀ e ∈ pre, e.okAnswer = true

/-- From `s`, the host writes command `i`; then the schedule `pre`; then one more step of the engine, the FIN step,
which makes no transaction, so that its draw `a` does not matter. -/
def commandRun (i : Instr) (pre : List Event) (a : BcsAnswer) (s : State) : Result :=
  runAgenda { s with agenda := command i :: (pre ++ [.engine a]) }

/-- The buffer holds the byte sequence `p` from entry `start` on (R45, R46, R47). -/
def HoldsBytes (m : Memory) (start : Nat) (p : List Byte) : Prop :=
  ∀ q, q < p.length → m.byteAt start q = p.getD q 0

/-- The buffer holds the semiblocks `ws` from entry 0 on (R46, R47). -/
def HoldsSemiblocks (m : Memory) (ws : List Word) : Prop :=
  ∀ q, q < ws.length → m.read q = ws.getD q 0

/-- The RUN steps still to be taken before FIN (R191, R206). -/
def remainingRuns (s : State) : Nat :=
  match s.ph with
  | .idle => 0
  | .fin => 0
  | .run => if s.n.toNat = 1 then 1 else if s.op.dir then s.t else 6 * s.n.toNat + 1 - s.t

/-- The state after the accept step of codec command `i` that ends in early error `k` (R63, R152): the previous
result withdrawn, `OP` latched, the error reported, the key cleared, and nothing else changed. -/
def refusedState (i : Instr) (k : ErrKind) (s : State) : State :=
  { s with op := i, cf := false, done := true, matched := false, err := some k, olen := 0,
           klen := 0, kek0 := 0, kek1 := 0, kek2 := 0, kek3 := 0 }

/-- The state after an accept step that ends without error and without starting the sequencer, before the
command's own results (R63): result withdrawn, `OP` latched, `DONE` set. -/
def acceptedState (i : Instr) (s : State) : State :=
  { s with op := i, cf := false, done := true, matched := false, err := none, olen := 0 }

/-- The state after the accept step of a codec command that goes on (R63, R113, R116, R133, R136): result
withdrawn, `OP` latched, `N` and the position set, `PH` = RUN; `BUF` as given. -/
def startedState (i : Instr) (n j pos : Nat) (buf : Memory) (s : State) : State :=
  { s with op := i, cf := false, done := false, matched := false, err := none, olen := 0,
           n := BitVec.ofNat 32 n, j := BitVec.ofNat 3 j, i := BitVec.ofNat 32 pos, ph := .run, buf := buf }

/-- The state after a FIN step with this error, result length and buffer (R120, R140, R141): the key cleared,
`DONE` set, `PH` = IDLE. -/
def finishedState (e : Option ErrKind) (olen : Word) (buf : Memory) (s : State) : State :=
  { s with ph := .idle, done := true, err := e, olen := olen, buf := buf,
           klen := 0, kek0 := 0, kek1 := 0, kek2 := 0, kek3 := 0 }

/-- Key byte `p`, the first byte most significant (R14, R87). -/
def keyByte : Key → Nat → Byte
  | .k128 v, p => v.extractLsb' (120 - 8 * p) 8
  | .k192 v, p => v.extractLsb' (184 - 8 * p) 8
  | .k256 v, p => v.extractLsb' (248 - 8 * p) 8

/-- `m` is the buffer `m0` with entries 0 to n cleared and every other entry kept (R153). -/
def ClearedTo (n : Nat) (m0 m : Memory) : Prop :=
  (∀ k, k ≤ n → m.read k = 0) ∧ ∀ k, n < k → m.read k = m0.read k

/-- Two states that agree in everything but the contents of `KEK0..KEK3`. -/
def SameButKek (s t : State) : Prop :=
  t = { s with kek0 := t.kek0, kek1 := t.kek1, kek2 := t.kek2, kek3 := t.kek3 }

end Sys2Proof.Machine
end

