-- ==== Sys2Proof/Certificates/Slice0/Obligations.lean ====
section
/-! DEFINITION. The statements about KWE that are put to the provers. Each docstring names the rules of spec/ it is
about; where a statement rests on a choice of the model, it names the log entry. -/

open Sys2Proof Sys2Proof.Machine

/-! ### Encodings -/

/-- The eight command words of R62, each written out as the data of the host's write. -/
def Obligations.OpcodeTableWords : Prop :=
  decode 0x0000000000000000 = .ok .wrap ∧ decode 0x0000000000000001 = .ok .unwrap ∧
  decode 0x0000000000000002 = .ok .wrapp ∧ decode 0x0000000000000003 = .ok .unwrapp ∧
  decode 0x0000000000000004 = .ok .ivdef ∧ decode 0x0000000000000005 = .ok .ivchk ∧
  decode 0x0000000000000006 = .ok .ivalt ∧ decode 0x0000000000000007 = .ok .aivchk

/-- R61, R62, R64, R65: a word selects command `i` exactly when its reserved bits are zero and its low bits are `UNIT PAD
DIR` of `i`; that is, exactly when it is the word the encoder gives for `i`. Every other word, that is every word with a
bit of 63:3 set, is illegal. -/
def Obligations.DecodeAndEncodeAgree : Prop :=
  (∀ i : Instr, decode (encode i) = .ok i) ∧
  ∀ w : Word,
    (∀ i : Instr, decode w = .ok i → w = encode i) ∧
    (∀ i : Instr, decode w = .ok i ↔
      w.extractLsb' 3 61 = 0 ∧ w.getLsbD 2 = i.unit ∧ w.getLsbD 1 = i.pad ∧ w.getLsbD 0 = i.dir) ∧
    (decode w = .error .illegalCommand ↔ 8 ≤ w.toNat)

/-- R72: the 97-bit tuple `(rw, addr, data)` drops no bit of a transaction, and every tuple is one. -/
def Obligations.BusTupleRoundTrip : Prop :=
  (∀ x : BusTx, busTxOfTuple x.tuple = x) ∧ ∀ b : BitVec 97, (busTxOfTuple b).tuple = b

/-! ### What a step runs -/

/-- A write of a word to `CMD` (R21, R63) runs the command the word decodes to; an illegal word is accepted as
one (R64). The write is the first event of the agenda, which is taken off (log entries 4 and 5); a command placed
with `withFetchWord` is what the next step runs, in every state. -/
def Obligations.StepRunsTheDecodedCommand : Prop :=
  (∀ (s : State) (rest : List Event) (w : Word), s.agenda = .host (.write 0 w) :: rest →
    (∀ i, decode w = .ok i → step s = exec i { s with agenda := rest }) ∧
    (decode w = .error .illegalCommand → step s = acceptIllegal { s with agenda := rest })) ∧
  ∀ (s : State) (nbits w : Nat) (i : Instr), decodeTableWord nbits w = some i →
    step (s.withFetchWord nbits w) = exec i s

/-- R10: which agent moves. The agenda's first event names it; with none listed the engine moves by itself, and its
transaction is answered by a free draw (the model's choice, log entries 3 and 4). -/
def Obligations.StepTakesTheNextEvent : Prop :=
  ∀ s : State,
    (s.agenda = [] → step s = engineStep (Config.freeAnswer s.requests.length) s) ∧
    (∀ (a : BcsAnswer) (rest : List Event), s.agenda = .engine a :: rest →
      step s = engineStep a { s with agenda := rest }) ∧
    (∀ (op : HostOp) (rest : List Event), s.agenda = .host op :: rest →
      step s = hostStep { s with agenda := rest } op) ∧
    (∀ rest : List Event, s.agenda = .reset :: rest → step s = .next ({ s with agenda := rest } : State).resetStep)

/-! ### The IV unit -/

/-- R95: IVDEF completes in its accept step; `IVA` is the default IV, and apart from the withdrawn result, `OP` and
`DONE` nothing else changes. -/
def Obligations.IvdefWritesTheDefaultIv : Prop :=
  ∀ s : State, s.ph = .idle →
    exec .ivdef s = .next { acceptedState .ivdef s with iva := 0xA6A6A6A6A6A6A6A6 }

/-- R96, R92: IVALT puts `0xA65959A6 || LEN[31:0]` into `IVA` when `LEN` < 2^32; otherwise it ends with `Overflow`, and
`IVA`, the KEK and `KLEN` are unchanged. -/
def Obligations.IvaltEncodesTheLength : Prop :=
  ∀ s : State, s.ph = .idle →
    (s.len.toNat ≤ 2 ^ 32 - 1 →
      exec .ivalt s = .next { acceptedState .ivalt s with iva := (0xA65959A6 : BitVec 32) ++ s.len.extractLsb' 0 32 }) ∧
    (2 ^ 32 - 1 < s.len.toNat →
      exec .ivalt s = .next { acceptedState .ivalt s with err := some .overflow })

/-- R97: IVCHK's `MATCH` is the equality of `IVA` and `IVB` in all 64 bits; a mismatch is no error. -/
def Obligations.IvchkComparesTheIvs : Prop :=
  ∀ s : State, s.ph = .idle →
    exec .ivchk s = .next { acceptedState .ivchk s with matched := decide (s.iva = s.ivb) }

/-- R99, R94: AIVCHK accepts `IVA` exactly when its high half is the constant and its low half M meets
8·N − 7 ≤ M ≤ 8·N in the integers; then `MATCH` = 1 and `OLEN` = M, otherwise both are 0. No failed check is an error. -/
def Obligations.AivchkChecksTheAiv : Prop :=
  ∀ (s : State) (m n : Int), s.ph = .idle → m = (s.iva.extractLsb' 0 32).toNat → n = s.n.toNat →
    (s.iva.extractLsb' 32 32 = 0xA65959A6 ∧ 8 * n - 7 ≤ m ∧ m ≤ 8 * n →
      exec .aivchk s = .next { acceptedState .aivchk s with matched := true, olen := (s.iva.extractLsb' 0 32).setWidth 64 }) ∧
    (¬(s.iva.extractLsb' 32 32 = 0xA65959A6 ∧ 8 * n - 7 ≤ m ∧ m ≤ 8 * n) →
      exec .aivchk s = .next (acceptedState .aivchk s))

/-- R94 (a), R99's corner cases, R203. The pattern part of `AIVCheck` is `Verify(c, AltIV(M))`, and `AltIV` is defined at
that M. n = 0 accepts only M = 0; n = 2^29 accepts 2^32 − 7 to 2^32 − 1; n = 2^32 − 1 accepts none. -/
def Obligations.AivCheckPatternAndRange : Prop :=
  ∀ c : Word,
    (∀ n : Nat, ∃ v, altIV (aivLength c) = some v ∧
      ((aivCheck c n).1 = true ↔
        verify c v = true ∧ 8 * (n : Int) - 7 ≤ (aivLength c : Int) ∧ (aivLength c : Int) ≤ 8 * n)) ∧
    ((aivCheck c 0).1 = true ↔ c = 0xA65959A600000000) ∧
    ((aivCheck c (2 ^ 29)).1 = true ↔ c.extractLsb' 32 32 = 0xA65959A6 ∧ 2 ^ 32 - 7 ≤ aivLength c) ∧
    (aivCheck c (2 ^ 32 - 1)).1 = false

/-! ### Accepting a codec command -/

/-- R113: when validation passes, WRAP sets `N` = `LEN`/8, `BUF[0]` to the default IV, the position to (0, 1) and `PH` to
RUN; every other entry of the buffer and everything else is unchanged but for the withdrawn result and `OP`. -/
def Obligations.WrapStarts : Prop :=
  ∀ s : State, Inv s → s.ph = .idle → 16 ≤ s.len.toNat → s.len.toNat ≤ 2 ^ 32 - 1 → s.len.toNat ≤ 8 * s.cfg.nmax →
    s.len.toNat % 8 = 0 → (s.klen = 16 ∨ s.klen = 24 ∨ s.klen = 32) →
    ∃ buf : Memory, exec .wrap s = .next (startedState .wrap (s.len.toNat / 8) 0 1 buf s) ∧
      buf.read 0 = 0xA6A6A6A6A6A6A6A6 ∧ ∀ k, k ≠ 0 → buf.read k = s.buf.read k

/-- R112, R152: WRAP's early errors in their order; nothing changes but the withdrawn result, `OP`, the report and
the cleared key. -/
def Obligations.WrapRefuses : Prop :=
  ∀ (s : State) (l : Nat), s.cfg.Valid → s.ph = .idle → l = s.len.toNat →
    (l < 16 → exec .wrap s = .next (refusedState .wrap .inputDataTooSmall s)) ∧
    (16 ≤ l → (2 ^ 32 - 1 < l ∨ 8 * s.cfg.nmax < l) →
      exec .wrap s = .next (refusedState .wrap .inputDataTooBig s)) ∧
    (16 ≤ l → l ≤ 2 ^ 32 - 1 → l ≤ 8 * s.cfg.nmax → l % 8 ≠ 0 →
      exec .wrap s = .next (refusedState .wrap .inputDataNotAlignedProperly s)) ∧
    (16 ≤ l → l ≤ 2 ^ 32 - 1 → l ≤ 8 * s.cfg.nmax → l % 8 = 0 → ¬(s.klen = 16 ∨ s.klen = 24 ∨ s.klen = 32) →
      exec .wrap s = .next (refusedState .wrap .invalidKeyEncryptionKey s))

/-- R116, R115: when validation passes, with n = ceil8(`LEN`), WRAPP sets `N` = n, masks the pad bytes of `BUF[n]`, and
sets `BUF[0]` to the alternative IV, the position to (0, 1) and `PH` to RUN; every other entry is unchanged. -/
def Obligations.WrappStarts : Prop :=
  ∀ (s : State) (n : Nat), Inv s → s.ph = .idle → 1 ≤ s.len.toNat → s.len.toNat ≤ 2 ^ 32 - 1 →
    n = (s.len.toNat + 7) / 8 → n ≤ s.cfg.nmax → (s.klen = 16 ∨ s.klen = 24 ∨ s.klen = 32) →
    ∃ buf : Memory, exec .wrapp s = .next (startedState .wrapp n 0 1 buf s) ∧
      buf.read 0 = (0xA65959A6 : BitVec 32) ++ s.len.extractLsb' 0 32 ∧
      (s.len.toNat % 8 ≠ 0 → buf.read n = s.buf.read n &&& padMask (s.len.toNat % 8)) ∧
      (s.len.toNat % 8 = 0 → buf.read n = s.buf.read n) ∧
      ∀ k, k ≠ 0 → k ≠ n → buf.read k = s.buf.read k

/-- R114, R152: WRAPP's early errors in their order; there is no alignment check. -/
def Obligations.WrappRefuses : Prop :=
  ∀ (s : State) (l : Nat), s.cfg.Valid → s.ph = .idle → l = s.len.toNat →
    (l < 1 → exec .wrapp s = .next (refusedState .wrapp .inputDataTooSmall s)) ∧
    (1 ≤ l → (2 ^ 32 - 1 < l ∨ s.cfg.nmax < (l + 7) / 8) →
      exec .wrapp s = .next (refusedState .wrapp .inputDataTooBig s)) ∧
    (1 ≤ l → l ≤ 2 ^ 32 - 1 → (l + 7) / 8 ≤ s.cfg.nmax → ¬(s.klen = 16 ∨ s.klen = 24 ∨ s.klen = 32) →
      exec .wrapp s = .next (refusedState .wrapp .invalidKeyEncryptionKey s))

/-- R133: when validation passes, UNWRAP sets `N` = n = `LEN`/8 − 1, the position to (5, n) and `PH` to RUN; the buffer
and everything else is unchanged but for the withdrawn result and `OP`. -/
def Obligations.UnwrapStarts : Prop :=
  ∀ (s : State) (n : Nat), s.cfg.Valid → s.ph = .idle → s.len.toNat = 8 * (n + 1) → 2 ≤ n → 8 * n ≤ 2 ^ 32 - 1 →
    n ≤ s.cfg.nmax → (s.klen = 16 ∨ s.klen = 24 ∨ s.klen = 32) →
    exec .unwrap s = .next (startedState .unwrap n 5 n s.buf s)

/-- R132, R152: UNWRAP's early errors in their order. -/
def Obligations.UnwrapRefuses : Prop :=
  ∀ (s : State) (l : Nat), s.cfg.Valid → s.ph = .idle → l = s.len.toNat →
    (l < 24 → exec .unwrap s = .next (refusedState .unwrap .inputDataTooSmall s)) ∧
    (24 ≤ l → (2 ^ 32 - 1 < l - 8 ∨ 8 * (s.cfg.nmax + 1) < l) →
      exec .unwrap s = .next (refusedState .unwrap .inputDataTooBig s)) ∧
    (24 ≤ l → l - 8 ≤ 2 ^ 32 - 1 → l ≤ 8 * (s.cfg.nmax + 1) → l % 8 ≠ 0 →
      exec .unwrap s = .next (refusedState .unwrap .inputDataNotAlignedProperly s)) ∧
    (24 ≤ l → l - 8 ≤ 2 ^ 32 - 1 → l ≤ 8 * (s.cfg.nmax + 1) → l % 8 = 0 →
      ¬(s.klen = 16 ∨ s.klen = 24 ∨ s.klen = 32) →
      exec .unwrap s = .next (refusedState .unwrap .invalidKeyEncryptionKey s))

/-- R136: when validation passes, UNWRAPP sets `N` = n = `LEN`/8 − 1, the position to (5, n) and `PH` to RUN; the buffer
and everything else is unchanged but for the withdrawn result and `OP`. -/
def Obligations.UnwrappStarts : Prop :=
  ∀ (s : State) (n : Nat), s.cfg.Valid → s.ph = .idle → s.len.toNat = 8 * (n + 1) → 1 ≤ n → n ≤ s.cfg.nmax →
    (s.klen = 16 ∨ s.klen = 24 ∨ s.klen = 32) →
    exec .unwrapp s = .next (startedState .unwrapp n 5 n s.buf s)

/-- R134, R152: UNWRAPP's early errors in their order; the buffer's capacity is the only upper bound. -/
def Obligations.UnwrappRefuses : Prop :=
  ∀ (s : State) (l : Nat), s.cfg.Valid → s.ph = .idle → l = s.len.toNat →
    (l < 16 → exec .unwrapp s = .next (refusedState .unwrapp .inputDataTooSmall s)) ∧
    (16 ≤ l → 8 * (s.cfg.nmax + 1) < l →
      exec .unwrapp s = .next (refusedState .unwrapp .inputDataTooBig s)) ∧
    (16 ≤ l → l ≤ 8 * (s.cfg.nmax + 1) → l % 8 ≠ 0 →
      exec .unwrapp s = .next (refusedState .unwrapp .inputDataNotAlignedProperly s)) ∧
    (16 ≤ l → l ≤ 8 * (s.cfg.nmax + 1) → l % 8 = 0 → ¬(s.klen = 16 ∨ s.klen = 24 ∨ s.klen = 32) →
      exec .unwrapp s = .next (refusedState .unwrapp .invalidKeyEncryptionKey s))

/-- R159, R117, R135: no codec command ever reports `Overflow`, at any legal capacity (so check 5 of R112, R114, R132 and
R134 never applies); IVALT does, for every `LEN` ≥ 2^32. -/
def Obligations.OverflowOnlyFromIvalt : Prop :=
  (∀ (s t : State) (i : Instr), s.cfg.Valid → s.ph = .idle → exec i s = .next t → t.err = some .overflow → i = .ivalt) ∧
  ∀ s : State, s.ph = .idle → 2 ^ 32 ≤ s.len.toNat → ∃ t : State, exec .ivalt s = .next t ∧ t.err = some .overflow

/-! ### The host port -/

/-- R44: while busy every write, of a command too, is ignored, and every read but of `STATUS` returns 0. What a read
returns goes to the host's record (the model's own, log entry 6). -/
def Obligations.BusyLocksTheHostOut : Prop :=
  ∀ s : State, s.ph ≠ .idle →
    (∀ (addr : Addr) (v : Word), stepWith (.host (.write addr v)) s = .next s) ∧
    (∀ i : Instr, exec i s = .next s) ∧
    (∀ addr : Addr, addr ≠ 1 →
      stepWith (.host (.read addr)) s = .next { s with replies := 0 :: s.replies }) ∧
    stepWith (.host (.read 1)) s = .next { s with replies := s.status :: s.replies }

/-- R42: what `MemRead` returns while idle, for every address, and that it changes nothing but the host's record
of what was returned (log entry 6). -/
def Obligations.MemReadMap : Prop :=
  ∀ s : State, s.ph = .idle →
    (∀ addr : Addr, stepWith (.host (.read addr)) s = .next { s with replies := memRead s addr :: s.replies }) ∧
    memRead s 1 = s.status ∧ memRead s 2 = s.len ∧ memRead s 3 = s.olen ∧ memRead s 4 = s.klen.setWidth 64 ∧
    memRead s 5 = s.n.setWidth 64 ∧ memRead s 6 = s.iva ∧ memRead s 7 = s.ivb ∧
    memRead s 0 = 0 ∧ memRead s 8 = 0 ∧ memRead s 9 = 0 ∧ memRead s 10 = 0 ∧ memRead s 11 = 0 ∧
    (∀ k, k ≤ s.cfg.nmax → s.cfg.nmax ≤ 2 ^ 29 → memRead s (BitVec.ofNat 32 (0x40000000 + k)) = s.buf.read k) ∧
    (∀ addr : Addr, 11 < addr.toNat → (addr.toNat < 0x40000000 ∨ 0x40000000 + s.cfg.nmax < addr.toNat) →
      memRead s addr = 0)

/-- R43, R44, R207: what `MemWrite` does. While idle a write to `CMD` is the accept step of the command word; a write to
any other word changes that register only, truncated to its width, or nothing if it is read-only or unmapped. While
busy no write has an effect. -/
def Obligations.MemWriteMap : Prop :=
  ∀ (s : State) (v : Word),
    (s.ph ≠ .idle → ∀ addr : Addr, stepWith (.host (.write addr v)) s = .next s) ∧
    (s.ph = .idle →
      (∀ i : Instr, decode v = .ok i → stepWith (.host (.write 0 v)) s = exec i s) ∧
      (decode v = .error .illegalCommand → stepWith (.host (.write 0 v)) s = acceptIllegal s) ∧
      stepWith (.host (.write 1 v)) s = .next s ∧
      stepWith (.host (.write 2 v)) s = .next { s with len := v } ∧
      stepWith (.host (.write 3 v)) s = .next s ∧
      stepWith (.host (.write 4 v)) s = .next { s with klen := v.extractLsb' 0 8 } ∧
      stepWith (.host (.write 5 v)) s = .next { s with n := v.extractLsb' 0 32 } ∧
      stepWith (.host (.write 6 v)) s = .next { s with iva := v } ∧
      stepWith (.host (.write 7 v)) s = .next { s with ivb := v } ∧
      stepWith (.host (.write 8 v)) s = .next { s with kek0 := v } ∧
      stepWith (.host (.write 9 v)) s = .next { s with kek1 := v } ∧
      stepWith (.host (.write 10 v)) s = .next { s with kek2 := v } ∧
      stepWith (.host (.write 11 v)) s = .next { s with kek3 := v } ∧
      (∀ k, k ≤ s.cfg.nmax → s.cfg.nmax ≤ 2 ^ 29 → s.buf.wf = true → ∃ buf : Memory,
        stepWith (.host (.write (BitVec.ofNat 32 (0x40000000 + k)) v)) s = .next { s with buf := buf } ∧
        buf.read k = v ∧ ∀ k', k' ≠ k → buf.read k' = s.buf.read k') ∧
      (∀ addr : Addr, 11 < addr.toNat → (addr.toNat < 0x40000000 ∨ 0x40000000 + s.cfg.nmax < addr.toNat) →
        stepWith (.host (.write addr v)) s = .next s))

/-- R49: a write to any address but `CMD` is idempotent: made twice, it does what it does once. -/
def Obligations.WritesAreIdempotent : Prop :=
  ∀ (s t : State) (addr : Addr) (v : Word), Inv s → addr ≠ 0 →
    stepWith (.host (.write addr v)) s = .next t → stepWith (.host (.write addr v)) t = .next t

/-- R20, R27: the layout of the `STATUS` word; bit 3 and bits 63:8 read 0. -/
def Obligations.StatusWordLayout : Prop :=
  ∀ s : State,
    (s.status.getLsbD 0 = true ↔ s.ph ≠ .idle) ∧ s.status.getLsbD 1 = s.done ∧ s.status.getLsbD 2 = s.matched ∧
    s.status.getLsbD 3 = false ∧ s.status.extractLsb' 4 4 = errCode s.err ∧ s.status.extractLsb' 8 56 = 0

/-- R66, R20: the `STATUS` word of every outcome, in every state a run can reach; codes 9 to 15 are never produced. Of a
command in flight the host sees `BUSY` alone. -/
def Obligations.StatusWordOfEachOutcome : Prop :=
  ∀ s : State, Inv s →
    (s.status.extractLsb' 4 4).toNat ≤ 8 ∧
    (s.ph ≠ .idle → s.status = 0x01) ∧
    (s.ph = .idle → s.done = false → s.status = 0x00) ∧
    (s.ph = .idle → s.done = true →
      (s.err = none → s.status = if s.matched then 0x06 else 0x02) ∧
      (s.err = some .inputDataTooSmall → s.status = 0x12) ∧
      (s.err = some .inputDataTooBig → s.status = 0x22) ∧
      (s.err = some .inputDataNotAlignedProperly → s.status = 0x32) ∧
      (s.err = some .invalidKeyEncryptionKey → s.status = 0x42) ∧
      (s.err = some .encryptionFailed → s.status = 0x52) ∧
      (s.err = some .overflow → s.status = 0x62) ∧
      (s.err = some .integrityCheckingOfInitialValueFailed → s.status = 0x72) ∧
      (s.err = some .illegalCommand → s.status = 0x82))

/-- R64, R161: an illegal word reports `IllegalCommand` at once; apart from the withdrawn result nothing changes: `OP`,
the buffer, `N`, `IVA`, `KLEN` and the KEK keep their values. -/
def Obligations.IllegalCommandKeepsEverything : Prop :=
  ∀ (s : State) (w : Word), s.ph = .idle → 8 ≤ w.toNat →
    ∃ t : State, stepWith (.host (.write 0 w)) s = .next t ∧ t.status = 0x82 ∧
      t = { s with done := true, matched := false, err := some .illegalCommand, olen := 0, cf := false }

/-! ### The RUN steps -/

/-- R118, R81, R83, R84: the wrap RUN step for `N` ≥ 2, with its request, its answer, the failure flag, both writes,
the successor of the position, and its frame.
That the requests made stand in the record `requests` is the model's choice (log entry 7). -/
def Obligations.WrapRunStep : Prop :=
  ∀ (s : State) (a : BcsAnswer) (k : Key) (x y : Block) (e t : Nat), Inv s → s.ph = .run → s.op.dir = false →
    2 ≤ s.n.toNat → s.key = some k → e = s.i.toNat → t = s.n.toNat * s.j.toNat + s.i.toNat →
    x = s.buf.read 0 ++ s.buf.read e →
    (a = .ok → y = cipherFn s.cfg.cipher .encrypt k x) → (∀ z, a = .failed z → y = z) →
    ∃ (j' : BitVec 3) (i' : BitVec 32) (ph' : Phase) (buf : Memory),
      stepWith (.engine a) s = .next { s with
        j := j', i := i', ph := ph', buf := buf, cf := s.cf || decide (a ≠ .ok),
        requests := { dir := .encrypt, key := k, x := x } :: s.requests } ∧
      buf.read 0 = y.extractLsb' 64 64 ^^^ BitVec.ofNat 64 t ∧ buf.read e = y.extractLsb' 0 64 ∧
      (∀ q, q ≠ 0 → q ≠ e → buf.read q = s.buf.read q) ∧
      (j'.toNat, i'.toNat, ph') =
        (if e < s.n.toNat then (s.j.toNat, e + 1, .run)
        else if s.j.toNat < 5 then (s.j.toNat + 1, 1, .run)
        else (s.j.toNat, e, .fin))

/-- R138, R81, R83, R84: the unwrap RUN step for `N` ≥ 2: the xor with t comes before the decryption.
That the requests made stand in the record `requests` is the model's choice (log entry 7). -/
def Obligations.UnwrapRunStep : Prop :=
  ∀ (s : State) (a : BcsAnswer) (k : Key) (x y : Block) (e t : Nat), Inv s → s.ph = .run → s.op.dir = true →
    2 ≤ s.n.toNat → s.key = some k → e = s.i.toNat → t = s.n.toNat * s.j.toNat + s.i.toNat →
    x = (s.buf.read 0 ^^^ BitVec.ofNat 64 t) ++ s.buf.read e →
    (a = .ok → y = cipherFn s.cfg.cipher .decrypt k x) → (∀ z, a = .failed z → y = z) →
    ∃ (j' : BitVec 3) (i' : BitVec 32) (ph' : Phase) (buf : Memory),
      stepWith (.engine a) s = .next { s with
        j := j', i := i', ph := ph', buf := buf, cf := s.cf || decide (a ≠ .ok),
        requests := { dir := .decrypt, key := k, x := x } :: s.requests } ∧
      buf.read 0 = y.extractLsb' 64 64 ∧ buf.read e = y.extractLsb' 0 64 ∧
      (∀ q, q ≠ 0 → q ≠ e → buf.read q = s.buf.read q) ∧
      (j'.toNat, i'.toNat, ph') =
        (if 1 < e then (s.j.toNat, e - 1, .run)
        else if 0 < s.j.toNat then (s.j.toNat - 1, s.n.toNat, .run)
        else (s.j.toNat, e, .fin))

/-- R119, R139: the one-block RUN step (`N` = 1, padded commands only) of both directions: one transaction on
`BUF[0] || BUF[1]`, no xor with t, the position unchanged, then FIN.
That the requests made stand in the record `requests` is the model's choice (log entry 7). -/
def Obligations.OneBlockRunStep : Prop :=
  ∀ (s : State) (a : BcsAnswer) (k : Key) (d : Dir) (x y : Block), Inv s → s.ph = .run → s.n.toNat = 1 →
    (s.op = .wrapp ∧ d = .encrypt ∨ s.op = .unwrapp ∧ d = .decrypt) → s.key = some k →
    x = s.buf.read 0 ++ s.buf.read 1 →
    (a = .ok → y = cipherFn s.cfg.cipher d k x) → (∀ z, a = .failed z → y = z) →
    ∃ buf : Memory,
      stepWith (.engine a) s = .next { s with
        ph := .fin, buf := buf, cf := s.cf || decide (a ≠ .ok), requests := { dir := d, key := k, x := x } :: s.requests } ∧
      buf.read 0 = y.extractLsb' 64 64 ∧ buf.read 1 = y.extractLsb' 0 64 ∧
      ∀ q, 2 ≤ q → buf.read q = s.buf.read q

/-! ### The FIN steps -/

/-- R120, R153: the wrap FIN step; `EncryptionFailed` is its only late error. -/
def Obligations.WrapFinStep : Prop :=
  ∀ (s : State) (a : BcsAnswer), Inv s → s.ph = .fin → s.op.dir = false →
    (s.cf = false →
      stepWith (.engine a) s = .next (finishedState none (BitVec.ofNat 64 (8 * (s.n.toNat + 1))) s.buf s)) ∧
    (s.cf = true → ∃ buf : Memory, ClearedTo s.n.toNat s.buf buf ∧
      stepWith (.engine a) s = .next (finishedState (some .encryptionFailed) 0 buf s))

/-- R140, R153, R155: the UNWRAP FIN step; a failed transaction is tested before the recovered IV. -/
def Obligations.UnwrapFinStep : Prop :=
  ∀ (s : State) (a : BcsAnswer), Inv s → s.ph = .fin → s.op = .unwrap →
    (s.cf = true → ∃ buf : Memory, ClearedTo s.n.toNat s.buf buf ∧
      stepWith (.engine a) s = .next (finishedState (some .encryptionFailed) 0 buf s)) ∧
    (s.cf = false → s.buf.read 0 ≠ 0xA6A6A6A6A6A6A6A6 → ∃ buf : Memory, ClearedTo s.n.toNat s.buf buf ∧
      stepWith (.engine a) s = .next (finishedState (some .integrityCheckingOfInitialValueFailed) 0 buf s)) ∧
    (s.cf = false → s.buf.read 0 = 0xA6A6A6A6A6A6A6A6 →
      stepWith (.engine a) s = .next (finishedState none (BitVec.ofNat 64 (8 * s.n.toNat)) s.buf s))

/-- R141, R137, R153, R155: the UNWRAPP FIN step; the three integrity conditions lead to one kind. -/
def Obligations.UnwrappFinStep : Prop :=
  ∀ (s : State) (a : BcsAnswer) (m n : Nat), Inv s → s.ph = .fin → s.op = .unwrapp → n = s.n.toNat →
    m = ((s.buf.read 0).extractLsb' 0 32).toNat →
    (s.cf = true → ∃ buf : Memory, ClearedTo n s.buf buf ∧
      stepWith (.engine a) s = .next (finishedState (some .encryptionFailed) 0 buf s)) ∧
    (s.cf = false →
      ¬((s.buf.read 0).extractLsb' 32 32 = 0xA65959A6 ∧ 8 * n ≤ m + 7 ∧ m ≤ 8 * n ∧
        ∀ q, m ≤ q → q < 8 * n → s.buf.byteAt 1 q = 0) →
      ∃ buf : Memory, ClearedTo n s.buf buf ∧
        stepWith (.engine a) s = .next (finishedState (some .integrityCheckingOfInitialValueFailed) 0 buf s)) ∧
    (s.cf = false → (s.buf.read 0).extractLsb' 32 32 = 0xA65959A6 → 8 * n ≤ m + 7 → m ≤ 8 * n →
      (∀ q, m ≤ q → q < 8 * n → s.buf.byteAt 1 q = 0) →
      stepWith (.engine a) s = .next (finishedState none (BitVec.ofNat 64 m) s.buf s))

/-! ### Reset -/

/-- R29: every piece of state at its reset value, in the state the model starts from. The capacity and the cipher of
that state, its empty agenda and its empty records are the model's choices (log entries 1, 2, 4, 6, 7). -/
def Obligations.ResetValues : Prop :=
  State.reset.ph = .idle ∧ State.reset.op.opcode = 0 ∧ State.reset.j = 0 ∧ State.reset.i = 0 ∧ State.reset.cf = false ∧
  State.reset.status = 0 ∧ State.reset.done = false ∧ State.reset.matched = false ∧ State.reset.err = none ∧
  State.reset.len = 0 ∧ State.reset.olen = 0 ∧ State.reset.klen = 0 ∧ State.reset.n = 0 ∧
  State.reset.iva = 0 ∧ State.reset.ivb = 0 ∧
  State.reset.kek0 = 0 ∧ State.reset.kek1 = 0 ∧ State.reset.kek2 = 0 ∧ State.reset.kek3 = 0 ∧
  ∀ k, State.reset.buf.read k = 0

/-- R180, R181: a reset step, in any state and any phase, puts every piece of KWE's state at its reset value. That the
configuration, the agenda and the two records, which are not KWE's state, stay is the model's choice (log entry 15). -/
def Obligations.ResetStepClearsEverything : Prop :=
  ∀ s : State, ∃ t : State, stepWith .reset s = .next t ∧ t.status = 0 ∧
    t = { cfg := s.cfg, ph := .idle, op := .wrap, j := 0, i := 0, cf := false, done := false, matched := false,
          err := none, len := 0, olen := 0, klen := 0, n := 0, iva := 0, ivb := 0, kek0 := 0, kek1 := 0, kek2 := 0,
          kek3 := 0, buf := [], agenda := s.agenda, replies := s.replies, requests := s.requests }

/-- R182, R152: straight after reset the engine does nothing until the host writes `CMD` (an engine event while idle has
no effect: log entry 16). A codec command whose `LEN` is valid (with a key it would start) fails with
`InvalidKeyEncryptionKey` and makes no transaction, which is seen in the model's own record of the port (log entry 7);
the four IV unit commands work at once. -/
def Obligations.CommandsStraightAfterReset : Prop :=
  ∀ c : Config, c.Valid →
    (State.resetWith c).ph = .idle ∧
    (∀ a : BcsAnswer, stepWith (.engine a) (State.resetWith c) = .next (State.resetWith c)) ∧
    (∀ (i : Instr) (l : Word) (u : State), i.isCodec = true →
      exec i { State.resetWith c with len := l, klen := 16 } = .next u → u.ph = .run →
      ∃ t : State, exec i { State.resetWith c with len := l } = .next t ∧ t.status = 0x42 ∧ t.requests = []) ∧
    (∃ t : State, exec .ivchk (State.resetWith c) = .next t ∧ t.status = 0x06) ∧
    (∃ t : State, exec .aivchk (State.resetWith c) = .next t ∧ t.status = 0x02) ∧
    (∃ t : State, exec .ivdef (State.resetWith c) = .next t ∧ t.iva = 0xA6A6A6A6A6A6A6A6 ∧ t.status = 0x02) ∧
    ∃ t : State, exec .ivalt (State.resetWith c) = .next t ∧ t.iva = 0xA65959A600000000 ∧ t.status = 0x02

/-! ### Invariants and the whole machine -/

/-- The invariant holds right after reset, at every legal capacity and with every cipher (R206, R29, R6). -/
def Obligations.InvariantHoldsAtReset : Prop :=
  ∀ c : Config, c.Valid → Inv (State.resetWith c)

/-- R206: every step keeps the invariant: the position stays legal, only a codec command is ever in flight, the
buffer keeps its canonical form and its bound, and a result is reported only as R20, R23, R66 and R156 allow. -/
def Obligations.EveryStepKeepsTheInvariant : Prop :=
  ∀ s t : State, Inv s → step s = .next t → Inv t

/-- R206, R163: from every state that meets the invariant, a step of whichever agent answers a next state; and no step
changes the parameters of R11. -/
def Obligations.NoReachableStepStops : Prop :=
  ∀ s : State, Inv s → ∃ t : State, step s = .next t ∧ t.cfg = s.cfg

/-- R206, R209, R181: the only way out of IDLE is a write of 0, 1, 2 or 3 to `CMD`, and it leads to RUN; the only ways
back to IDLE are a FIN step and a reset. -/
def Obligations.OnlyTheseEventsChangeBusy : Prop :=
  ∀ s t : State, step s = .next t →
    (s.ph = .idle → t.ph ≠ .idle →
      t.ph = .run ∧ ∃ (w : Word) (rest : List Event), s.agenda = .host (.write 0 w) :: rest ∧ w.toNat ≤ 3) ∧
    (s.ph ≠ .idle → t.ph = .idle →
      (∃ rest : List Event, s.agenda = .reset :: rest) ∨
      s.ph = .fin ∧ (s.agenda = [] ∨ ∃ (a : BcsAnswer) (rest : List Event), s.agenda = .engine a :: rest))

/-- R17, R201, R68, R205. In the chaining rounds 1 ≤ t ≤ 6·N < 2^32, so t never wraps and its xor touches only the low
half of A. Each RUN step moves t by one, up in a wrap and down in an unwrap; the step at t = 6·N (t = 1) is the last. -/
def Obligations.StepCounterCountsTheRounds : Prop :=
  ∀ s : State, Inv s → s.ph = .run → 2 ≤ s.n.toNat →
    1 ≤ s.t ∧ s.t ≤ 6 * s.n.toNat ∧ s.t < 2 ^ 32 ∧ (be64 s.t).toNat = s.t ∧
    (∀ a : Word, (a ^^^ be64 s.t).extractLsb' 32 32 = a.extractLsb' 32 32) ∧
    ∀ (u : State) (a : BcsAnswer), stepWith (.engine a) s = .next u →
      (s.op.dir = false → if s.t = 6 * s.n.toNat then u.ph = .fin else u.ph = .run ∧ u.t = s.t + 1) ∧
      (s.op.dir = true → if s.t = 1 then u.ph = .fin else u.ph = .run ∧ u.t + 1 = s.t)

/-- R191, R44: a command in flight ends after exactly its remaining RUN steps and one FIN step, whatever host accesses
come in between and whatever the cipher service answers. -/
def Obligations.CommandsTerminate : Prop :=
  ∀ (s : State) (pre : List Event) (a : BcsAnswer), Inv s → s.ph = .run → (∀ e ∈ pre, e.noReset = true) →
    engineCount pre = remainingRuns s →
    (∃ u : State, runAgenda { s with agenda := pre } = .next u ∧ u.ph = .fin) ∧
    ∃ t : State, runAgenda { s with agenda := pre ++ [.engine a] } = .next t ∧ t.ph = .idle ∧ t.done = true

/-- R85, R84, R57, R192: a codec command that passes validation makes exactly 6·N transactions (1 when N = 1), all with
the key it was given and all in its direction, whatever the answers; the data do not matter. No accept step, of any
command, makes one. -/
def Obligations.TransactionsAreCounted : Prop :=
  (∀ (s t : State) (i : Instr), exec i s = .next t → t.requests = s.requests) ∧
  ∀ (s u : State) (i : Instr) (k : Key) (pre : List Event) (a : BcsAnswer), Inv s → s.ph = .idle → i.isCodec = true →
    s.key = some k → exec i s = .next u → u.ph = .run → RunSchedule u.n.toNat pre →
    ∃ (t : State) (rs : List BcsRequest), commandRun i pre a s = .next t ∧ t.requests = rs ++ s.requests ∧
      rs.length = runSteps u.n.toNat ∧
      ∀ r ∈ rs, r.key = k ∧ r.dir = if i.dir then .decrypt else .encrypt

/-- R83, R153, R155: a failed transaction anywhere in a command surfaces as `EncryptionFailed` after all its RUN steps,
and only a failed one does; the buffer up to N then reads zero and the rest of it is kept. -/
def Obligations.AnyFailureSurfaces : Prop :=
  ∀ (s u : State) (i : Instr) (pre : List Event) (a : BcsAnswer), Inv s → s.ph = .idle → i.isCodec = true →
    exec i s = .next u → u.ph = .run → RunSchedule u.n.toNat pre →
    ∃ t : State, commandRun i pre a s = .next t ∧ t.ph = .idle ∧
      (t.err = some .encryptionFailed ↔ ∃ e ∈ pre, e.okAnswer = false) ∧
      (t.err = some .encryptionFailed → t.status = 0x52 ∧ t.olen = 0 ∧ ClearedTo u.n.toNat s.buf t.buf)

/-! ### The key and the operands -/

/-- R14, R152, R185. The key outlives no codec command: after an early error, and after any step from busy to idle, the KEK
and `KLEN` are zero. The IV unit's commands leave them alone, and a codec command that starts keeps them while it is
busy. Nothing is said here of host writes and illegal words (MemWriteMap, IllegalCommandKeepsEverything). -/
def Obligations.KeyOutlivesNoCodecCommand : Prop :=
  ∀ s t : State,
    (∀ i : Instr, i.isCodec = true → s.ph = .idle → exec i s = .next t → t.ph = .idle →
      t.kek0 = 0 ∧ t.kek1 = 0 ∧ t.kek2 = 0 ∧ t.kek3 = 0 ∧ t.klen = 0) ∧
    (step s = .next t → s.ph ≠ .idle → t.ph = .idle →
      t.kek0 = 0 ∧ t.kek1 = 0 ∧ t.kek2 = 0 ∧ t.kek3 = 0 ∧ t.klen = 0) ∧
    (∀ i : Instr, exec i s = .next t → i.isCodec = false ∨ t.ph ≠ .idle →
      t.kek0 = s.kek0 ∧ t.kek1 = s.kek1 ∧ t.kek2 = s.kek2 ∧ t.kek3 = s.kek3 ∧ t.klen = s.klen) ∧
    (∀ a : BcsAnswer, stepWith (.engine a) s = .next t → t.ph ≠ .idle →
      t.kek0 = s.kek0 ∧ t.kek1 = s.kek1 ∧ t.kek2 = s.kek2 ∧ t.kek3 = s.kek3 ∧ t.klen = s.klen)

/-- R14, R27, R165: the KEK cannot be read back. Two machines that differ in the KEK alone stay so, and return the
same values to the host, through every step that is no cipher transaction. -/
def Obligations.KekDoesNotLeakOutsideTheCipher : Prop :=
  ∀ s t s' : State, SameButKek s t → s.ph ≠ .run → step s = .next s' →
    ∃ t' : State, step t = .next t' ∧ SameButKek s' t' ∧ s'.replies = t'.replies

/-- R22, R25, R26, R98, R206: a step of the engine leaves `LEN`, `IVB`, `IVA`, `N` and `OP`. The accept step of any command
leaves `LEN` and `IVB`, and that of a codec command `IVA` too. -/
def Obligations.EngineStepsKeepLenIvbIvaNOp : Prop :=
  ∀ s t : State,
    (∀ i : Instr, exec i s = .next t → t.len = s.len ∧ t.ivb = s.ivb ∧ (i.isCodec = true → t.iva = s.iva)) ∧
    (∀ a : BcsAnswer, stepWith (.engine a) s = .next t →
      t.len = s.len ∧ t.ivb = s.ivb ∧ t.iva = s.iva ∧ t.n = s.n ∧ t.op = s.op)

/-- R13, R208: the engine writes no entry of the buffer above N; the commands of the IV unit write none, and an early
error writes none. -/
def Obligations.EntriesAboveNAreKept : Prop :=
  ∀ s t : State, Inv s →
    (∀ a : BcsAnswer, stepWith (.engine a) s = .next t → ∀ k, s.n.toNat < k → t.buf.read k = s.buf.read k) ∧
    (∀ i : Instr, exec i s = .next t → ∀ k, t.n.toNat < k → t.buf.read k = s.buf.read k) ∧
    (∀ i : Instr, s.ph = .idle → exec i s = .next t → t.ph = .idle → t.buf = s.buf)

/-! ### What the commands compute -/

/-- R70, R115, R137: ANDing with `PadMask(r)` keeps the r most significant bytes and clears the others; `PadZero(S, b)`
says that the b least significant bytes of S are zero. -/
def Obligations.PadOperationsByteByByte : Prop :=
  (∀ (w : Word) (r k : Nat), 1 ≤ r → r ≤ 7 → k < 8 → byteOf (w &&& padMask r) k = if k < r then byteOf w k else 0) ∧
  ∀ (w : Word) (b : Nat), b ≤ 7 → (padZero w b = true ↔ ∀ k, 8 ≤ k + b → k < 8 → byteOf w k = 0)

/-- R87: with MOCKSWAP each step can be followed by hand. A wrap step gives A = R[i] xor Kh xor t and R[i] = A xor Kl; an
unwrap step gives A = R[i] xor Kl and R[i] = A xor t xor Kh. -/
def Obligations.MockswapSteps : Prop :=
  ∀ (s : State) (k : Key) (e t : Nat), Inv s → s.ph = .run → 2 ≤ s.n.toNat → s.cfg.cipher = .mockswap →
    s.key = some k → e = s.i.toNat → t = s.n.toNat * s.j.toNat + s.i.toNat →
    ∃ u : State, stepWith (.engine .ok) s = .next u ∧ u.cf = s.cf ∧
      (s.op.dir = false → u.buf.read 0 = s.buf.read e ^^^ keyHigh k ^^^ BitVec.ofNat 64 t ∧
        u.buf.read e = s.buf.read 0 ^^^ keyLow k) ∧
      (s.op.dir = true → u.buf.read 0 = s.buf.read e ^^^ keyLow k ∧
        u.buf.read e = s.buf.read 0 ^^^ BitVec.ofNat 64 t ^^^ keyHigh k)

/-- R205, R110, R130: the unwrap rounds undo the wrap rounds, whenever decryption undoes encryption. -/
def Obligations.UnwrapCoreUndoesWrapCore : Prop :=
  ∀ (enc dec : Block → Block), (∀ x, dec (enc x) = x) → ∀ (iv : Word) (r : List Word),
    unwrapCore dec (wrapCore enc iv r).1 (wrapCore enc iv r).2 = (iv, r)

/-- R142 (b), R111, R131: the round trip of the reference functions, unpadded and padded. -/
def Obligations.ReferenceRoundTrip : Prop :=
  ∀ (enc dec : Block → Block), (∀ x, dec (enc x) = x) → ∀ p : List Byte,
    (16 ≤ p.length → p.length % 8 = 0 → unwrapRef dec (wrapRef enc p) = some p) ∧
    (1 ≤ p.length → p.length ≤ 2 ^ 32 - 1 → unwrapPadRef dec (wrapPadRef enc p) = some p)

/-- R121 for WRAP: from an idle machine that holds the key and the plaintext, the command, its RUN steps and its FIN
step, with any host accesses in between, leave `WrapRef(K, P)` in `BUF[0..N]`, its length in `OLEN` and `STATUS` = 2. -/
def Obligations.WrapAgreesWithReference : Prop :=
  ∀ (s : State) (k : Key) (p : List Byte) (pre : List Event) (a : BcsAnswer), Inv s → s.ph = .idle → s.key = some k →
    s.len = be64 p.length → HoldsBytes s.buf 1 p →
    16 ≤ p.length → p.length ≤ 2 ^ 32 - 1 → p.length ≤ 8 * s.cfg.nmax → p.length % 8 = 0 →
    RunSchedule (p.length / 8) pre → AllOk pre →
    ∃ t : State, commandRun .wrap pre a s = .next t ∧ t.ph = .idle ∧ t.status = 0x02 ∧
      HoldsSemiblocks t.buf (wrapRef (cipherFn s.cfg.cipher .encrypt k) p) ∧
      (wrapRef (cipherFn s.cfg.cipher .encrypt k) p).length = p.length / 8 + 1 ∧
      t.olen = be64 (8 * (p.length / 8 + 1)) ∧ t.n.toNat = p.length / 8 ∧
      ∀ q, p.length / 8 < q → t.buf.read q = s.buf.read q

/-- R121 for WRAPP: the same with `WrapPadRef(K, P)`, for every length from 1 byte, the one-block path among them. What
the host left in the pad positions does not matter. -/
def Obligations.WrappAgreesWithReference : Prop :=
  ∀ (s : State) (k : Key) (p : List Byte) (pre : List Event) (a : BcsAnswer) (n : Nat), Inv s → s.ph = .idle →
    s.key = some k → s.len = be64 p.length → HoldsBytes s.buf 1 p →
    1 ≤ p.length → p.length ≤ 2 ^ 32 - 1 → n = (p.length + 7) / 8 → n ≤ s.cfg.nmax →
    RunSchedule n pre → AllOk pre →
    ∃ t : State, commandRun .wrapp pre a s = .next t ∧ t.ph = .idle ∧ t.status = 0x02 ∧
      HoldsSemiblocks t.buf (wrapPadRef (cipherFn s.cfg.cipher .encrypt k) p) ∧
      (wrapPadRef (cipherFn s.cfg.cipher .encrypt k) p).length = n + 1 ∧
      t.olen = be64 (8 * (n + 1)) ∧ t.n.toNat = n ∧ ∀ q, n < q → t.buf.read q = s.buf.read q

/-- R142 (a) for UNWRAP: the run ends as `UnwrapRef(K, C)` prescribes: the plaintext from `BUF[1]` on with `OLEN` its
length, or the integrity error with `BUF[0..N]` cleared. -/
def Obligations.UnwrapAgreesWithReference : Prop :=
  ∀ (s : State) (k : Key) (c : List Word) (pre : List Event) (a : BcsAnswer) (n : Nat), Inv s → s.ph = .idle →
    s.key = some k → c.length = n + 1 → s.len = be64 (8 * (n + 1)) → HoldsSemiblocks s.buf c →
    2 ≤ n → 8 * n ≤ 2 ^ 32 - 1 → n ≤ s.cfg.nmax → RunSchedule n pre → AllOk pre →
    ∃ t : State, commandRun .unwrap pre a s = .next t ∧ t.ph = .idle ∧
      match unwrapRef (cipherFn s.cfg.cipher .decrypt k) c with
      | some p => t.status = 0x02 ∧ t.olen = be64 p.length ∧ p.length = 8 * n ∧ HoldsBytes t.buf 1 p ∧
          t.buf.read 0 = defaultIV ∧ ∀ q, n < q → t.buf.read q = s.buf.read q
      | none => t.status = 0x72 ∧ t.olen = 0 ∧ ClearedTo n s.buf t.buf

/-- R142 (a) for UNWRAPP: the run ends as `UnwrapPadRef(K, C)` prescribes, the one-block path among the cases; after
the plaintext the rest of `BUF[N]` is zero. -/
def Obligations.UnwrappAgreesWithReference : Prop :=
  ∀ (s : State) (k : Key) (c : List Word) (pre : List Event) (a : BcsAnswer) (n : Nat), Inv s → s.ph = .idle →
    s.key = some k → c.length = n + 1 → s.len = be64 (8 * (n + 1)) → HoldsSemiblocks s.buf c →
    1 ≤ n → n ≤ s.cfg.nmax → RunSchedule n pre → AllOk pre →
    ∃ t : State, commandRun .unwrapp pre a s = .next t ∧ t.ph = .idle ∧
      match unwrapPadRef (cipherFn s.cfg.cipher .decrypt k) c with
      | some p => t.status = 0x02 ∧ t.olen = be64 p.length ∧ 8 * n ≤ p.length + 7 ∧ p.length ≤ 8 * n ∧
          HoldsBytes t.buf 1 p ∧ (∀ q, p.length ≤ q → q < 8 * n → t.buf.byteAt 1 q = 0) ∧
          t.buf.read 0 = aivOf p.length ∧ ∀ q, n < q → t.buf.read q = s.buf.read q
      | none => t.status = 0x72 ∧ t.olen = 0 ∧ ClearedTo n s.buf t.buf

/-- R142 (b) on the machine, unpadded: a successful WRAP, then the same KEK reloaded, `LEN` set to the `OLEN` read, and
UNWRAP, gives back the plaintext, under BCS_INV and with no cipher failure. -/
def Obligations.MachineRoundTrip : Prop :=
  ∀ (s : State) (k : Key) (pre pre' : List Event) (a a' : BcsAnswer) (n : Nat), Inv s → s.ph = .idle → s.key = some k →
    BcsInv s.cfg.cipher → s.len.toNat = 8 * n → 2 ≤ n → 8 * n ≤ 2 ^ 32 - 1 → n ≤ s.cfg.nmax →
    RunSchedule n pre → AllOk pre → RunSchedule n pre' → AllOk pre' →
    ∃ t u : State, commandRun .wrap pre a s = .next t ∧ t.status = 0x02 ∧
      commandRun .unwrap pre' a' { t with
        klen := s.klen, kek0 := s.kek0, kek1 := s.kek1, kek2 := s.kek2, kek3 := s.kek3, len := t.olen } = .next u ∧
      u.status = 0x02 ∧ u.olen = s.len ∧ ∀ q, 1 ≤ q → q ≤ n → u.buf.read q = s.buf.read q

/-- R142 (b) on the machine, padded: a successful WRAPP, then UNWRAPP in the same way, gives back the plaintext's bytes
with `OLEN` the original `LEN` and the pad bytes zero. -/
def Obligations.MachineRoundTripPadded : Prop :=
  ∀ (s : State) (k : Key) (pre pre' : List Event) (a a' : BcsAnswer) (n : Nat), Inv s → s.ph = .idle → s.key = some k →
    BcsInv s.cfg.cipher → 1 ≤ s.len.toNat → s.len.toNat ≤ 2 ^ 32 - 1 → n = (s.len.toNat + 7) / 8 → n ≤ s.cfg.nmax →
    RunSchedule n pre → AllOk pre → RunSchedule n pre' → AllOk pre' →
    ∃ t u : State, commandRun .wrapp pre a s = .next t ∧ t.status = 0x02 ∧
      commandRun .unwrapp pre' a' { t with
        klen := s.klen, kek0 := s.kek0, kek1 := s.kek1, kek2 := s.kek2, kek3 := s.kek3, len := t.olen } = .next u ∧
      u.status = 0x02 ∧ u.olen = s.len ∧
      (∀ q, q < s.len.toNat → u.buf.byteAt 1 q = s.buf.byteAt 1 q) ∧
      ∀ q, s.len.toNat ≤ q → q < 8 * n → u.buf.byteAt 1 q = 0

/-! ### The host's notation and the buffer -/

/-- R71, R14, R84: `LOADKEY` changes the KEK and `KLEN` only, and `KEY`, the key presented to the cipher, is then byte for
byte the key that was loaded. -/
def Obligations.LoadKeyLoadsTheKey : Prop :=
  ∀ (s : State) (kb : List Byte), s.ph = .idle → (kb.length = 16 ∨ kb.length = 24 ∨ kb.length = 32) →
    ∃ (t : State) (k : Key), runAgenda { s with agenda := loadKey kb } = .next t ∧
      t = { s with agenda := [], klen := t.klen, kek0 := t.kek0, kek1 := t.kek1, kek2 := t.kek2, kek3 := t.kek3 } ∧
      t.klen.toNat = kb.length ∧ t.key = some k ∧ keyBytes k = kb.length ∧
      ∀ p, p < kb.length → keyByte k p = kb.getD p 0

/-- R71, R45, R46: `LOADPT` leaves the plaintext from `BUF[1]` on, the first byte most significant, and its length in
`LEN`, and touches nothing else. -/
def Obligations.LoadPtPlacesThePlaintext : Prop :=
  ∀ (s : State) (p : List Byte), Inv s → s.ph = .idle → p.length ≤ 8 * s.cfg.nmax →
    ∃ (t : State) (buf : Memory), runAgenda { s with agenda := loadPt p } = .next t ∧
      t = { s with agenda := [], len := be64 p.length, buf := buf } ∧ HoldsBytes buf 1 p ∧
      buf.read 0 = s.buf.read 0 ∧ ∀ q, ceil8 p.length < q → buf.read q = s.buf.read q

/-- The buffer's canonical form (log entry 8): equal contents are equal data, and a read after a write gives the
value written there and the old value everywhere else (R12). -/
def Obligations.BufferIsCanonical : Prop :=
  ∀ m m' : Memory, m.wf = true → m'.wf = true →
    ((∀ k, m.read k = m'.read k) → m = m') ∧
    ∀ (k : Nat) (v : Word), (m.write k v).wf = true ∧ (m.write k v).read k = v ∧
      ∀ k', k' ≠ k → (m.write k v).read k' = m.read k'
end

