-- ==== Sys2Proof/Laws/Memory.lean ====
section
/-! SUPPORT. The laws of the buffer: reads after writes, and that every operation keeps the canonical form and the
bound on the entries. -/

namespace Sys2Proof.Machine

@[simp] theorem Memory.read_nil (k : Nat) : Memory.read [] k = 0 := rfl

theorem Memory.read_cons (a : Nat) (v : Word) (m : Memory) (k : Nat) :
    Memory.read ((a, v) :: m) k = if k = a then v else Memory.read m k := rfl

/-- The canonical form, one pair at a time. -/
theorem Memory.wfFrom_cons (lo a : Nat) (v : Word) (m : Memory) :
    Memory.wfFrom lo ((a, v) :: m) = true ↔ lo ≤ a ∧ v ≠ 0 ∧ Memory.wfFrom (a + 1) m = true := by
  simp [Memory.wfFrom, Memory.unlisted, and_assoc]

theorem Memory.wfFrom_mono {lo lo' : Nat} {m : Memory} (h : lo' ≤ lo) (hm : Memory.wfFrom lo m = true) :
    Memory.wfFrom lo' m = true := by
  cases m with
  | nil => rfl
  | cons c m =>
    obtain ⟨a, v⟩ := c
    rw [Memory.wfFrom_cons] at hm ⊢
    exact ⟨h.trans hm.1, hm.2⟩

/-- Below its first index a canonical buffer lists nothing. -/
theorem Memory.read_below {lo k : Nat} {m : Memory} (hm : Memory.wfFrom lo m = true) (h : k < lo) :
    m.read k = 0 := by
  induction m generalizing lo with
  | nil => rfl
  | cons c m ih =>
    obtain ⟨a, v⟩ := c
    rw [Memory.wfFrom_cons] at hm
    rw [Memory.read_cons, if_neg (by omega)]
    exact ih hm.2.2 (by omega)

theorem Memory.read_write_from {lo : Nat} {m : Memory} (hm : Memory.wfFrom lo m = true) (k k' : Nat) (v : Word) :
    (m.write k v).read k' = if k' = k then v else m.read k' := by
  induction m generalizing lo with
  | nil =>
    rw [Memory.write]
    split
    · next h => simp [h, Memory.unlisted]
    · simp [Memory.read_cons]
  | cons c m ih =>
    obtain ⟨a, w⟩ := c
    have hm' := (Memory.wfFrom_cons ..).1 hm
    rw [Memory.write]
    split
    · split
      · next h hv =>
        split
        · next hk =>
          rw [hk, hv]
          exact Memory.read_below (lo := a) (Memory.wfFrom_mono (le_refl a) ((Memory.wfFrom_cons ..).2 ⟨le_refl a, hm'.2⟩)) h
        · rfl
      · rw [Memory.read_cons]
    · split
      · next hk =>
        subst hk
        split
        · next hv =>
          rw [Memory.read_cons]
          split
          · next hk =>
            rw [hk, hv]
            exact Memory.read_below hm'.2.2 (by omega)
          · rfl
        · rw [Memory.read_cons, Memory.read_cons]
          split <;> rfl
      · rw [Memory.read_cons, Memory.read_cons, ih hm'.2.2]
        split
        · rw [if_neg (by omega)]
        · rfl

/-- A read after a write: the value written at that entry, the old value everywhere else. -/
theorem Memory.read_write {m : Memory} (hm : m.wf = true) (k k' : Nat) (v : Word) :
    (m.write k v).read k' = if k' = k then v else m.read k' := Memory.read_write_from hm k k' v

theorem Memory.wfFrom_write {lo : Nat} {m : Memory} (hm : Memory.wfFrom lo m = true) {k : Nat} (v : Word)
    (hk : lo ≤ k) : Memory.wfFrom lo (m.write k v) = true := by
  induction m generalizing lo with
  | nil =>
    rw [Memory.write]
    split
    · rfl
    · next hv => exact (Memory.wfFrom_cons ..).2 ⟨hk, hv, rfl⟩
  | cons c m ih =>
    obtain ⟨a, w⟩ := c
    have hm' := (Memory.wfFrom_cons ..).1 hm
    rw [Memory.write]
    split
    · split
      · exact hm
      · next hv => exact (Memory.wfFrom_cons ..).2 ⟨hk, hv, (Memory.wfFrom_cons ..).2 ⟨by omega, hm'.2⟩⟩
    · split
      · next hk' =>
        subst hk'
        split
        · exact Memory.wfFrom_mono (by omega) hm'.2.2
        · next hv => exact (Memory.wfFrom_cons ..).2 ⟨hk, hv, hm'.2.2⟩
      · exact (Memory.wfFrom_cons ..).2 ⟨hm'.1, hm'.2.1, ih hm'.2.2 (by omega)⟩

/-- A write keeps the canonical form. -/
theorem Memory.wf_write {m : Memory} (hm : m.wf = true) (k : Nat) (v : Word) : (m.write k v).wf = true :=
  Memory.wfFrom_write hm v (Nat.zero_le k)

/-- A write within the bound keeps every entry within it. -/
theorem Memory.bound_write {b k : Nat} {m : Memory} (hm : ∀ c ∈ m, c.1 ≤ b) (hk : k ≤ b) (v : Word) :
    ∀ c ∈ m.write k v, c.1 ≤ b := by
  induction m with
  | nil =>
    simp only [Memory.write]
    split <;> simp [hk]
  | cons c m ih =>
    obtain ⟨a, w⟩ := c
    have hm' : a ≤ b ∧ ∀ c ∈ m, c.1 ≤ b := by simpa using hm
    simp only [Memory.write]
    split
    · split
      · exact hm
      · exact List.forall_mem_cons.2 ⟨hk, hm⟩
    · split
      · split
        · exact hm'.2
        · exact List.forall_mem_cons.2 ⟨hk, hm'.2⟩
      · exact List.forall_mem_cons.2 ⟨hm'.1, ih hm'.2⟩

theorem Memory.clearTo_cons (a : Nat) (v : Word) (m : Memory) (n : Nat) :
    Memory.clearTo ((a, v) :: m) n = if n < a then (a, v) :: m.clearTo n else m.clearTo n := by
  by_cases h : n < a <;> simp [Memory.clearTo, h]

/-- Clearing: entries 0 to n read as zero, every other entry is kept. -/
theorem Memory.read_clearTo (m : Memory) (n k : Nat) :
    (m.clearTo n).read k = if k ≤ n then 0 else m.read k := by
  induction m with
  | nil => simp [Memory.clearTo]
  | cons c m ih =>
    obtain ⟨a, v⟩ := c
    rw [Memory.clearTo_cons, Memory.read_cons]
    split
    · rw [Memory.read_cons, ih]
      split
      · rw [if_neg (by omega)]
      · rfl
    · rw [ih]
      split
      · rfl
      · rw [if_neg (by omega)]

theorem Memory.wfFrom_clearTo {lo : Nat} {m : Memory} (hm : Memory.wfFrom lo m = true) (n : Nat) :
    Memory.wfFrom lo (m.clearTo n) = true := by
  induction m generalizing lo with
  | nil => rfl
  | cons c m ih =>
    obtain ⟨a, v⟩ := c
    have hm' := (Memory.wfFrom_cons ..).1 hm
    rw [Memory.clearTo_cons]
    split
    · exact (Memory.wfFrom_cons ..).2 ⟨hm'.1, hm'.2.1, ih hm'.2.2⟩
    · exact Memory.wfFrom_mono (by omega) (ih hm'.2.2)

/-- Clearing keeps the canonical form. -/
theorem Memory.wf_clearTo {m : Memory} (hm : m.wf = true) (n : Nat) : (m.clearTo n).wf = true :=
  Memory.wfFrom_clearTo hm n

/-- Clearing keeps every entry within the bound. -/
theorem Memory.bound_clearTo {b : Nat} {m : Memory} (hm : ∀ c ∈ m, c.1 ≤ b) (n : Nat) :
    ∀ c ∈ m.clearTo n, c.1 ≤ b := fun c hc => hm c (List.mem_of_mem_filter hc)

/-- Masking the pad bytes keeps the canonical form. -/
theorem wf_padEntry {m : Memory} (hm : m.wf = true) (n l : Nat) : (padEntry m n l).wf = true := by
  unfold padEntry
  split
  · exact hm
  · exact Memory.wf_write hm ..

/-- Masking the pad bytes of entry n keeps every entry within a bound that n meets. -/
theorem bound_padEntry {b n : Nat} {m : Memory} (hm : ∀ c ∈ m, c.1 ≤ b) (hn : n ≤ b) (l : Nat) :
    ∀ c ∈ padEntry m n l, c.1 ≤ b := by
  unfold padEntry
  split
  · exact hm
  · exact Memory.bound_write hm hn _

/-- The padding of WRAPP touches entry n only. -/
theorem read_padEntry {m : Memory} (hm : m.wf = true) (n l k : Nat) :
    (padEntry m n l).read k = if l % 8 ≠ 0 ∧ k = n then m.read n &&& padMask (l % 8) else m.read k := by
  unfold padEntry
  split
  · rw [if_neg (by omega)]
  · rw [Memory.read_write hm]
    simp_all

/-- The reset buffer is in canonical form. -/
theorem resetWith_buf_wf (c : Config) : (State.resetWith c).buf.wf = true := rfl

end Sys2Proof.Machine
end

