-- ==== Sys2Proof/Laws/Operands.lean ====
section
/-! SUPPORT. The laws of the block halves (R7), the xor with t (R205) and the mock cipher (R87). -/

namespace Sys2Proof.Machine

@[simp] theorem hi64_append (a b : Word) : hi64 (a ++ b) = a := by
  ext i hi
  have h : (a ++ b : BitVec (64 + 64)).getLsbD (64 + i) = a.getLsbD i := by
    rw [BitVec.getLsbD_append, if_neg (by omega), Nat.add_sub_cancel_left]
  simpa [hi64, BitVec.getLsbD_eq_getElem hi] using h

@[simp] theorem lo64_append (a b : Word) : lo64 (a ++ b) = b := by
  ext i hi
  have h : (a ++ b : BitVec (64 + 64)).getLsbD i = b.getLsbD i := by
    rw [BitVec.getLsbD_append, if_pos hi]
  simpa [lo64, BitVec.getLsbD_eq_getElem hi] using h

/-- A block is its two halves (R7). -/
@[simp] theorem hi64_append_lo64 (b : Block) : hi64 b ++ lo64 b = b := by
  refine BitVec.eq_of_getLsbD_eq (w := 64 + 64) fun i hi => ?_
  rw [BitVec.getLsbD_append]
  by_cases h : i < 64
  · simp [lo64, h]
  · simp [hi64, h, show 64 + (i - 64) = i by omega, show i - 64 < 64 by omega]

/-- The xor with t undoes itself (R205). -/
@[simp] theorem xor_be64_xor_be64 (x : Word) (t : Nat) : (x ^^^ be64 t) ^^^ be64 t = x := by
  rw [BitVec.xor_assoc, BitVec.xor_self, BitVec.xor_zero]

/-- MOCKSWAP meets BCS_INV (R87): each of its two functions undoes the other. -/
theorem mockswap_bcsInv : BcsInv .mockswap := by
  intro k x
  constructor <;>
    simp only [cipherFn, mockEnc, mockDec, hi64_append, lo64_append, BitVec.xor_assoc, BitVec.xor_self, BitVec.xor_zero,
      hi64_append_lo64]

end Sys2Proof.Machine
end

