-- ==== Sys2Proof/Laws/State.lean ====
section
/-! SUPPORT. What each named operation leaves in each field of the state: one lemma per field per operation, so
that no later proof unfolds a record update. -/

namespace Sys2Proof.Machine

/-! ### `State.withdraw` -/

@[simp] theorem State.withdraw_cfg (s : State) : (s.withdraw).cfg = s.cfg := rfl
@[simp] theorem State.withdraw_ph (s : State) : (s.withdraw).ph = s.ph := rfl
@[simp] theorem State.withdraw_op (s : State) : (s.withdraw).op = s.op := rfl
@[simp] theorem State.withdraw_j (s : State) : (s.withdraw).j = s.j := rfl
@[simp] theorem State.withdraw_i (s : State) : (s.withdraw).i = s.i := rfl
@[simp] theorem State.withdraw_cf (s : State) : (s.withdraw).cf = false := rfl
@[simp] theorem State.withdraw_done (s : State) : (s.withdraw).done = false := rfl
@[simp] theorem State.withdraw_matched (s : State) : (s.withdraw).matched = false := rfl
@[simp] theorem State.withdraw_err (s : State) : (s.withdraw).err = none := rfl
@[simp] theorem State.withdraw_len (s : State) : (s.withdraw).len = s.len := rfl
@[simp] theorem State.withdraw_olen (s : State) : (s.withdraw).olen = 0 := rfl
@[simp] theorem State.withdraw_klen (s : State) : (s.withdraw).klen = s.klen := rfl
@[simp] theorem State.withdraw_n (s : State) : (s.withdraw).n = s.n := rfl
@[simp] theorem State.withdraw_iva (s : State) : (s.withdraw).iva = s.iva := rfl
@[simp] theorem State.withdraw_ivb (s : State) : (s.withdraw).ivb = s.ivb := rfl
@[simp] theorem State.withdraw_kek0 (s : State) : (s.withdraw).kek0 = s.kek0 := rfl
@[simp] theorem State.withdraw_kek1 (s : State) : (s.withdraw).kek1 = s.kek1 := rfl
@[simp] theorem State.withdraw_kek2 (s : State) : (s.withdraw).kek2 = s.kek2 := rfl
@[simp] theorem State.withdraw_kek3 (s : State) : (s.withdraw).kek3 = s.kek3 := rfl
@[simp] theorem State.withdraw_buf (s : State) : (s.withdraw).buf = s.buf := rfl
@[simp] theorem State.withdraw_agenda (s : State) : (s.withdraw).agenda = s.agenda := rfl
@[simp] theorem State.withdraw_replies (s : State) : (s.withdraw).replies = s.replies := rfl
@[simp] theorem State.withdraw_requests (s : State) : (s.withdraw).requests = s.requests := rfl

/-! ### `State.clearKey` -/

@[simp] theorem State.clearKey_cfg (s : State) : (s.clearKey).cfg = s.cfg := rfl
@[simp] theorem State.clearKey_ph (s : State) : (s.clearKey).ph = s.ph := rfl
@[simp] theorem State.clearKey_op (s : State) : (s.clearKey).op = s.op := rfl
@[simp] theorem State.clearKey_j (s : State) : (s.clearKey).j = s.j := rfl
@[simp] theorem State.clearKey_i (s : State) : (s.clearKey).i = s.i := rfl
@[simp] theorem State.clearKey_cf (s : State) : (s.clearKey).cf = s.cf := rfl
@[simp] theorem State.clearKey_done (s : State) : (s.clearKey).done = s.done := rfl
@[simp] theorem State.clearKey_matched (s : State) : (s.clearKey).matched = s.matched := rfl
@[simp] theorem State.clearKey_err (s : State) : (s.clearKey).err = s.err := rfl
@[simp] theorem State.clearKey_len (s : State) : (s.clearKey).len = s.len := rfl
@[simp] theorem State.clearKey_olen (s : State) : (s.clearKey).olen = s.olen := rfl
@[simp] theorem State.clearKey_klen (s : State) : (s.clearKey).klen = 0 := rfl
@[simp] theorem State.clearKey_n (s : State) : (s.clearKey).n = s.n := rfl
@[simp] theorem State.clearKey_iva (s : State) : (s.clearKey).iva = s.iva := rfl
@[simp] theorem State.clearKey_ivb (s : State) : (s.clearKey).ivb = s.ivb := rfl
@[simp] theorem State.clearKey_kek0 (s : State) : (s.clearKey).kek0 = 0 := rfl
@[simp] theorem State.clearKey_kek1 (s : State) : (s.clearKey).kek1 = 0 := rfl
@[simp] theorem State.clearKey_kek2 (s : State) : (s.clearKey).kek2 = 0 := rfl
@[simp] theorem State.clearKey_kek3 (s : State) : (s.clearKey).kek3 = 0 := rfl
@[simp] theorem State.clearKey_buf (s : State) : (s.clearKey).buf = s.buf := rfl
@[simp] theorem State.clearKey_agenda (s : State) : (s.clearKey).agenda = s.agenda := rfl
@[simp] theorem State.clearKey_replies (s : State) : (s.clearKey).replies = s.replies := rfl
@[simp] theorem State.clearKey_requests (s : State) : (s.clearKey).requests = s.requests := rfl

/-! ### `State.setDone` -/

@[simp] theorem State.setDone_cfg (s : State) : (s.setDone).cfg = s.cfg := rfl
@[simp] theorem State.setDone_ph (s : State) : (s.setDone).ph = s.ph := rfl
@[simp] theorem State.setDone_op (s : State) : (s.setDone).op = s.op := rfl
@[simp] theorem State.setDone_j (s : State) : (s.setDone).j = s.j := rfl
@[simp] theorem State.setDone_i (s : State) : (s.setDone).i = s.i := rfl
@[simp] theorem State.setDone_cf (s : State) : (s.setDone).cf = s.cf := rfl
@[simp] theorem State.setDone_done (s : State) : (s.setDone).done = true := rfl
@[simp] theorem State.setDone_matched (s : State) : (s.setDone).matched = s.matched := rfl
@[simp] theorem State.setDone_err (s : State) : (s.setDone).err = s.err := rfl
@[simp] theorem State.setDone_len (s : State) : (s.setDone).len = s.len := rfl
@[simp] theorem State.setDone_olen (s : State) : (s.setDone).olen = s.olen := rfl
@[simp] theorem State.setDone_klen (s : State) : (s.setDone).klen = s.klen := rfl
@[simp] theorem State.setDone_n (s : State) : (s.setDone).n = s.n := rfl
@[simp] theorem State.setDone_iva (s : State) : (s.setDone).iva = s.iva := rfl
@[simp] theorem State.setDone_ivb (s : State) : (s.setDone).ivb = s.ivb := rfl
@[simp] theorem State.setDone_kek0 (s : State) : (s.setDone).kek0 = s.kek0 := rfl
@[simp] theorem State.setDone_kek1 (s : State) : (s.setDone).kek1 = s.kek1 := rfl
@[simp] theorem State.setDone_kek2 (s : State) : (s.setDone).kek2 = s.kek2 := rfl
@[simp] theorem State.setDone_kek3 (s : State) : (s.setDone).kek3 = s.kek3 := rfl
@[simp] theorem State.setDone_buf (s : State) : (s.setDone).buf = s.buf := rfl
@[simp] theorem State.setDone_agenda (s : State) : (s.setDone).agenda = s.agenda := rfl
@[simp] theorem State.setDone_replies (s : State) : (s.setDone).replies = s.replies := rfl
@[simp] theorem State.setDone_requests (s : State) : (s.setDone).requests = s.requests := rfl

/-! ### `State.raiseEarly` -/

@[simp] theorem State.raiseEarly_cfg (s : State) (e : ErrKind) : (s.raiseEarly e).cfg = s.cfg := rfl
@[simp] theorem State.raiseEarly_ph (s : State) (e : ErrKind) : (s.raiseEarly e).ph = s.ph := rfl
@[simp] theorem State.raiseEarly_op (s : State) (e : ErrKind) : (s.raiseEarly e).op = s.op := rfl
@[simp] theorem State.raiseEarly_j (s : State) (e : ErrKind) : (s.raiseEarly e).j = s.j := rfl
@[simp] theorem State.raiseEarly_i (s : State) (e : ErrKind) : (s.raiseEarly e).i = s.i := rfl
@[simp] theorem State.raiseEarly_cf (s : State) (e : ErrKind) : (s.raiseEarly e).cf = s.cf := rfl
@[simp] theorem State.raiseEarly_done (s : State) (e : ErrKind) : (s.raiseEarly e).done = true := rfl
@[simp] theorem State.raiseEarly_matched (s : State) (e : ErrKind) : (s.raiseEarly e).matched = s.matched := rfl
@[simp] theorem State.raiseEarly_err (s : State) (e : ErrKind) : (s.raiseEarly e).err = some e := rfl
@[simp] theorem State.raiseEarly_len (s : State) (e : ErrKind) : (s.raiseEarly e).len = s.len := rfl
@[simp] theorem State.raiseEarly_olen (s : State) (e : ErrKind) : (s.raiseEarly e).olen = 0 := rfl
@[simp] theorem State.raiseEarly_klen (s : State) (e : ErrKind) : (s.raiseEarly e).klen = s.klen := rfl
@[simp] theorem State.raiseEarly_n (s : State) (e : ErrKind) : (s.raiseEarly e).n = s.n := rfl
@[simp] theorem State.raiseEarly_iva (s : State) (e : ErrKind) : (s.raiseEarly e).iva = s.iva := rfl
@[simp] theorem State.raiseEarly_ivb (s : State) (e : ErrKind) : (s.raiseEarly e).ivb = s.ivb := rfl
@[simp] theorem State.raiseEarly_kek0 (s : State) (e : ErrKind) : (s.raiseEarly e).kek0 = s.kek0 := rfl
@[simp] theorem State.raiseEarly_kek1 (s : State) (e : ErrKind) : (s.raiseEarly e).kek1 = s.kek1 := rfl
@[simp] theorem State.raiseEarly_kek2 (s : State) (e : ErrKind) : (s.raiseEarly e).kek2 = s.kek2 := rfl
@[simp] theorem State.raiseEarly_kek3 (s : State) (e : ErrKind) : (s.raiseEarly e).kek3 = s.kek3 := rfl
@[simp] theorem State.raiseEarly_buf (s : State) (e : ErrKind) : (s.raiseEarly e).buf = s.buf := rfl
@[simp] theorem State.raiseEarly_agenda (s : State) (e : ErrKind) : (s.raiseEarly e).agenda = s.agenda := rfl
@[simp] theorem State.raiseEarly_replies (s : State) (e : ErrKind) : (s.raiseEarly e).replies = s.replies := rfl
@[simp] theorem State.raiseEarly_requests (s : State) (e : ErrKind) : (s.raiseEarly e).requests = s.requests := rfl

/-! ### `State.raiseEarlyCodec` -/

@[simp] theorem State.raiseEarlyCodec_cfg (s : State) (e : ErrKind) : (s.raiseEarlyCodec e).cfg = s.cfg := rfl
@[simp] theorem State.raiseEarlyCodec_ph (s : State) (e : ErrKind) : (s.raiseEarlyCodec e).ph = s.ph := rfl
@[simp] theorem State.raiseEarlyCodec_op (s : State) (e : ErrKind) : (s.raiseEarlyCodec e).op = s.op := rfl
@[simp] theorem State.raiseEarlyCodec_j (s : State) (e : ErrKind) : (s.raiseEarlyCodec e).j = s.j := rfl
@[simp] theorem State.raiseEarlyCodec_i (s : State) (e : ErrKind) : (s.raiseEarlyCodec e).i = s.i := rfl
@[simp] theorem State.raiseEarlyCodec_cf (s : State) (e : ErrKind) : (s.raiseEarlyCodec e).cf = s.cf := rfl
@[simp] theorem State.raiseEarlyCodec_done (s : State) (e : ErrKind) : (s.raiseEarlyCodec e).done = true := rfl
@[simp] theorem State.raiseEarlyCodec_matched (s : State) (e : ErrKind) : (s.raiseEarlyCodec e).matched = s.matched := rfl
@[simp] theorem State.raiseEarlyCodec_err (s : State) (e : ErrKind) : (s.raiseEarlyCodec e).err = some e := rfl
@[simp] theorem State.raiseEarlyCodec_len (s : State) (e : ErrKind) : (s.raiseEarlyCodec e).len = s.len := rfl
@[simp] theorem State.raiseEarlyCodec_olen (s : State) (e : ErrKind) : (s.raiseEarlyCodec e).olen = 0 := rfl
@[simp] theorem State.raiseEarlyCodec_klen (s : State) (e : ErrKind) : (s.raiseEarlyCodec e).klen = 0 := rfl
@[simp] theorem State.raiseEarlyCodec_n (s : State) (e : ErrKind) : (s.raiseEarlyCodec e).n = s.n := rfl
@[simp] theorem State.raiseEarlyCodec_iva (s : State) (e : ErrKind) : (s.raiseEarlyCodec e).iva = s.iva := rfl
@[simp] theorem State.raiseEarlyCodec_ivb (s : State) (e : ErrKind) : (s.raiseEarlyCodec e).ivb = s.ivb := rfl
@[simp] theorem State.raiseEarlyCodec_kek0 (s : State) (e : ErrKind) : (s.raiseEarlyCodec e).kek0 = 0 := rfl
@[simp] theorem State.raiseEarlyCodec_kek1 (s : State) (e : ErrKind) : (s.raiseEarlyCodec e).kek1 = 0 := rfl
@[simp] theorem State.raiseEarlyCodec_kek2 (s : State) (e : ErrKind) : (s.raiseEarlyCodec e).kek2 = 0 := rfl
@[simp] theorem State.raiseEarlyCodec_kek3 (s : State) (e : ErrKind) : (s.raiseEarlyCodec e).kek3 = 0 := rfl
@[simp] theorem State.raiseEarlyCodec_buf (s : State) (e : ErrKind) : (s.raiseEarlyCodec e).buf = s.buf := rfl
@[simp] theorem State.raiseEarlyCodec_agenda (s : State) (e : ErrKind) : (s.raiseEarlyCodec e).agenda = s.agenda := rfl
@[simp] theorem State.raiseEarlyCodec_replies (s : State) (e : ErrKind) : (s.raiseEarlyCodec e).replies = s.replies := rfl
@[simp] theorem State.raiseEarlyCodec_requests (s : State) (e : ErrKind) : (s.raiseEarlyCodec e).requests = s.requests := rfl

/-! ### `State.raiseLate` -/

@[simp] theorem State.raiseLate_cfg (s : State) (e : ErrKind) : (s.raiseLate e).cfg = s.cfg := rfl
@[simp] theorem State.raiseLate_ph (s : State) (e : ErrKind) : (s.raiseLate e).ph = s.ph := rfl
@[simp] theorem State.raiseLate_op (s : State) (e : ErrKind) : (s.raiseLate e).op = s.op := rfl
@[simp] theorem State.raiseLate_j (s : State) (e : ErrKind) : (s.raiseLate e).j = s.j := rfl
@[simp] theorem State.raiseLate_i (s : State) (e : ErrKind) : (s.raiseLate e).i = s.i := rfl
@[simp] theorem State.raiseLate_cf (s : State) (e : ErrKind) : (s.raiseLate e).cf = s.cf := rfl
@[simp] theorem State.raiseLate_done (s : State) (e : ErrKind) : (s.raiseLate e).done = s.done := rfl
@[simp] theorem State.raiseLate_matched (s : State) (e : ErrKind) : (s.raiseLate e).matched = s.matched := rfl
@[simp] theorem State.raiseLate_err (s : State) (e : ErrKind) : (s.raiseLate e).err = some e := rfl
@[simp] theorem State.raiseLate_len (s : State) (e : ErrKind) : (s.raiseLate e).len = s.len := rfl
@[simp] theorem State.raiseLate_olen (s : State) (e : ErrKind) : (s.raiseLate e).olen = 0 := rfl
@[simp] theorem State.raiseLate_klen (s : State) (e : ErrKind) : (s.raiseLate e).klen = s.klen := rfl
@[simp] theorem State.raiseLate_n (s : State) (e : ErrKind) : (s.raiseLate e).n = s.n := rfl
@[simp] theorem State.raiseLate_iva (s : State) (e : ErrKind) : (s.raiseLate e).iva = s.iva := rfl
@[simp] theorem State.raiseLate_ivb (s : State) (e : ErrKind) : (s.raiseLate e).ivb = s.ivb := rfl
@[simp] theorem State.raiseLate_kek0 (s : State) (e : ErrKind) : (s.raiseLate e).kek0 = s.kek0 := rfl
@[simp] theorem State.raiseLate_kek1 (s : State) (e : ErrKind) : (s.raiseLate e).kek1 = s.kek1 := rfl
@[simp] theorem State.raiseLate_kek2 (s : State) (e : ErrKind) : (s.raiseLate e).kek2 = s.kek2 := rfl
@[simp] theorem State.raiseLate_kek3 (s : State) (e : ErrKind) : (s.raiseLate e).kek3 = s.kek3 := rfl
@[simp] theorem State.raiseLate_buf (s : State) (e : ErrKind) : (s.raiseLate e).buf = s.buf.clearTo s.n.toNat := rfl
@[simp] theorem State.raiseLate_agenda (s : State) (e : ErrKind) : (s.raiseLate e).agenda = s.agenda := rfl
@[simp] theorem State.raiseLate_replies (s : State) (e : ErrKind) : (s.raiseLate e).replies = s.replies := rfl
@[simp] theorem State.raiseLate_requests (s : State) (e : ErrKind) : (s.raiseLate e).requests = s.requests := rfl

/-! ### `State.finish` -/

@[simp] theorem State.finish_cfg (s : State) : (s.finish).cfg = s.cfg := rfl
@[simp] theorem State.finish_ph (s : State) : (s.finish).ph = .idle := rfl
@[simp] theorem State.finish_op (s : State) : (s.finish).op = s.op := rfl
@[simp] theorem State.finish_j (s : State) : (s.finish).j = s.j := rfl
@[simp] theorem State.finish_i (s : State) : (s.finish).i = s.i := rfl
@[simp] theorem State.finish_cf (s : State) : (s.finish).cf = s.cf := rfl
@[simp] theorem State.finish_done (s : State) : (s.finish).done = true := rfl
@[simp] theorem State.finish_matched (s : State) : (s.finish).matched = s.matched := rfl
@[simp] theorem State.finish_err (s : State) : (s.finish).err = s.err := rfl
@[simp] theorem State.finish_len (s : State) : (s.finish).len = s.len := rfl
@[simp] theorem State.finish_olen (s : State) : (s.finish).olen = s.olen := rfl
@[simp] theorem State.finish_klen (s : State) : (s.finish).klen = 0 := rfl
@[simp] theorem State.finish_n (s : State) : (s.finish).n = s.n := rfl
@[simp] theorem State.finish_iva (s : State) : (s.finish).iva = s.iva := rfl
@[simp] theorem State.finish_ivb (s : State) : (s.finish).ivb = s.ivb := rfl
@[simp] theorem State.finish_kek0 (s : State) : (s.finish).kek0 = 0 := rfl
@[simp] theorem State.finish_kek1 (s : State) : (s.finish).kek1 = 0 := rfl
@[simp] theorem State.finish_kek2 (s : State) : (s.finish).kek2 = 0 := rfl
@[simp] theorem State.finish_kek3 (s : State) : (s.finish).kek3 = 0 := rfl
@[simp] theorem State.finish_buf (s : State) : (s.finish).buf = s.buf := rfl
@[simp] theorem State.finish_agenda (s : State) : (s.finish).agenda = s.agenda := rfl
@[simp] theorem State.finish_replies (s : State) : (s.finish).replies = s.replies := rfl
@[simp] theorem State.finish_requests (s : State) : (s.finish).requests = s.requests := rfl

/-! ### `State.resetStep` -/

@[simp] theorem State.resetStep_cfg (s : State) : (s.resetStep).cfg = s.cfg := rfl
@[simp] theorem State.resetStep_ph (s : State) : (s.resetStep).ph = .idle := rfl
@[simp] theorem State.resetStep_op (s : State) : (s.resetStep).op = .wrap := rfl
@[simp] theorem State.resetStep_j (s : State) : (s.resetStep).j = 0 := rfl
@[simp] theorem State.resetStep_i (s : State) : (s.resetStep).i = 0 := rfl
@[simp] theorem State.resetStep_cf (s : State) : (s.resetStep).cf = false := rfl
@[simp] theorem State.resetStep_done (s : State) : (s.resetStep).done = false := rfl
@[simp] theorem State.resetStep_matched (s : State) : (s.resetStep).matched = false := rfl
@[simp] theorem State.resetStep_err (s : State) : (s.resetStep).err = none := rfl
@[simp] theorem State.resetStep_len (s : State) : (s.resetStep).len = 0 := rfl
@[simp] theorem State.resetStep_olen (s : State) : (s.resetStep).olen = 0 := rfl
@[simp] theorem State.resetStep_klen (s : State) : (s.resetStep).klen = 0 := rfl
@[simp] theorem State.resetStep_n (s : State) : (s.resetStep).n = 0 := rfl
@[simp] theorem State.resetStep_iva (s : State) : (s.resetStep).iva = 0 := rfl
@[simp] theorem State.resetStep_ivb (s : State) : (s.resetStep).ivb = 0 := rfl
@[simp] theorem State.resetStep_kek0 (s : State) : (s.resetStep).kek0 = 0 := rfl
@[simp] theorem State.resetStep_kek1 (s : State) : (s.resetStep).kek1 = 0 := rfl
@[simp] theorem State.resetStep_kek2 (s : State) : (s.resetStep).kek2 = 0 := rfl
@[simp] theorem State.resetStep_kek3 (s : State) : (s.resetStep).kek3 = 0 := rfl
@[simp] theorem State.resetStep_buf (s : State) : (s.resetStep).buf = [] := rfl
@[simp] theorem State.resetStep_agenda (s : State) : (s.resetStep).agenda = s.agenda := rfl
@[simp] theorem State.resetStep_replies (s : State) : (s.resetStep).replies = s.replies := rfl
@[simp] theorem State.resetStep_requests (s : State) : (s.resetStep).requests = s.requests := rfl

end Sys2Proof.Machine
end

