-- ==== Sys2Proof/Laws/Ops.lean ====
section
/-! SUPPORT. One lemma per shared operation that says everything it can do; proofs cite these and do not unfold. -/

namespace Sys2Proof.Machine

/-! ### The accept step -/

/-- An idle machine takes the accept step. -/
theorem accept_idle {s : State} (h : s.ph = .idle) (i : Instr) (body : State → State) :
    accept i body s = .next (body { s.withdraw with op := i }) := by
  simp [accept, h]

/-- A busy machine ignores the write (R44). -/
theorem accept_busy {s : State} (h : s.ph ≠ .idle) (i : Instr) (body : State → State) :
    accept i body s = .next s := by
  simp [accept, h]

theorem acceptIllegal_idle {s : State} (h : s.ph = .idle) :
    acceptIllegal s = .next (s.withdraw.raiseEarly .illegalCommand) := by
  simp [acceptIllegal, h]

theorem acceptIllegal_busy {s : State} (h : s.ph ≠ .idle) : acceptIllegal s = .next s := by
  simp [acceptIllegal, h]

@[simp] theorem codecStart_refuse (k : ErrKind) (start : Nat → State → State) (s : State) :
    codecStart (.refuse k) start s = s.raiseEarlyCodec k := rfl

@[simp] theorem codecStart_pass (n : Nat) (start : Nat → State → State) (s : State) :
    codecStart (.pass n) start s = start n s := rfl

/-- Every command written to a busy machine is ignored (R44). -/
theorem exec_busy {s : State} (h : s.ph ≠ .idle) (i : Instr) : exec i s = .next s := by
  cases i <;> simp only [exec, execWrap, execUnwrap, execWrapp, execUnwrapp, execIvdef, execIvchk, execIvalt, execAivchk,
    accept_busy h]

/-- No command stops the machine. -/
theorem exec_next (i : Instr) (s : State) : ∃ t, exec i s = .next t := by
  by_cases h : s.ph = .idle
  · cases i <;> simp only [exec, execWrap, execUnwrap, execWrapp, execUnwrapp, execIvdef, execIvchk, execIvalt,
      execAivchk, accept_idle h, Host.Outcome.next.injEq, exists_eq']
  · exact ⟨s, exec_busy h i⟩

/-! ### Validation -/

/-- What WRAP's validation has established when it passes (R112). -/
theorem wrapVerdict_pass {c : Config} {l n : Nat} {klen : Byte} (h : wrapVerdict c l klen = .pass n) :
    n = l / 8 ∧ l % 8 = 0 ∧ 2 ≤ n ∧ n ≤ c.nmax ∧ l ≤ lmax ∧ klenValid klen = true := by
  unfold wrapVerdict at h
  split_ifs at h
  all_goals simp_all
  all_goals omega

/-- What WRAPP's validation has established when it passes (R114). -/
theorem wrappVerdict_pass {c : Config} {l n : Nat} {klen : Byte} (h : wrappVerdict c l klen = .pass n) :
    n = ceil8 l ∧ 1 ≤ n ∧ n ≤ c.nmax ∧ 1 ≤ l ∧ l ≤ lmax ∧ klenValid klen = true := by
  unfold wrappVerdict at h
  split_ifs at h
  all_goals simp_all [ceil8]
  all_goals omega

/-- What UNWRAP's validation has established when it passes (R132). -/
theorem unwrapVerdict_pass {c : Config} {l n : Nat} {klen : Byte} (h : unwrapVerdict c l klen = .pass n) :
    l = 8 * (n + 1) ∧ 2 ≤ n ∧ n ≤ c.nmax ∧ 8 * n ≤ lmax ∧ klenValid klen = true := by
  unfold unwrapVerdict at h
  split_ifs at h
  all_goals simp_all
  all_goals omega

/-- What UNWRAPP's validation has established when it passes (R134). -/
theorem unwrappVerdict_pass {c : Config} {l n : Nat} {klen : Byte} (h : unwrappVerdict c l klen = .pass n) :
    l = 8 * (n + 1) ∧ 1 ≤ n ∧ n ≤ c.nmax ∧ klenValid klen = true := by
  unfold unwrappVerdict at h
  split_ifs at h
  all_goals simp_all
  all_goals omega

/-! ### The cipher port -/

/-- `KEY` is defined exactly for the valid key lengths (R14). -/
theorem key_isSome (s : State) : s.key.isSome = klenValid s.klen := by
  unfold State.key klenValid
  split_ifs <;> simp_all

/-- `KEY` for each key length. -/
theorem key_some_klen {s : State} {k : Key} (h : s.key = some k) :
    s.klen.toNat = keyBytes k := by
  unfold State.key at h
  split_ifs at h <;> simp only [Option.some.injEq] at h <;> subst h <;> simp_all [keyBytes]

/-- A transaction with key `k` (R81, R83, R84). -/
theorem withBcs_key {s : State} {k : Key} (h : s.key = some k) (d : Dir) (x : Block) (a : BcsAnswer)
    (upd : Block → State → State) :
    withBcs d x a upd s = .next (upd (bcsCall s.cfg.cipher d k x a).2
      { s with cf := s.cf || !(bcsCall s.cfg.cipher d k x a).1, requests := { dir := d, key := k, x := x } :: s.requests }) := by
  simp [withBcs, h]

/-- A transaction needs a key. -/
theorem withBcs_next {s t : State} {d : Dir} {x : Block} {a : BcsAnswer} {upd : Block → State → State}
    (h : withBcs d x a upd s = .next t) :
    ∃ k, s.key = some k ∧ t = upd (bcsCall s.cfg.cipher d k x a).2
      { s with cf := s.cf || !(bcsCall s.cfg.cipher d k x a).1, requests := { dir := d, key := k, x := x } :: s.requests } := by
  cases hk : s.key with
  | none => simp [withBcs, hk] at h
  | some k =>
    rw [withBcs_key hk] at h
    exact ⟨k, rfl, (Host.Outcome.next.inj h).symm⟩

@[simp] theorem bcsCall_ok (c : Cipher) (d : Dir) (k : Key) (x : Block) :
    bcsCall c d k x .ok = (true, cipherFn c d k x) := rfl

@[simp] theorem bcsCall_failed (c : Cipher) (d : Dir) (k : Key) (x y : Block) :
    bcsCall c d k x (.failed y) = (false, y) := rfl

/-! ### The host port -/

/-- A register of the map stands at its address and nowhere else (R19). -/
theorem registerMap_lookup {addr : Addr} {p : Port} (h : registerMap.lookup addr = some p) : (addr, p) ∈ registerMap := by
  revert h
  generalize registerMap = l
  induction l with
  | nil => simp
  | cons c l ih =>
    obtain ⟨a, q⟩ := c
    rw [List.lookup_cons]
    split
    · simp_all
    · intro h
      exact List.mem_cons_of_mem _ (ih h)

/-- What an address can select: a register at its address, an entry of the window, or nothing (R19, R41, R50). -/
theorem portOf_cases (nmax : Nat) (addr : Addr) :
    (addr, portOf nmax addr) ∈ registerMap ∨
    (∃ k, portOf nmax addr = .buf k ∧ k ≤ nmax ∧ addr.toNat = bufBase + k) ∨
    (portOf nmax addr = .unmapped ∧ 0xB < addr.toNat ∧ ¬(bufBase ≤ addr.toNat ∧ addr.toNat - bufBase ≤ nmax)) := by
  unfold portOf
  split
  · next p h => exact .inl (registerMap_lookup h)
  · next h =>
    split
    · next hb => exact .inr (.inl ⟨_, rfl, hb.2, by omega⟩)
    · next hb =>
      refine .inr (.inr ⟨rfl, ?_, hb⟩)
      by_contra hlow
      have hall : ∀ k < 12, (registerMap.lookup (BitVec.ofNat 32 k)).isSome = true := by decide
      have hs := hall addr.toNat (by omega)
      simp [h] at hs

/-- A word address above the registers selects a buffer entry or nothing (R41, R50). -/
theorem portOf_high {nmax : Nat} {addr : Addr} (h : 0xB < addr.toNat) :
    portOf nmax addr = if bufBase ≤ addr.toNat ∧ addr.toNat - bufBase ≤ nmax then .buf (addr.toNat - bufBase) else .unmapped := by
  unfold portOf
  split
  · next p hp =>
    have hm := registerMap_lookup hp
    have hall : ∀ c ∈ registerMap, c.1.toNat ≤ 0xB := by decide
    have hle : addr.toNat ≤ 0xB := hall _ hm
    omega
  · rfl

/-- An address selects entry k only if k ≤ `NMAX` (R41). -/
theorem portOf_buf {nmax k : Nat} {addr : Addr} (h : portOf nmax addr = .buf k) : k ≤ nmax := by
  rcases portOf_cases nmax addr with hm | ⟨k', hk, hle, -⟩ | ⟨hu, -⟩
  · rw [h] at hm
    simp [registerMap] at hm
  · rw [h] at hk
    cases hk
    exact hle
  · rw [h] at hu
    cases hu

/-- Only address 0 selects `CMD` (R19). -/
theorem portOf_cmd {nmax : Nat} {addr : Addr} : portOf nmax addr = .cmd ↔ addr = 0 := by
  constructor
  · intro h
    rcases portOf_cases nmax addr with hm | ⟨k', hk, -⟩ | ⟨hu, -⟩
    · rw [h] at hm
      simpa [registerMap] using hm
    · rw [h] at hk
      cases hk
    · rw [h] at hu
      cases hu
  · rintro rfl
    rfl

/-- Only address 1 selects `STATUS` (R19). -/
theorem portOf_status {nmax : Nat} {addr : Addr} : portOf nmax addr = .status ↔ addr = 1 := by
  constructor
  · intro h
    rcases portOf_cases nmax addr with hm | ⟨k', hk, -⟩ | ⟨hu, -⟩
    · rw [h] at hm
      simpa [registerMap] using hm
    · rw [h] at hk
      cases hk
    · rw [h] at hu
      cases hu
  · rintro rfl
    rfl

@[simp] theorem portOf_zero (nmax : Nat) : portOf nmax 0#32 = .cmd := rfl

end Sys2Proof.Machine
end

