-- ==== Sys2Proof/Laws/PerInstr.lean ====
section
/-! SUPPORT. Statements made once per command: the family RoundTrip is about a command's encoding. -/

namespace Sys2Proof.Laws.RoundTrip

/-- The command's word decodes to the command and to nothing else that carries the same fields (R61, R62): the word has
zero in its reserved bits, its three fields are the command's, and the opcode-table reading of the full word agrees. -/
def Statement (i : Instr) : Prop :=
  decode (encode i) = .ok i ∧ (encode i).extractLsb' 3 61 = 0 ∧
    instrOfFields i.unit i.pad i.dir = i ∧ decodeTableWord 64 (encode i).toNat = some i

theorem wrap : Statement .wrap := ⟨rfl, by decide, rfl, rfl⟩
theorem unwrap : Statement .unwrap := ⟨rfl, by decide, rfl, rfl⟩
theorem wrapp : Statement .wrapp := ⟨rfl, by decide, rfl, rfl⟩
theorem unwrapp : Statement .unwrapp := ⟨rfl, by decide, rfl, rfl⟩
theorem ivdef : Statement .ivdef := ⟨rfl, by decide, rfl, rfl⟩
theorem ivchk : Statement .ivchk := ⟨rfl, by decide, rfl, rfl⟩
theorem ivalt : Statement .ivalt := ⟨rfl, by decide, rfl, rfl⟩
theorem aivchk : Statement .aivchk := ⟨rfl, by decide, rfl, rfl⟩

end Sys2Proof.Laws.RoundTrip
end

