-- ==== Sys2Proof/Laws/Sequencer.lean ====
section
/-! SUPPORT. What the steps of the sequencer can do: one lemma per RUN step and per FIN step, and the states in which
each of them is taken. -/

namespace Sys2Proof.Machine

/-! ### The RUN steps -/

/-- The state a wrap RUN step leaves when the block answered is `y` and the transaction failed iff `f` (R118). -/
def wrapRunState (k : Key) (y : Block) (f : Bool) (s : State) : State :=
  advanceWrap { s with
    cf := s.cf || f
    requests := { dir := .encrypt, key := k, x := s.buf.read 0 ++ s.buf.read s.i.toNat } :: s.requests
    buf := (s.buf.write 0 (hi64 y ^^^ be64 s.t)).write s.i.toNat (lo64 y) }

/-- The state an unwrap RUN step leaves (R138). -/
def unwrapRunState (k : Key) (y : Block) (f : Bool) (s : State) : State :=
  advanceUnwrap { s with
    cf := s.cf || f
    requests := { dir := .decrypt, key := k, x := (s.buf.read 0 ^^^ be64 s.t) ++ s.buf.read s.i.toNat } :: s.requests
    buf := (s.buf.write 0 (hi64 y)).write s.i.toNat (lo64 y) }

/-- The state a one-block RUN step leaves (R119, R139). -/
def oneBlockState (d : Dir) (k : Key) (y : Block) (f : Bool) (s : State) : State :=
  { s with
    cf := s.cf || f
    requests := { dir := d, key := k, x := s.buf.read 0 ++ s.buf.read 1 } :: s.requests
    buf := (s.buf.write 0 (hi64 y)).write 1 (lo64 y)
    ph := .fin }

theorem runWrap_eq {s : State} {k : Key} (hk : s.key = some k) (hi : s.i.toNat ≤ s.cfg.nmax) (a : BcsAnswer) :
    runWrap a s = .next (wrapRunState k (bcsCall s.cfg.cipher .encrypt k (s.buf.read 0 ++ s.buf.read s.i.toNat) a).2
      (!(bcsCall s.cfg.cipher .encrypt k (s.buf.read 0 ++ s.buf.read s.i.toNat) a).1) s) := by
  rw [runWrap, if_neg (by omega), withBcs_key hk]
  rfl

theorem runUnwrap_eq {s : State} {k : Key} (hk : s.key = some k) (hi : s.i.toNat ≤ s.cfg.nmax) (a : BcsAnswer) :
    runUnwrap a s = .next (unwrapRunState k
      (bcsCall s.cfg.cipher .decrypt k ((s.buf.read 0 ^^^ be64 s.t) ++ s.buf.read s.i.toNat) a).2
      (!(bcsCall s.cfg.cipher .decrypt k ((s.buf.read 0 ^^^ be64 s.t) ++ s.buf.read s.i.toNat) a).1) s) := by
  rw [runUnwrap, if_neg (by omega), withBcs_key hk]
  rfl

theorem runOneBlock_eq {s : State} {k : Key} (hk : s.key = some k) (hn : 1 ≤ s.cfg.nmax) (d : Dir) (a : BcsAnswer) :
    runOneBlock d a s = .next (oneBlockState d k (bcsCall s.cfg.cipher d k (s.buf.read 0 ++ s.buf.read 1) a).2
      (!(bcsCall s.cfg.cipher d k (s.buf.read 0 ++ s.buf.read 1) a).1) s) := by
  rw [runOneBlock, if_neg (by omega), withBcs_key hk]
  rfl

/-- Everything that the successor of a wrap position can be (R118). -/
theorem advanceWrap_cases (s : State) :
    (s.i.toNat < s.n.toNat ∧ advanceWrap s = { s with i := s.i + 1 }) ∨
    (s.n.toNat ≤ s.i.toNat ∧ s.j.toNat < 5 ∧ advanceWrap s = { s with j := s.j + 1, i := 1 }) ∨
    (s.n.toNat ≤ s.i.toNat ∧ 5 ≤ s.j.toNat ∧ advanceWrap s = { s with ph := .fin }) := by
  unfold advanceWrap
  split_ifs with h1 h2
  · exact .inl ⟨h1, rfl⟩
  · exact .inr (.inl ⟨by omega, h2, rfl⟩)
  · exact .inr (.inr ⟨by omega, by omega, rfl⟩)

/-- Everything that the successor of an unwrap position can be (R138). -/
theorem advanceUnwrap_cases (s : State) :
    (1 < s.i.toNat ∧ advanceUnwrap s = { s with i := s.i - 1 }) ∨
    (s.i.toNat ≤ 1 ∧ 0 < s.j.toNat ∧ advanceUnwrap s = { s with j := s.j - 1, i := s.n }) ∨
    (s.i.toNat ≤ 1 ∧ s.j.toNat = 0 ∧ advanceUnwrap s = { s with ph := .fin }) := by
  unfold advanceUnwrap
  split_ifs with h1 h2
  · exact .inl ⟨h1, rfl⟩
  · exact .inr (.inl ⟨by omega, h2, rfl⟩)
  · exact .inr (.inr ⟨by omega, by omega, rfl⟩)

/-- An advance changes the position only. -/
theorem advanceWrap_frame (s : State) :
    advanceWrap s = { s with j := (advanceWrap s).j, i := (advanceWrap s).i, ph := (advanceWrap s).ph } := by
  rcases advanceWrap_cases s with ⟨-, h⟩ | ⟨-, -, h⟩ | ⟨-, -, h⟩ <;> rw [h]

/-- An advance changes the position only. -/
theorem advanceUnwrap_frame (s : State) :
    advanceUnwrap s = { s with j := (advanceUnwrap s).j, i := (advanceUnwrap s).i, ph := (advanceUnwrap s).ph } := by
  rcases advanceUnwrap_cases s with ⟨-, h⟩ | ⟨-, -, h⟩ | ⟨-, -, h⟩ <;> rw [h]

/-! ### Which step is taken -/

/-- The codec commands (R9). -/
theorem isCodec_cases {i : Instr} (h : i.isCodec = true) : i = .wrap ∨ i = .unwrap ∨ i = .wrapp ∨ i = .unwrapp := by
  cases i <;> first | (exact absurd h (by decide)) | simp

/-- The key is there whenever a command is in flight (R14, R84). -/
theorem Inv.key {s : State} (h : Inv s) (hp : s.ph ≠ .idle) : ∃ k, s.key = some k := by
  have hk := key_isSome s
  rw [h.busyKey hp] at hk
  exact Option.isSome_iff_exists.1 hk

/-- The chaining rounds of a wrap (R118). -/
theorem engineStep_wrap {s : State} (hp : s.ph = .run) (ho : s.op = .wrap ∨ s.op = .wrapp) (hn : 2 ≤ s.n.toNat)
    (a : BcsAnswer) : engineStep a s = runWrap a s := by
  rcases ho with ho | ho <;> simp only [engineStep, hp, runStep, ho, if_pos hn]

/-- The chaining rounds of an unwrap (R138). -/
theorem engineStep_unwrap {s : State} (hp : s.ph = .run) (ho : s.op = .unwrap ∨ s.op = .unwrapp) (hn : 2 ≤ s.n.toNat)
    (a : BcsAnswer) : engineStep a s = runUnwrap a s := by
  rcases ho with ho | ho <;> simp only [engineStep, hp, runStep, ho, if_pos hn]

/-- The one-block path (R119, R139). -/
theorem engineStep_oneBlock {s : State} (hp : s.ph = .run) {d : Dir}
    (ho : s.op = .wrapp ∧ d = .encrypt ∨ s.op = .unwrapp ∧ d = .decrypt) (hn : s.n.toNat = 1) (a : BcsAnswer) :
    engineStep a s = runOneBlock d a s := by
  have h2 : ¬ 2 ≤ s.n.toNat := by omega
  rcases ho with ⟨ho, rfl⟩ | ⟨ho, rfl⟩ <;> simp only [engineStep, hp, runStep, ho, if_neg h2, if_pos hn]

theorem engineStep_idle {s : State} (hp : s.ph = .idle) (a : BcsAnswer) : engineStep a s = .next s := by
  simp only [engineStep, hp]

/-- The FIN step of a wrap (R120). -/
theorem engineStep_finWrap {s : State} (hp : s.ph = .fin) (ho : s.op = .wrap ∨ s.op = .wrapp) (a : BcsAnswer) :
    engineStep a s = .next (finWrap s) := by
  rcases ho with ho | ho <;> simp only [engineStep, hp, finStep, ho]

/-- The FIN step of UNWRAP (R140). -/
theorem engineStep_finUnwrap {s : State} (hp : s.ph = .fin) (ho : s.op = .unwrap) (a : BcsAnswer) :
    engineStep a s = .next (finUnwrap s) := by
  simp only [engineStep, hp, finStep, ho]

/-- The FIN step of UNWRAPP (R141). -/
theorem engineStep_finUnwrapp {s : State} (hp : s.ph = .fin) (ho : s.op = .unwrapp) (hn : s.n.toNat ≤ s.cfg.nmax)
    (a : BcsAnswer) : engineStep a s = .next (finUnwrapp s) := by
  simp only [engineStep, hp, finStep, ho, if_neg (show ¬ s.cfg.nmax < s.n.toNat by omega)]

/-- Everything a RUN step can be in a state that meets the invariant. -/
theorem engineStep_run_cases {s : State} (h : Inv s) (hp : s.ph = .run) (a : BcsAnswer) :
    ∃ k y f, s.key = some k ∧
      ((s.op.dir = false ∧ 2 ≤ s.n.toNat ∧ engineStep a s = .next (wrapRunState k y f s)) ∨
       (s.op.dir = true ∧ 2 ≤ s.n.toNat ∧ engineStep a s = .next (unwrapRunState k y f s)) ∨
       (s.n.toNat = 1 ∧ ∃ d, (s.op = .wrapp ∧ d = .encrypt ∨ s.op = .unwrapp ∧ d = .decrypt) ∧
         engineStep a s = .next (oneBlockState d k y f s))) := by
  have hb : s.ph ≠ .idle := by rw [hp]; decide
  obtain ⟨k, hk⟩ := h.key hb
  have hN := h.busyN hb
  by_cases h2 : 2 ≤ s.n.toNat
  · have hpos := h.runPos hp h2
    have hop := h.busyOp hb
    cases ho : s.op <;> rw [ho] at hop <;> first | (exact absurd hop (by decide)) | skip
    · exact ⟨k, _, _, hk, .inl ⟨rfl, h2, (engineStep_wrap hp (.inl ho) h2 a).trans (runWrap_eq hk (by omega) a)⟩⟩
    · exact ⟨k, _, _, hk, .inr (.inl ⟨rfl, h2, (engineStep_unwrap hp (.inl ho) h2 a).trans (runUnwrap_eq hk (by omega) a)⟩)⟩
    · exact ⟨k, _, _, hk, .inl ⟨rfl, h2, (engineStep_wrap hp (.inr ho) h2 a).trans (runWrap_eq hk (by omega) a)⟩⟩
    · exact ⟨k, _, _, hk, .inr (.inl ⟨rfl, h2, (engineStep_unwrap hp (.inr ho) h2 a).trans (runUnwrap_eq hk (by omega) a)⟩)⟩
  · have h1 : s.n.toNat = 1 := by omega
    have hop := h.busyOp hb
    have hch := h.busyChain hb
    cases ho : s.op <;> rw [ho] at hop hch <;>
      first | (exact absurd hop (by decide)) | (exact absurd (hch rfl) h2) | skip
    · exact ⟨k, _, _, hk, .inr (.inr ⟨h1, .encrypt, .inl ⟨rfl, rfl⟩,
        (engineStep_oneBlock hp (.inl ⟨ho, rfl⟩) h1 a).trans (runOneBlock_eq hk (by omega) _ a)⟩)⟩
    · exact ⟨k, _, _, hk, .inr (.inr ⟨h1, .decrypt, .inr ⟨rfl, rfl⟩,
        (engineStep_oneBlock hp (.inr ⟨ho, rfl⟩) h1 a).trans (runOneBlock_eq hk (by omega) _ a)⟩)⟩

/-! ### The FIN steps -/

/-- The state a FIN step leaves is one of two: the late error `k`, or the result length `l` (R120, R140, R141, R153). -/
theorem engineStep_fin_cases {s : State} (h : Inv s) (hp : s.ph = .fin) (a : BcsAnswer) :
    (∃ k, canRaise s.op k = true ∧ engineStep a s = .next (s.raiseLate k).finish) ∨
    ∃ l : Word, engineStep a s = .next ({ s with olen := l } : State).finish := by
  have hb : s.ph ≠ .idle := by rw [hp]; decide
  rcases isCodec_cases (h.busyOp hb) with ho | ho | ho | ho
  · rw [engineStep_finWrap hp (.inl ho), finWrap]
    split
    · exact .inl ⟨_, by rw [ho]; rfl, rfl⟩
    · exact .inr ⟨_, rfl⟩
  · rw [engineStep_finUnwrap hp ho, finUnwrap]
    split_ifs
    · exact .inl ⟨_, by rw [ho]; rfl, rfl⟩
    · exact .inl ⟨_, by rw [ho]; rfl, rfl⟩
    · exact .inr ⟨_, rfl⟩
  · rw [engineStep_finWrap hp (.inr ho), finWrap]
    split
    · exact .inl ⟨_, by rw [ho]; rfl, rfl⟩
    · exact .inr ⟨_, rfl⟩
  · rw [engineStep_finUnwrapp hp ho (h.busyN hb).2, finUnwrapp]
    split_ifs
    · exact .inl ⟨_, by rw [ho]; rfl, rfl⟩
    · exact .inl ⟨_, by rw [ho]; rfl, rfl⟩
    · exact .inr ⟨_, rfl⟩

end Sys2Proof.Machine
end

