-- ==== Sys2Proof/Laws/Step.lean ====
section
/-! SUPPORT. What one step of the machine can do, and that no agent looks at the rest of the agenda. -/

namespace Sys2Proof.Machine

/-! ### One step -/

/-- With an event next, the machine takes that agent's step. -/
theorem stepWith_eq (e : Event) (s : State) : stepWith e s = eventStep s e := rfl

/-- With nothing listed, the sequencer moves by itself, its transaction answered by a free draw. -/
theorem step_nil {s : State} (h : s.agenda = []) :
    step s = engineStep (Config.freeAnswer s.requests.length) s := by
  simp [step, turn, h]

/-- With events listed, the first one is taken off and happens. -/
theorem step_cons {s : State} {e : Event} {rest : List Event} (h : s.agenda = e :: rest) :
    step s = eventStep { s with agenda := rest } e := by
  simp [step, turn, h]

/-- Everything a step can be. -/
theorem step_cases {s : State} {r : Result} (h : step s = r) :
    (s.agenda = [] ∧ engineStep (Config.freeAnswer s.requests.length) s = r) ∨
    ∃ e rest, s.agenda = e :: rest ∧ eventStep { s with agenda := rest } e = r := by
  cases ha : s.agenda with
  | nil => exact .inl ⟨rfl, (step_nil ha).symm.trans h⟩
  | cons e rest => exact .inr ⟨e, rest, rfl, (step_cons ha).symm.trans h⟩

@[simp] theorem eventStep_read (s : State) (addr : Addr) :
    eventStep s (.host (.read addr)) = .next { s with replies := memRead s addr :: s.replies } := rfl

@[simp] theorem eventStep_engine (s : State) (a : BcsAnswer) : eventStep s (.engine a) = engineStep a s := rfl

@[simp] theorem eventStep_reset (s : State) : eventStep s .reset = .next s.resetStep := rfl

/-- A write of a command's word to `CMD` runs the command. -/
theorem eventStep_command {s : State} {w : Word} {i : Instr} (h : decode w = .ok i) :
    eventStep s (.host (.write 0 w)) = exec i s := by
  simp [eventStep, hostStep, memWrite, commandWrite, h]

/-- A write of an illegal word to `CMD`. -/
theorem eventStep_illegal {s : State} {w : Word} (h : decode w = .error .illegalCommand) :
    eventStep s (.host (.write 0 w)) = acceptIllegal s := by
  simp [eventStep, hostStep, memWrite, commandWrite, h]

/-- A write to any other word: that register only, and only while idle (R43, R44). -/
theorem eventStep_write {s : State} {addr : Addr} (h : addr ≠ 0) (v : Word) :
    eventStep s (.host (.write addr v)) =
      if s.ph = .idle then .next (writePort s v (portOf s.cfg.nmax addr)) else .next s := by
  have hp : portOf s.cfg.nmax addr ≠ .cmd := fun hc => h (portOf_cmd.1 hc)
  simp only [eventStep, hostStep, memWrite]

/-- A busy machine ignores every write (R44). -/
theorem eventStep_write_busy {s : State} (h : s.ph ≠ .idle) (addr : Addr) (v : Word) :
    eventStep s (.host (.write addr v)) = .next s := by
  by_cases ha : addr = 0
  · subst ha
    cases hd : decode v with
    | ok i => rw [eventStep_command hd, exec_busy h]
    | error e =>
      cases e
      rw [eventStep_illegal hd, acceptIllegal_busy h]
  · rw [eventStep_write ha, if_neg h]

/-- No host access stops the machine. -/
theorem eventStep_host_next (s : State) (op : HostOp) : ∃ t, eventStep s (.host op) = .next t := by
  cases op with
  | read addr => exact ⟨_, rfl⟩
  | write addr v =>
    by_cases ha : addr = 0
    · subst ha
      cases hd : decode v with
      | ok i =>
        rw [eventStep_command hd]
        exact exec_next i s
      | error e =>
        cases e
        rw [eventStep_illegal hd]
        unfold acceptIllegal
        split <;> exact ⟨_, rfl⟩
    · rw [eventStep_write ha]
      split <;> exact ⟨_, rfl⟩

/-! ### The agenda -/

/-- `r` with the agenda of its next state replaced. -/
def mapAgenda (l : List Event) : Result → Result
  | .next t => .next { t with agenda := l }
  | .fault f => .fault f
  | .refused f => .refused f

theorem accept_mapAgenda {i : Instr} {body : State → State} {l : List Event}
    (hb : ∀ s, body { s with agenda := l } = { body s with agenda := l }) (s : State) :
    accept i body { s with agenda := l } = mapAgenda l (accept i body s) := by
  unfold accept
  by_cases h : s.ph = .idle
  · rw [if_pos h, if_pos h]
    exact congrArg Host.Outcome.next (hb { s.withdraw with op := i })
  · rw [if_neg h, if_neg h]
    rfl

theorem exec_mapAgenda (i : Instr) (s : State) (l : List Event) :
    exec i { s with agenda := l } = mapAgenda l (exec i s) := by
  have hc : ∀ (v : Verdict) {start : Nat → State → State} (s : State),
      (∀ n, start n { s with agenda := l } = { start n s with agenda := l }) →
      codecStart v start { s with agenda := l } = { codecStart v start s with agenda := l } := by
    intro v start s hs
    cases v with
    | refuse k => rfl
    | pass n => exact hs n
  cases i with
  | wrap =>
    rw [exec, execWrap]
    exact accept_mapAgenda (fun s => hc (wrapVerdict s.cfg s.len.toNat s.klen) s fun _ => rfl) s
  | unwrap =>
    rw [exec, execUnwrap]
    exact accept_mapAgenda (fun s => hc (unwrapVerdict s.cfg s.len.toNat s.klen) s fun _ => rfl) s
  | wrapp =>
    rw [exec, execWrapp]
    exact accept_mapAgenda (fun s => hc (wrappVerdict s.cfg s.len.toNat s.klen) s fun _ => rfl) s
  | unwrapp =>
    rw [exec, execUnwrapp]
    exact accept_mapAgenda (fun s => hc (unwrappVerdict s.cfg s.len.toNat s.klen) s fun _ => rfl) s
  | ivdef =>
    rw [exec, execIvdef]
    exact accept_mapAgenda (fun _ => rfl) s
  | ivchk =>
    rw [exec, execIvchk]
    exact accept_mapAgenda (fun _ => rfl) s
  | ivalt =>
    rw [exec, execIvalt]
    refine accept_mapAgenda (fun s => ?_) s
    cases altIV s.len.toNat <;> rfl
  | aivchk =>
    rw [exec, execAivchk]
    exact accept_mapAgenda (fun _ => rfl) s

theorem withBcs_mapAgenda (d : Dir) (x : Block) (a : BcsAnswer) {upd : Block → State → State} (s : State) (l : List Event)
    (hu : ∀ y s, upd y { s with agenda := l } = { upd y s with agenda := l }) :
    withBcs d x a upd { s with agenda := l } = mapAgenda l (withBcs d x a upd s) := by
  have hk : State.key { s with agenda := l } = s.key := rfl
  cases h : s.key with
  | none => simp [withBcs, hk, h, mapAgenda]
  | some k =>
    rw [withBcs_key h, withBcs_key (hk.trans h)]
    exact congrArg Host.Outcome.next (hu (bcsCall s.cfg.cipher d k x a).2
      { s with cf := s.cf || !(bcsCall s.cfg.cipher d k x a).1, requests := { dir := d, key := k, x := x } :: s.requests })

theorem engineStep_mapAgenda (a : BcsAnswer) (s : State) (l : List Event) :
    engineStep a { s with agenda := l } = mapAgenda l (engineStep a s) := by
  have hw : runWrap a { s with agenda := l } = mapAgenda l (runWrap a s) := by
    unfold runWrap
    split
    · rfl
    · refine withBcs_mapAgenda _ _ _ _ _ fun y s => ?_
      unfold advanceWrap
      split_ifs <;> rfl
  have hn : runUnwrap a { s with agenda := l } = mapAgenda l (runUnwrap a s) := by
    unfold runUnwrap
    split
    · rfl
    · refine withBcs_mapAgenda _ _ _ _ _ fun y s => ?_
      unfold advanceUnwrap
      split_ifs <;> rfl
  have ho : ∀ d, runOneBlock d a { s with agenda := l } = mapAgenda l (runOneBlock d a s) := by
    intro d
    unfold runOneBlock
    split
    · rfl
    · exact withBcs_mapAgenda _ _ _ _ _ fun y s => rfl
  have hf1 : finWrap { s with agenda := l } = { finWrap s with agenda := l } := by
    unfold finWrap
    split <;> rfl
  have hf2 : finUnwrap { s with agenda := l } = { finUnwrap s with agenda := l } := by
    unfold finUnwrap
    split_ifs <;> rfl
  have hf3 : finUnwrapp { s with agenda := l } = { finUnwrapp s with agenda := l } := by
    unfold finUnwrapp
    split_ifs <;> rfl
  unfold engineStep runStep finStep
  simp only [hw, hn, ho, hf1, hf2, hf3]
  obtain ⟨_, ph, op, _⟩ := s
  cases ph <;> cases op <;> simp only <;> (try split_ifs) <;> rfl

/-- No agent looks at the events that come after its own. -/
theorem eventStep_mapAgenda (e : Event) (s : State) (l : List Event) :
    eventStep { s with agenda := l } e = mapAgenda l (eventStep s e) := by
  match e with
  | .reset => rfl
  | .engine a => exact engineStep_mapAgenda a s l
  | .host (.read addr) => rfl
  | .host (.write addr v) =>
    by_cases ha : addr = 0
    · subst ha
      cases hd : decode v with
      | ok i => rw [eventStep_command hd, eventStep_command hd, exec_mapAgenda]
      | error e =>
        cases e
        rw [eventStep_illegal hd, eventStep_illegal hd]
        unfold acceptIllegal
        split <;> rfl
    · rw [eventStep_write ha, eventStep_write ha]
      cases hp : portOf s.cfg.nmax addr <;> simp only <;> split <;> rfl

/-- No agent changes the events still to come. -/
theorem eventStep_agenda {e : Event} {s t : State} (h : eventStep s e = .next t) : t.agenda = s.agenda := by
  have hm : eventStep s e = mapAgenda s.agenda (eventStep s e) := eventStep_mapAgenda e s s.agenda
  rw [h] at hm
  have ht : t = { t with agenda := s.agenda } := Host.Outcome.next.inj hm
  rw [ht]

/-! ### Whole schedules -/

theorem runAgenda_nil {s : State} (h : s.agenda = []) : runAgenda s = .next s := by
  rw [runAgenda, h]
  rfl

/-- A schedule runs one event at a time. -/
theorem runAgenda_cons {s t : State} {e : Event} {rest : List Event}
    (h : eventStep s e = .next t) : runAgenda { s with agenda := e :: rest } = runAgenda { t with agenda := rest } := by
  have hs : step { s with agenda := e :: rest } = .next { t with agenda := rest } := by
    rw [step_cons rfl]
    exact (eventStep_mapAgenda e s rest).trans (by rw [h]; rfl)
  show Host.Core.run core (rest.length + 1) { s with agenda := e :: rest } = _
  simp only [Host.Core.run]
  rw [show core.step { s with agenda := e :: rest } = step { s with agenda := e :: rest } from rfl, hs]
  rfl

/-- A schedule runs in two parts. -/
theorem runAgenda_append {s t : State} {l : List Event} (h : runAgenda { s with agenda := l } = .next t) (l' : List Event) :
    runAgenda { s with agenda := l ++ l' } = runAgenda { t with agenda := l' } := by
  induction l generalizing s with
  | nil =>
    rw [runAgenda_nil rfl] at h
    cases h
    rfl
  | cons e l ih =>
    cases he : eventStep s e with
    | next u =>
      rw [runAgenda_cons he] at h
      rw [List.cons_append, runAgenda_cons he]
      exact ih h
    | fault f =>
      have hs : step { s with agenda := e :: l } = .fault f := by
        rw [step_cons rfl]
        exact (eventStep_mapAgenda e s l).trans (by rw [he]; rfl)
      have hr : runAgenda { s with agenda := e :: l } = .fault f := by
        show Host.Core.run core (l.length + 1) { s with agenda := e :: l } = _
        simp only [Host.Core.run]
        rw [show core.step { s with agenda := e :: l } = step { s with agenda := e :: l } from rfl, hs]
        rfl
      rw [hr] at h
      cases h
    | refused f =>
      have hs : step { s with agenda := e :: l } = .refused f := by
        rw [step_cons rfl]
        exact (eventStep_mapAgenda e s l).trans (by rw [he]; rfl)
      have hr : runAgenda { s with agenda := e :: l } = .refused f := by
        show Host.Core.run core (l.length + 1) { s with agenda := e :: l } = _
        simp only [Host.Core.run]
        rw [show core.step { s with agenda := e :: l } = step { s with agenda := e :: l } from rfl, hs]
        rfl
      rw [hr] at h
      cases h

/-- While a command is in flight a host access changes the host's record of reads at most. -/
theorem eventStep_host_busy {s : State} (h : s.ph ≠ .idle) (op : HostOp) :
    ∃ l, eventStep s (.host op) = .next { s with replies := l } := by
  cases op with
  | read addr => exact ⟨_, rfl⟩
  | write addr v => exact ⟨s.replies, eventStep_write_busy h addr v⟩

end Sys2Proof.Machine
end

