-- ==== Sys2Proof/Tests/Slice0.lean ====
section
/-! SUPPORT. The model's own tests: decoding of words written out from the spec, the checks of WellFormed, one-step
tests against the spec's vectors, and for every obligation with hypotheses a witness that meets them. -/

namespace Sys2Proof.Tests

open Sys2Proof Sys2Proof.Machine

/-! ### Small states -/

/-- A small KWE with the mock cipher. -/
def small : Config := { nmax := 4, cipher := .mockswap }

/-- A KWE of the smallest legal capacity (R6). -/
def tiny : Config := { nmax := 2, cipher := .mockswap }

/-- A KWE of the largest legal capacity (R6). -/
def huge : Config := { nmax := 2 ^ 29, cipher := .mockswap }

/-- An idle machine with these operands, straight after reset otherwise. -/
def idleS (c : Config) (len : Word) (klen : Byte) (buf : Memory) : State :=
  { State.resetWith c with len := len, klen := klen, buf := buf }

/-- A machine with a command in flight, with a 16-byte key. -/
def busyS (ph : Phase) (op : Instr) (n : BitVec 32) (j : BitVec 3) (i : BitVec 32) (cf : Bool) (buf : Memory) : State :=
  { State.resetWith small with ph := ph, op := op, n := n, j := j, i := i, cf := cf, buf := buf, klen := 16 }

/-- An idle machine whose last command ended in this error. -/
def doneS (op : Instr) (e : Option ErrKind) : State := { State.resetWith small with op := op, done := true, err := e }

/-- The state a step leaves, if it leaves one. -/
def after : Result → Option State
  | .next t => some t
  | .fault _ => none
  | .refused _ => none

theorem inv_idleS {c : Config} (hc : c.Valid) (len : Word) (klen : Byte) {buf : Memory} (hw : buf.wf = true)
    (hb : ∀ e ∈ buf, e.1 ≤ c.nmax) : Inv (idleS c len klen buf) where
  cfg := hc
  bufWf := hw
  bufIn := hb
  pending := fun _ => ⟨rfl, rfl, rfl⟩
  busyDone := fun h => absurd rfl h
  errQuiet := fun h => absurd rfl h
  matchedBy := fun h => nomatch (show false = true from h)
  errBy := fun _ h => nomatch h
  busyOp := fun h => absurd rfl h
  busyN := fun h => absurd rfl h
  busyChain := fun h => absurd rfl h
  busyKey := fun h => absurd rfl h
  runPos := fun h => nomatch h

theorem inv_busyS {ph : Phase} {op : Instr} {n : BitVec 32} {j : BitVec 3} {i : BitVec 32} (cf : Bool) {buf : Memory}
    (ho : op.isCodec = true) (hn : 1 ≤ n.toNat ∧ n.toNat ≤ 4) (hc : op.pad = false → 2 ≤ n.toNat)
    (hp : j.toNat ≤ 5 ∧ 1 ≤ i.toNat ∧ i.toNat ≤ n.toNat) (hw : buf.wf = true) (hb : ∀ e ∈ buf, e.1 ≤ 4) :
    Inv (busyS ph op n j i cf buf) where
  cfg := (by decide : small.Valid)
  bufWf := hw
  bufIn := hb
  pending := fun _ => ⟨rfl, rfl, rfl⟩
  busyDone := fun _ => rfl
  errQuiet := fun h => absurd rfl h
  matchedBy := fun h => nomatch (show false = true from h)
  errBy := fun _ h => nomatch h
  busyOp := fun _ => ho
  busyN := fun _ => hn
  busyChain := fun _ => hc
  busyKey := fun _ => rfl
  runPos := fun _ _ => hp

theorem inv_doneS {op : Instr} {e : Option ErrKind}
    (h : ∀ k, e = some k → k = .illegalCommand ∨ canRaise op k = true) : Inv (doneS op e) where
  cfg := (by decide : small.Valid)
  bufWf := rfl
  bufIn := by simp [doneS, State.resetWith]
  pending := fun h => nomatch h
  busyDone := fun h => absurd rfl h
  errQuiet := fun _ => ⟨rfl, rfl⟩
  matchedBy := fun h => nomatch (show false = true from h)
  errBy := h
  busyOp := fun h => absurd rfl h
  busyN := fun h => absurd rfl h
  busyChain := fun h => absurd rfl h
  busyKey := fun h => absurd rfl h
  runPos := fun h => nomatch h

/-- An idle machine with an empty buffer meets the invariant. -/
theorem inv_idle {c : Config} (hc : c.Valid) (len : Word) (klen : Byte) : Inv (idleS c len klen []) :=
  inv_idleS hc len klen rfl (by simp)

/-- A command in flight on an empty buffer, at a legal position, meets the invariant. -/
theorem inv_busy {ph : Phase} {op : Instr} {n : BitVec 32} {j : BitVec 3} {i : BitVec 32} (cf : Bool)
    (ho : op.isCodec = true) (hn : 1 ≤ n.toNat ∧ n.toNat ≤ 4) (hc : op.pad = false → 2 ≤ n.toNat)
    (hp : j.toNat ≤ 5 ∧ 1 ≤ i.toNat ∧ i.toNat ≤ n.toNat) : Inv (busyS ph op n j i cf []) :=
  inv_busyS cf ho hn hc hp rfl (by simp)

/-! ### Decoding, written out bit by bit from R61 and R62 -/

/-- R61: `RSV` = 0, `UNIT PAD DIR` = 0 0 0. -/
theorem test_decode_wrap : decode ((0 : BitVec 61) ++ 0b000#3) = .ok .wrap := by decide
/-- R61: `UNIT PAD DIR` = 0 0 1. -/
theorem test_decode_unwrap : decode ((0 : BitVec 61) ++ 0b001#3) = .ok .unwrap := by decide
/-- R61: `UNIT PAD DIR` = 0 1 0. -/
theorem test_decode_wrapp : decode ((0 : BitVec 61) ++ 0b010#3) = .ok .wrapp := by decide
/-- R61: `UNIT PAD DIR` = 0 1 1. -/
theorem test_decode_unwrapp : decode ((0 : BitVec 61) ++ 0b011#3) = .ok .unwrapp := by decide
/-- R95: command word `0x0000_0000_0000_0004`. -/
theorem test_decode_ivdef : decode 0x0000000000000004 = .ok .ivdef := by decide
/-- R97: command word `0x0000_0000_0000_0005`. -/
theorem test_decode_ivchk : decode 0x0000000000000005 = .ok .ivchk := by decide
/-- R96: command word `0x0000_0000_0000_0006`. -/
theorem test_decode_ivalt : decode 0x0000000000000006 = .ok .ivalt := by decide
/-- R99: command word `0x0000_0000_0000_0007`. -/
theorem test_decode_aivchk : decode 0x0000000000000007 = .ok .aivchk := by decide
/-- R64: the lowest and the highest reserved bit, and all of them, make a word illegal. -/
theorem test_decode_illegal : decode 0x0000000000000008 = .error .illegalCommand ∧
    decode 0x8000000000000004 = .error .illegalCommand ∧ decode 0xFFFFFFFFFFFFFFFF = .error .illegalCommand := by decide

/-! ### WellFormed: an ill-formed term for each check -/

/-- R61: a word with a reserved bit set is refused by the check on its fields. -/
theorem test_wf_reserved : (CommandFields.mk 1 false false false).wf = false ∧
    (commandFields 0x8000000000000000).wf = false ∧ (CommandFields.mk 0 true true true).wf = true := by decide
/-- R6: a capacity below 2 or above 2^29 is refused, both ends are accepted. -/
theorem test_wf_capacity : ¬ (Config.mk 1 .mockswap).Valid ∧ ¬ (Config.mk (2 ^ 29 + 1) .mockswap).Valid ∧
    tiny.Valid ∧ huge.Valid := by decide

/-! ### One step, against the spec's vectors -/

/-- R113 corner, V9: `LEN` = 12 with a bad key length is `InputDataTooSmall` (`STATUS` 0x12), and the key is cleared. -/
theorem test_wrap_too_small : (after (exec .wrap (idleS small 12 15 []))).map (fun t => (t.status, t.klen)) =
    some (0x12, 0) := by decide
/-- R113: accept of a 16-byte plaintext: `N` = 2, A = A6…A6, position (0, 1), busy. -/
theorem test_wrap_starts : (after (exec .wrap (idleS small 16 16 [(0, 5), (1, 7)]))).map
    (fun t => (t.n, t.buf, t.j, t.i, t.status)) = some (2, [(0, 0xA6A6A6A6A6A6A6A6), (1, 7)], 0, 1, 1) := by decide
/-- R132 corner: L = 20 is `InputDataTooSmall`, not `NotAligned`; L = 25 is `NotAligned`. -/
theorem test_unwrap_order : (after (exec .unwrap (idleS small 20 16 []))).map State.status = some 0x12 ∧
    (after (exec .unwrap (idleS small 25 15 []))).map State.status = some 0x32 := by decide
/-- R133: accept of a 24-byte ciphertext: `N` = 2, position (5, 2), the buffer unchanged. -/
theorem test_unwrap_starts : (after (exec .unwrap (idleS small 24 16 [(0, 5)]))).map
    (fun t => (t.n, t.buf, t.j, t.i, t.status)) = some (2, [(0, 5)], 5, 2, 1) := by decide
/-- R116 example (V8): `466F7250617369` (7 bytes) gives `BUF[0]` = A65959A600000007 and clears the pad byte. -/
theorem test_wrapp_starts : (after (exec .wrapp (idleS small 7 24 [(1, 0x466F7250617369FF)]))).map
    (fun t => (t.n, t.buf, t.status)) = some (1, [(0, 0xA65959A600000007), (1, 0x466F725061736900)], 1) := by decide
/-- R114 corners: L = 0 is `InputDataTooSmall`; one byte more than the buffer holds is `InputDataTooBig`. -/
theorem test_wrapp_bounds : (after (exec .wrapp (idleS small 0 16 []))).map State.status = some 0x12 ∧
    (after (exec .wrapp (idleS small 33 16 []))).map State.status = some 0x22 := by decide
/-- R134 corners: L = 20 is `NotAligned` for the padded form too; L = 16 starts the one-block path. -/
theorem test_unwrapp_alignment : (after (exec .unwrapp (idleS small 20 16 []))).map State.status = some 0x32 ∧
    (after (exec .unwrapp (idleS small 16 16 []))).map (fun t => (t.n, t.status)) = some (1, 1) := by decide
/-- R134 corner: with `NMAX` = 2^29, L = 2^32 + 8 is accepted and L = 2^32 + 9 is `InputDataTooBig`. -/
theorem test_unwrapp_largest : (after (exec .unwrapp (idleS huge 0x100000008 16 []))).map State.status = some 1 ∧
    (after (exec .unwrapp (idleS huge 0x100000009 16 []))).map State.status = some 0x22 := by decide
/-- R95 example: `IVA` = A6A6A6A6A6A6A6A6 and `STATUS` = 0x02. -/
theorem test_ivdef : (after (exec .ivdef (idleS small 0 16 []))).map (fun t => (t.iva, t.status, t.klen)) =
    some (0xA6A6A6A6A6A6A6A6, 0x02, 16) := by decide
/-- R96 example: `LEN` = 20 gives A65959A600000014. -/
theorem test_ivalt : (after (exec .ivalt (idleS small 20 0 []))).map (fun t => (t.iva, t.status)) =
    some (0xA65959A600000014, 0x02) := by decide
/-- R96 corners: 2^32 − 1 is encoded; 2^32 is `Overflow`, with `IVA` and the key length as they were. -/
theorem test_ivalt_bound : (after (exec .ivalt (idleS small 0xFFFFFFFF 0 []))).map State.iva = some 0xA65959A6FFFFFFFF ∧
    (after (exec .ivalt { idleS small 0x100000000 16 [] with iva := 0x1111 })).map
      (fun t => (t.iva, t.status, t.klen)) = some (0x1111, 0x62, 16) := by decide
/-- R97 example: A6…A6 against A6…A7 is no match; a difference in bit 63 alone is none either. -/
theorem test_ivchk_mismatch :
    (after (exec .ivchk { idleS small 0 0 [] with iva := 0xA6A6A6A6A6A6A6A6, ivb := 0xA6A6A6A6A6A6A6A7 })).map
      State.status = some 0x02 ∧
    (after (exec .ivchk { idleS small 0 0 [] with iva := 0xA6A6A6A6A6A6A6A6, ivb := 0x26A6A6A6A6A6A6A6 })).map
      State.status = some 0x02 := by decide
/-- R97 corner: two zero operands match. -/
theorem test_ivchk_match : (after (exec .ivchk (idleS small 0 0 []))).map State.status = some 0x06 := by decide
/-- R99 example: `IVA` = A65959A600000014 and `N` = 3 give `STATUS` 0x06 and `OLEN` 20. -/
theorem test_aivchk : (after (exec .aivchk { idleS small 0 0 [] with iva := 0xA65959A600000014, n := 3 })).map
    (fun t => (t.status, t.olen)) = some (0x06, 20) := by decide
/-- R99 corners: with `N` = 3, M = 16 and M = 25 are refused. -/
theorem test_aivchk_range :
    (after (exec .aivchk { idleS small 0 0 [] with iva := 0xA65959A600000010, n := 3 })).map
      (fun t => (t.status, t.olen)) = some (0x02, 0) ∧
    (after (exec .aivchk { idleS small 0 0 [] with iva := 0xA65959A600000019, n := 3 })).map
      (fun t => (t.status, t.olen)) = some (0x02, 0) := by decide

/-- R64: an illegal word reports 0x82 and keeps the key length. -/
theorem test_illegal_command : (after (stepWith (.host (.write 0 9)) (idleS small 0 16 []))).map
    (fun t => (t.status, t.klen, t.op)) = some (0x82, 16, .wrap) := by decide
/-- R87: a MOCKSWAP wrap step gives A = R[i] xor Kh xor t and R[i] = A_old xor Kl; here Kh = Kl = 0 and t = 1. -/
theorem test_wrap_run_mockswap : (after (stepWith (.engine .ok) (busyS .run .wrap 2 0 1 false [(0, 0xA5), (1, 0x70)]))).map
    (fun t => (t.buf, t.i, t.cf)) = some ([(0, 0x71), (1, 0xA5)], 2, false) := by decide
/-- R138 with R87: in an unwrap step t is xored in before the decryption; here t = 2·5 + 2 = 12. -/
theorem test_unwrap_run_mockswap :
    (after (stepWith (.engine .ok) (busyS .run .unwrap 2 5 2 false [(0, 0x10), (2, 0x70)]))).map
      (fun t => (t.buf, t.j, t.i)) = some ([(0, 0x70), (2, 0x1C)], 5, 1) := by decide
/-- R153: a late error clears `BUF[0..N]` and keeps what stands above. -/
theorem test_late_error : (after (stepWith (.engine .ok) (busyS .fin .wrap 2 5 2 true [(0, 1), (2, 3), (3, 4)]))).map
    (fun t => (t.buf, t.status, t.klen)) = some ([(3, 4)], 0x52, 0) := by decide
/-- R141: M = 9 with n = 2 needs the seven last bytes to be zero. -/
theorem test_unwrapp_padding :
    (after (stepWith (.engine .ok) (busyS .fin .unwrapp 2 0 1 false
      [(0, 0xA65959A600000009), (1, 5), (2, 0x1100000000000000)]))).map (fun t => (t.status, t.olen)) = some (0x02, 9) ∧
    (after (stepWith (.engine .ok) (busyS .fin .unwrapp 2 0 1 false
      [(0, 0xA65959A600000009), (1, 5), (2, 0x1100000000000001)]))).map (fun t => (t.status, t.olen)) = some (0x72, 0) := by
  decide
/-- R41: the first and the last entry of the window, and the word after it (R50). -/
theorem test_window : portOf 4 0x40000000 = .buf 0 ∧ portOf 4 0x40000004 = .buf 4 ∧ portOf 4 0x40000005 = .unmapped ∧
    portOf 4 0x3FFFFFFF = .unmapped ∧ portOf (2 ^ 29) 0x60000000 = .buf (2 ^ 29) := by decide

/-! ### Witnesses: states and operands that meet the hypotheses of each obligation, one per clause, at the ends of its
ranges -/

theorem witness_DecodeAndEncodeAgree : decode 0x7 = .ok .aivchk ∧ decode 0x8 = .error .illegalCommand := by decide

theorem witness_StepRunsTheDecodedCommand :
    (placeCommand State.reset 0x7).agenda = .host (.write 0 0x7) :: [] ∧ decode 0x7 = .ok .aivchk ∧
    (placeCommand State.reset 0x8).agenda = .host (.write 0 0x8) :: [] ∧ decode 0x8 = .error .illegalCommand ∧
    decodeTableWord 64 7 = some .aivchk := by decide

theorem witness_StepTakesTheNextEvent : State.reset.agenda = [] ∧
    ({ State.reset with agenda := [.engine .ok] } : State).agenda = .engine .ok :: [] ∧
    ({ State.reset with agenda := [.host (.read 1)] } : State).agenda = .host (.read 1) :: [] ∧
    ({ State.reset with agenda := [.reset] } : State).agenda = .reset :: [] := by decide

theorem witness_IvdefWritesTheDefaultIv : (idleS small 0 0 []).ph = .idle := rfl

theorem witness_IvaltEncodesTheLength : (idleS small 0xFFFFFFFF 0 []).ph = .idle ∧
    (idleS small 0xFFFFFFFF 0 []).len.toNat ≤ 2 ^ 32 - 1 ∧ 2 ^ 32 - 1 < (idleS small 0x100000000 0 []).len.toNat := by decide

theorem witness_IvchkComparesTheIvs : (idleS small 0 0 []).ph = .idle := rfl

theorem witness_AivchkChecksTheAiv :
    let ok (m n : Int) := 8 * n - 7 ≤ m ∧ m ≤ 8 * n
    (idleS small 0 0 []).ph = .idle ∧ (0xA65959A600000011 : Word).extractLsb' 32 32 = 0xA65959A6 ∧
      (17 : Int) = ((0xA65959A600000011 : Word).extractLsb' 0 32).toNat ∧ ok 17 3 ∧ ok 24 3 ∧ ¬ok 16 3 ∧ ¬ok 25 3 ∧
      (0xA6A6A6A6A6A6A6A6 : Word).extractLsb' 32 32 ≠ 0xA65959A6 := by decide

theorem witness_WrapStarts : (∃ s, Inv s ∧ s.ph = .idle ∧ s.len.toNat = 16 ∧ s.len.toNat = 8 * s.cfg.nmax ∧ s.klen = 16) ∧
    ∃ s, Inv s ∧ s.ph = .idle ∧ s.len.toNat = 2 ^ 32 - 8 ∧ s.len.toNat ≤ 8 * s.cfg.nmax ∧ s.len.toNat % 8 = 0 ∧ s.klen = 32 :=
  ⟨⟨idleS tiny 16 16 [], inv_idle (by decide) _ _, by decide⟩,
    ⟨idleS huge 0xFFFFFFF8 32 [], inv_idle (by decide) _ _, by decide⟩⟩

theorem witness_WrapRefuses : small.Valid ∧ (idleS small 15 0 []).ph = .idle ∧ (idleS small 15 0 []).len.toNat < 16 ∧
    (16 ≤ (idleS tiny 17 0 []).len.toNat ∧ 8 * (idleS tiny 17 0 []).cfg.nmax < (idleS tiny 17 0 []).len.toNat) ∧
    (huge.Valid ∧ 2 ^ 32 - 1 < (idleS huge 0x100000000 0 []).len.toNat) ∧
    ((idleS huge 0xFFFFFFFF 0 []).len.toNat ≤ 2 ^ 32 - 1 ∧ (idleS huge 0xFFFFFFFF 0 []).len.toNat % 8 ≠ 0) ∧
    ((idleS tiny 16 15 []).len.toNat = 16 ∧ ¬((15 : Byte) = 16 ∨ (15 : Byte) = 24 ∨ (15 : Byte) = 32)) := by decide

theorem witness_WrappStarts : (∃ s, Inv s ∧ s.ph = .idle ∧ s.len.toNat = 1 ∧ (s.len.toNat + 7) / 8 = 1 ∧ s.klen = 24) ∧
    ∃ s, Inv s ∧ s.ph = .idle ∧ s.len.toNat = 2 ^ 32 - 1 ∧ (s.len.toNat + 7) / 8 = s.cfg.nmax ∧ s.klen = 16 :=
  ⟨⟨idleS tiny 1 24 [], inv_idle (by decide) _ _, by decide⟩, ⟨idleS huge 0xFFFFFFFF 16 [], inv_idle (by decide) _ _, by decide⟩⟩

theorem witness_WrappRefuses : small.Valid ∧ (idleS small 0 0 []).ph = .idle ∧ (idleS small 0 0 []).len.toNat < 1 ∧
    (1 ≤ (idleS tiny 17 0 []).len.toNat ∧ (idleS tiny 17 0 []).cfg.nmax < ((idleS tiny 17 0 []).len.toNat + 7) / 8) ∧
    2 ^ 32 - 1 < (idleS huge 0x100000000 0 []).len.toNat ∧
    ((idleS tiny 16 33 []).len.toNat ≤ 2 ^ 32 - 1 ∧ ((idleS tiny 16 33 []).len.toNat + 7) / 8 ≤ (idleS tiny 16 33 []).cfg.nmax ∧
      ¬((33 : Byte) = 16 ∨ (33 : Byte) = 24 ∨ (33 : Byte) = 32)) := by decide

theorem witness_UnwrapStarts : (tiny.Valid ∧ (idleS tiny 24 16 []).ph = .idle ∧ (idleS tiny 24 16 []).len.toNat = 8 * (2 + 1)) ∧
    (huge.Valid ∧ (idleS huge 0x100000000 32 []).len.toNat = 8 * ((2 ^ 29 - 1) + 1) ∧ 8 * (2 ^ 29 - 1) ≤ 2 ^ 32 - 1 ∧
      2 ^ 29 - 1 ≤ huge.nmax) := by decide

theorem witness_UnwrapRefuses : small.Valid ∧ (idleS small 23 0 []).ph = .idle ∧ (idleS small 23 0 []).len.toNat < 24 ∧
    (24 ≤ (idleS tiny 25 0 []).len.toNat ∧ 8 * ((idleS tiny 25 0 []).cfg.nmax + 1) < (idleS tiny 25 0 []).len.toNat) ∧
    2 ^ 32 - 1 < (idleS huge 0x100000008 0 []).len.toNat - 8 ∧
    (25 ≤ 8 * (small.nmax + 1) ∧ (idleS small 25 0 []).len.toNat % 8 ≠ 0) ∧
    ((idleS small 24 17 []).len.toNat % 8 = 0 ∧ ¬((17 : Byte) = 16 ∨ (17 : Byte) = 24 ∨ (17 : Byte) = 32)) := by decide

theorem witness_UnwrappStarts : (tiny.Valid ∧ (idleS tiny 16 16 []).ph = .idle ∧ (idleS tiny 16 16 []).len.toNat = 8 * (1 + 1)) ∧
    (huge.Valid ∧ (idleS huge 0x100000008 24 []).len.toNat = 8 * (2 ^ 29 + 1) ∧ 2 ^ 29 ≤ huge.nmax) := by decide

theorem witness_UnwrappRefuses : small.Valid ∧ (idleS small 15 0 []).ph = .idle ∧ (idleS small 15 0 []).len.toNat < 16 ∧
    (16 ≤ (idleS tiny 25 0 []).len.toNat ∧ 8 * ((idleS tiny 25 0 []).cfg.nmax + 1) < (idleS tiny 25 0 []).len.toNat) ∧
    (17 ≤ 8 * (small.nmax + 1) ∧ (idleS small 17 0 []).len.toNat % 8 ≠ 0) ∧
    ((idleS small 16 0 []).len.toNat % 8 = 0 ∧ ¬((0 : Byte) = 16 ∨ (0 : Byte) = 24 ∨ (0 : Byte) = 32)) := by decide

theorem witness_OverflowOnlyFromIvalt : small.Valid ∧ (idleS small 0x100000000 0 []).ph = .idle ∧
    2 ^ 32 ≤ (idleS small 0x100000000 0 []).len.toNat ∧
    (after (exec .ivalt (idleS small 0x100000000 0 []))).map State.err = some (some .overflow) := by decide

theorem witness_BusyLocksTheHostOut : (busyS .run .wrap 2 0 1 false []).ph ≠ .idle ∧ (2 : Addr) ≠ 1 := by decide

theorem witness_MemReadMap : (idleS huge 0 0 []).ph = .idle ∧ huge.nmax ≤ huge.nmax ∧ huge.nmax ≤ 2 ^ 29 ∧
    (11 < (0xC : Addr).toNat ∧ (0xC : Addr).toNat < 0x40000000) ∧ (0x3FFFFFFF : Addr).toNat < 0x40000000 ∧
    0x40000000 + huge.nmax < (0x60000001 : Addr).toNat := by decide

theorem witness_MemWriteMap : (busyS .run .wrap 2 0 1 false []).ph ≠ .idle ∧ decode 7 = .ok .aivchk ∧
    decode 8 = .error .illegalCommand ∧ (idleS huge 0 0 []).ph = .idle ∧ huge.nmax ≤ huge.nmax ∧ huge.nmax ≤ 2 ^ 29 ∧
    (idleS huge 0 0 []).buf.wf = true ∧ (11 < (0xC : Addr).toNat ∧ (0xC : Addr).toNat < 0x40000000) ∧
    0x40000000 + huge.nmax < (0x60000001 : Addr).toNat := by decide

theorem witness_WritesAreIdempotent : ∃ s t, Inv s ∧ (0x40000004 : Addr) ≠ 0 ∧
    stepWith (.host (.write 0x40000004 7)) s = .next t :=
  ⟨idleS small 0 0 [], _, inv_idle (by decide) _ _, by decide, rfl⟩

theorem witness_StatusWordOfEachOutcome : (∃ s, Inv s ∧ s.ph ≠ .idle) ∧ (∃ s, Inv s ∧ s.ph = .idle ∧ s.done = false) ∧
    ∀ e : Option ErrKind, ∃ s, Inv s ∧ s.ph = .idle ∧ s.done = true ∧ s.err = e := by
  refine ⟨⟨busyS .run .wrap 2 0 1 false [], inv_busy false rfl (by decide) (by decide) (by decide), by decide⟩,
    ⟨idleS small 0 0 [], inv_idle (by decide) _ _, by decide⟩, fun e => ?_⟩
  match e with
  | none => exact ⟨doneS .wrap none, inv_doneS (fun _ h => by cases h), rfl, rfl, rfl⟩
  | some .overflow => exact ⟨doneS .ivalt (some .overflow), inv_doneS (by rintro k ⟨⟩; decide), rfl, rfl, rfl⟩
  | some .inputDataTooSmall => exact ⟨doneS .unwrap (some _), inv_doneS (by rintro k ⟨⟩; decide), rfl, rfl, rfl⟩
  | some .inputDataTooBig => exact ⟨doneS .unwrap (some _), inv_doneS (by rintro k ⟨⟩; decide), rfl, rfl, rfl⟩
  | some .inputDataNotAlignedProperly => exact ⟨doneS .unwrap (some _), inv_doneS (by rintro k ⟨⟩; decide), rfl, rfl, rfl⟩
  | some .invalidKeyEncryptionKey => exact ⟨doneS .unwrap (some _), inv_doneS (by rintro k ⟨⟩; decide), rfl, rfl, rfl⟩
  | some .encryptionFailed => exact ⟨doneS .unwrap (some _), inv_doneS (by rintro k ⟨⟩; decide), rfl, rfl, rfl⟩
  | some .integrityCheckingOfInitialValueFailed =>
    exact ⟨doneS .unwrap (some _), inv_doneS (by rintro k ⟨⟩; decide), rfl, rfl, rfl⟩
  | some .illegalCommand => exact ⟨doneS .unwrap (some _), inv_doneS (by rintro k ⟨⟩; decide), rfl, rfl, rfl⟩

theorem witness_IllegalCommandKeepsEverything : (idleS small 0 0 []).ph = .idle ∧ 8 ≤ (8 : Word).toNat := by decide

/-- The three successors of a wrap position: inside a round, at its end, at the end of the last one. -/
theorem witness_WrapRunStep : ∀ p ∈ [((0 : BitVec 3), (1 : BitVec 32)), (4, 2), (5, 2)],
    ∃ s k, Inv s ∧ s.ph = .run ∧ s.op.dir = false ∧ 2 ≤ s.n.toNat ∧ s.key = some k ∧ s.j = p.1 ∧ s.i = p.2 := by
  intro p hp
  fin_cases hp <;>
    exact ⟨busyS .run .wrap 2 _ _ false [], .k128 0, inv_busy false rfl (by decide) (by decide) (by decide), rfl, rfl,
      by decide, rfl, rfl, rfl⟩

/-- The three successors of an unwrap position. -/
theorem witness_UnwrapRunStep : ∀ p ∈ [((5 : BitVec 3), (2 : BitVec 32)), (1, 1), (0, 1)],
    ∃ s k, Inv s ∧ s.ph = .run ∧ s.op.dir = true ∧ 2 ≤ s.n.toNat ∧ s.key = some k ∧ s.j = p.1 ∧ s.i = p.2 := by
  intro p hp
  fin_cases hp <;>
    exact ⟨busyS .run .unwrapp 2 _ _ false [], .k128 0, inv_busy false rfl (by decide) (by decide) (by decide), rfl, rfl,
      by decide, rfl, rfl, rfl⟩

theorem witness_OneBlockRunStep :
    (∃ s k, Inv s ∧ s.ph = .run ∧ s.n.toNat = 1 ∧ s.op = .wrapp ∧ s.key = some k) ∧
    ∃ s k, Inv s ∧ s.ph = .run ∧ s.n.toNat = 1 ∧ s.op = .unwrapp ∧ s.key = some k :=
  ⟨⟨busyS .run .wrapp 1 0 1 false [], .k128 0, inv_busy false rfl (by decide) (by decide) (by decide), rfl, by decide, rfl, rfl⟩,
    ⟨busyS .run .unwrapp 1 5 1 false [], .k128 0, inv_busy false rfl (by decide) (by decide) (by decide), rfl, by decide, rfl, rfl⟩⟩

theorem witness_WrapFinStep : ∀ c : Bool, ∃ s, Inv s ∧ s.ph = .fin ∧ s.op.dir = false ∧ s.cf = c := fun c =>
  ⟨busyS .fin .wrap 2 5 2 c [], inv_busy c rfl (by decide) (by decide) (by decide), rfl, rfl, rfl⟩

theorem witness_UnwrapFinStep : (∃ s, Inv s ∧ s.ph = .fin ∧ s.op = .unwrap ∧ s.cf = true) ∧
    (∃ s, Inv s ∧ s.ph = .fin ∧ s.op = .unwrap ∧ s.cf = false ∧ s.buf.read 0 ≠ 0xA6A6A6A6A6A6A6A6) ∧
    ∃ s, Inv s ∧ s.ph = .fin ∧ s.op = .unwrap ∧ s.cf = false ∧ s.buf.read 0 = 0xA6A6A6A6A6A6A6A6 :=
  ⟨⟨busyS .fin .unwrap 2 0 1 true [], inv_busy true rfl (by decide) (by decide) (by decide), rfl, rfl, rfl⟩,
    ⟨busyS .fin .unwrap 2 0 1 false [], inv_busy false rfl (by decide) (by decide) (by decide), rfl, rfl, rfl, by decide⟩,
    ⟨busyS .fin .unwrap 2 0 1 false [(0, 0xA6A6A6A6A6A6A6A6)],
      inv_busyS false rfl (by decide) (by decide) (by decide) (by decide) (by decide), rfl, rfl, rfl, by decide⟩⟩

theorem witness_UnwrappFinStep : (∃ s, Inv s ∧ s.ph = .fin ∧ s.op = .unwrapp ∧ s.cf = true) ∧
    (∃ s, Inv s ∧ s.ph = .fin ∧ s.op = .unwrapp ∧ s.cf = false ∧ (s.buf.read 0).extractLsb' 32 32 ≠ 0xA65959A6) ∧
    ∃ s, Inv s ∧ s.ph = .fin ∧ s.op = .unwrapp ∧ s.cf = false ∧ (s.buf.read 0).extractLsb' 32 32 = 0xA65959A6 ∧
      s.n.toNat = 2 ∧ ((s.buf.read 0).extractLsb' 0 32).toNat = 9 ∧ ∀ q, 9 ≤ q → q < 8 * 2 → s.buf.byteAt 1 q = 0 :=
  ⟨⟨busyS .fin .unwrapp 2 0 1 true [], inv_busy true rfl (by decide) (by decide) (by decide), rfl, rfl, rfl⟩,
    ⟨busyS .fin .unwrapp 1 0 1 false [], inv_busy false rfl (by decide) (by decide) (by decide), rfl, rfl, rfl, by decide⟩,
    ⟨busyS .fin .unwrapp 2 0 1 false [(0, 0xA65959A600000009)],
      inv_busyS false rfl (by decide) (by decide) (by decide) (by decide) (by decide), rfl, rfl, rfl, by decide, by decide,
      by decide, by intro q h1 h2; interval_cases q <;> decide⟩⟩

theorem witness_CommandsStraightAfterReset : tiny.Valid ∧ huge.Valid ∧ ∀ p ∈ [(Instr.wrap, (16 : Word)), (.unwrap, 24), (.wrapp, 1), (.unwrapp, 16)],
    p.1.isCodec = true ∧
      (after (exec p.1 { State.resetWith tiny with len := p.2, klen := 16 })).map State.ph = some .run := by decide

theorem witness_InvariantHoldsAtReset : tiny.Valid ∧ huge.Valid := by decide

theorem witness_EveryStepKeepsTheInvariant : ∃ s t, Inv s ∧ step s = .next t ∧ t.ph = .run :=
  ⟨{ idleS small 16 16 [] with agenda := [command .wrap] }, _,
    let h := inv_idle (c := small) (by decide) 16 16
    ⟨h.cfg, h.bufWf, h.bufIn, h.pending, h.busyDone, h.errQuiet, h.matchedBy, h.errBy, h.busyOp, h.busyN, h.busyChain,
      h.busyKey, h.runPos⟩, rfl, rfl⟩

theorem witness_NoReachableStepStops : Inv (idleS small 0 0 []) ∧ Inv (busyS .run .wrap 2 0 1 false []) :=
  ⟨inv_idle (by decide) _ _, inv_busy false rfl (by decide) (by decide) (by decide)⟩

theorem witness_OnlyTheseEventsChangeBusy :
    (∃ s t, step s = .next t ∧ s.ph = .idle ∧ t.ph ≠ .idle) ∧
    (∃ s t, step s = .next t ∧ s.ph ≠ .idle ∧ t.ph = .idle ∧ s.agenda = [.reset]) ∧
    ∃ s t, step s = .next t ∧ s.ph = .fin ∧ t.ph = .idle ∧ s.agenda = [] :=
  ⟨⟨{ idleS small 16 16 [] with agenda := [command .wrap] }, _, rfl, by decide⟩,
    ⟨{ busyS .run .wrap 2 0 1 false [] with agenda := [.reset] }, _, rfl, by decide⟩,
    ⟨busyS .fin .wrap 2 5 2 false [], _, rfl, by decide⟩⟩

/-- The first and the last t of a wrap and of an unwrap. -/
theorem witness_StepCounterCountsTheRounds :
    (∃ s u, Inv s ∧ s.ph = .run ∧ 2 ≤ s.n.toNat ∧ s.op.dir = false ∧ s.t = 1 ∧ stepWith (.engine .ok) s = .next u) ∧
    (∃ s u, Inv s ∧ s.ph = .run ∧ 2 ≤ s.n.toNat ∧ s.op.dir = false ∧ s.t = 6 * s.n.toNat ∧ stepWith (.engine .ok) s = .next u) ∧
    (∃ s u, Inv s ∧ s.ph = .run ∧ 2 ≤ s.n.toNat ∧ s.op.dir = true ∧ s.t = 6 * s.n.toNat ∧ stepWith (.engine .ok) s = .next u) ∧
    ∃ s u, Inv s ∧ s.ph = .run ∧ 2 ≤ s.n.toNat ∧ s.op.dir = true ∧ s.t = 1 ∧ stepWith (.engine .ok) s = .next u :=
  ⟨⟨busyS .run .wrap 2 0 1 false [], _, inv_busy false rfl (by decide) (by decide) (by decide), rfl, by decide, rfl, by decide, rfl⟩,
    ⟨busyS .run .wrap 2 5 2 false [], _, inv_busy false rfl (by decide) (by decide) (by decide), rfl, by decide, rfl, by decide, rfl⟩,
    ⟨busyS .run .unwrap 2 5 2 false [], _, inv_busy false rfl (by decide) (by decide) (by decide), rfl, by decide, rfl, by decide, rfl⟩,
    ⟨busyS .run .unwrap 2 0 1 false [], _, inv_busy false rfl (by decide) (by decide) (by decide), rfl, by decide, rfl, by decide, rfl⟩⟩

/-- A schedule with a host write in it, for a command one RUN step before its end and for the one-block path. -/
theorem witness_CommandsTerminate : ∃ pre : List Event, pre.length = 2 ∧ (∀ e ∈ pre, e.noReset = true) ∧
    (∃ s, Inv s ∧ s.ph = .run ∧ s.op = .wrap ∧ engineCount pre = remainingRuns s) ∧
    (∃ s, Inv s ∧ s.ph = .run ∧ s.op = .unwrap ∧ engineCount pre = remainingRuns s) ∧
    ∃ s, Inv s ∧ s.ph = .run ∧ s.n = 1 ∧ engineCount pre = remainingRuns s :=
  ⟨[.host (.write 0 1), .engine .ok], rfl, by decide,
    ⟨busyS .run .wrap 2 5 2 false [], inv_busy false rfl (by decide) (by decide) (by decide), rfl, rfl, by decide⟩,
    ⟨busyS .run .unwrap 2 0 1 false [], inv_busy false rfl (by decide) (by decide) (by decide), rfl, rfl, by decide⟩,
    ⟨busyS .run .wrapp 1 0 1 false [], inv_busy false rfl (by decide) (by decide) (by decide), rfl, rfl, by decide⟩⟩

/-- The schedule of a command of semiblock count n with no host access in it. -/
def plain (n : Nat) (a : BcsAnswer) : List Event := List.replicate (runSteps n) (.engine a)

theorem runSchedule_plain (n : Nat) (a : BcsAnswer) : RunSchedule n (plain n a) := by
  constructor
  · intro e he
    rw [(List.mem_replicate.1 he).2]
    rfl
  · rw [engineCount, plain, List.countP_replicate]
    rfl

theorem allOk_plain (n : Nat) : AllOk (plain n .ok) := by
  intro e he
  rw [(List.mem_replicate.1 he).2]
  rfl

/-- The shortest chaining command and the one-block path, both with a key. -/
theorem witness_TransactionsAreCounted : ∀ p ∈ [(Instr.wrap, (16 : Word)), (.unwrap, 24), (.wrapp, 1), (.unwrapp, 16)],
    ∃ s u k pre, Inv s ∧ s.ph = .idle ∧ p.1.isCodec = true ∧ s.key = some k ∧ exec p.1 s = .next u ∧ u.ph = .run ∧
      RunSchedule u.n.toNat pre := by
  intro p hp
  fin_cases hp
  · exact ⟨idleS small 16 16 [], _, .k128 0, plain _ .ok, inv_idle (by decide) _ _, rfl, rfl, rfl, rfl, rfl, runSchedule_plain _ _⟩
  · exact ⟨idleS small 24 16 [], _, .k128 0, plain _ .ok, inv_idle (by decide) _ _, rfl, rfl, rfl, rfl, rfl, runSchedule_plain _ _⟩
  · exact ⟨idleS small 1 16 [], _, .k128 0, plain _ .ok, inv_idle (by decide) _ _, rfl, rfl, rfl, rfl, rfl, runSchedule_plain _ _⟩
  · exact ⟨idleS small 16 16 [], _, .k128 0, plain _ .ok, inv_idle (by decide) _ _, rfl, rfl, rfl, rfl, rfl, runSchedule_plain _ _⟩

/-- Schedules in which every transaction fails, and in which none does. -/
theorem witness_AnyFailureSurfaces : ∀ a ∈ [BcsAnswer.ok, .failed 0], ∃ s u pre, Inv s ∧ s.ph = .idle ∧
    exec .wrapp s = .next u ∧ u.ph = .run ∧ RunSchedule u.n.toNat pre ∧ (Event.engine a) ∈ pre := by
  intro a _
  exact ⟨idleS small 1 16 [], _, plain _ a, inv_idle (by decide) _ _, rfl, rfl, rfl, runSchedule_plain _ _,
    List.mem_replicate.2 ⟨by decide, rfl⟩⟩

theorem witness_KeyOutlivesNoCodecCommand :
    (∃ s t, s.ph = .idle ∧ exec .wrap s = .next t ∧ t.ph = .idle) ∧
    (∃ s t, step s = .next t ∧ s.ph ≠ .idle ∧ t.ph = .idle) ∧
    (∃ s t, exec .ivdef s = .next t ∧ Instr.ivdef.isCodec = false) ∧
    (∃ s t, exec .wrap s = .next t ∧ t.ph ≠ .idle) ∧
    ∃ s t, stepWith (.engine .ok) s = .next t ∧ t.ph ≠ .idle :=
  ⟨⟨idleS small 0 16 [], _, rfl, rfl, rfl⟩, ⟨busyS .fin .wrap 2 5 2 false [], _, rfl, by decide⟩,
    ⟨idleS small 0 16 [], _, rfl, rfl⟩, ⟨idleS small 16 16 [], _, rfl, by decide⟩,
    ⟨busyS .run .wrap 2 0 1 false [], _, rfl, by decide⟩⟩

theorem witness_KekDoesNotLeakOutsideTheCipher : ∃ s t s' : State, SameButKek s t ∧ s ≠ t ∧ s.ph ≠ .run ∧ step s = .next s' :=
  ⟨{ idleS small 16 16 [] with agenda := [command .wrap] },
    { idleS small 16 16 [] with agenda := [command .wrap], kek0 := 1 }, _, rfl, by decide, by decide, rfl⟩

theorem witness_EngineStepsKeepLenIvbIvaNOp : (∃ s t, exec .unwrapp s = .next t ∧ t.ph = .run) ∧
    ∃ s t, stepWith (.engine .ok) s = .next t ∧ s.ph = .run :=
  ⟨⟨idleS small 16 16 [], _, rfl, rfl⟩, ⟨busyS .run .wrap 2 0 1 false [], _, rfl, rfl⟩⟩

theorem witness_EntriesAboveNAreKept : (∃ s t, Inv s ∧ stepWith (.engine .ok) s = .next t ∧ s.n.toNat < 3) ∧
    (∃ s t, Inv s ∧ exec .wrapp s = .next t ∧ t.n.toNat < 2) ∧
    ∃ s t, Inv s ∧ s.ph = .idle ∧ exec .wrapp s = .next t ∧ t.ph = .idle :=
  ⟨⟨busyS .fin .wrap 2 5 2 true [], _, inv_busy true rfl (by decide) (by decide) (by decide), rfl, by decide⟩,
    ⟨idleS small 1 16 [], _, inv_idle (by decide) _ _, rfl, by decide⟩,
    ⟨idleS small 0 16 [], _, inv_idle (by decide) _ _, rfl, rfl, rfl⟩⟩

theorem witness_PadOperationsByteByByte : 1 ≤ 1 ∧ 7 ≤ 7 ∧ (0 : Nat) < 8 ∧ 7 < 8 ∧ (0 : Nat) ≤ 7 := by decide

theorem witness_UnwrapCoreUndoesWrapCore : ∃ enc dec : Block → Block, ∀ x, dec (enc x) = x := ⟨id, id, fun _ => rfl⟩

theorem witness_ReferenceRoundTrip : (∃ enc dec : Block → Block, ∀ x, dec (enc x) = x) ∧
    (16 ≤ (List.replicate 16 (1 : Byte)).length ∧ (List.replicate 16 (1 : Byte)).length % 8 = 0) ∧
    1 ≤ (List.replicate 1 (1 : Byte)).length := ⟨⟨id, id, fun _ => rfl⟩, by decide, by decide⟩

theorem holdsBytes_zero (n : Nat) : HoldsBytes [] 1 (List.replicate n 0) := by
  intro q hq
  have hz : ∀ k, byteOf 0 k = 0 := fun k => by simp [byteOf]
  rw [Memory.byteAt, Memory.read_nil, hz, List.getD_eq_getElem _ _ hq, List.getElem_replicate]

theorem holdsSemiblocks_zero (n : Nat) : HoldsSemiblocks [] (List.replicate n 0) := by
  intro q hq
  rw [Memory.read_nil, List.getD_eq_getElem _ _ hq, List.getElem_replicate]

theorem witness_WrapAgreesWithReference : ∃ s k p pre, Inv s ∧ s.ph = .idle ∧ s.key = some k ∧ s.len = be64 p.length ∧
    HoldsBytes s.buf 1 p ∧ p.length = 16 ∧ p.length ≤ 8 * s.cfg.nmax ∧ RunSchedule (p.length / 8) pre ∧ AllOk pre :=
  ⟨idleS tiny 16 16 [], .k128 0, List.replicate 16 0, plain 2 .ok, inv_idle (by decide) _ _, rfl, rfl, rfl,
    holdsBytes_zero 16, rfl, by decide, runSchedule_plain 2 _, allOk_plain 2⟩

theorem witness_WrappAgreesWithReference :
    (∃ s k p pre, Inv s ∧ s.ph = .idle ∧ s.key = some k ∧ s.len = be64 p.length ∧ HoldsBytes s.buf 1 p ∧ p.length = 1 ∧
      1 ≤ s.cfg.nmax ∧ RunSchedule 1 pre ∧ AllOk pre) ∧
    ∃ s k p pre, Inv s ∧ s.ph = .idle ∧ s.key = some k ∧ s.len = be64 p.length ∧ HoldsBytes s.buf 1 p ∧ p.length = 9 ∧
      2 ≤ s.cfg.nmax ∧ RunSchedule 2 pre ∧ AllOk pre :=
  ⟨⟨idleS tiny 1 16 [], .k128 0, List.replicate 1 0, plain 1 .ok, inv_idle (by decide) _ _, rfl, rfl, rfl,
      holdsBytes_zero 1, rfl, by decide, runSchedule_plain 1 _, allOk_plain 1⟩,
    ⟨idleS tiny 9 16 [], .k128 0, List.replicate 9 0, plain 2 .ok, inv_idle (by decide) _ _, rfl, rfl, rfl,
      holdsBytes_zero 9, rfl, by decide, runSchedule_plain 2 _, allOk_plain 2⟩⟩

theorem witness_UnwrapAgreesWithReference : ∃ s k c pre, Inv s ∧ s.ph = .idle ∧ s.key = some k ∧ c.length = 2 + 1 ∧
    s.len = be64 (8 * (2 + 1)) ∧ HoldsSemiblocks s.buf c ∧ 2 ≤ s.cfg.nmax ∧ RunSchedule 2 pre ∧ AllOk pre :=
  ⟨idleS tiny 24 16 [], .k128 0, List.replicate 3 0, plain 2 .ok, inv_idle (by decide) _ _, rfl, rfl, rfl, rfl,
    holdsSemiblocks_zero 3, by decide, runSchedule_plain 2 _, allOk_plain 2⟩

theorem witness_UnwrappAgreesWithReference : ∃ s k c pre, Inv s ∧ s.ph = .idle ∧ s.key = some k ∧ c.length = 1 + 1 ∧
    s.len = be64 (8 * (1 + 1)) ∧ HoldsSemiblocks s.buf c ∧ 1 ≤ s.cfg.nmax ∧ RunSchedule 1 pre ∧ AllOk pre :=
  ⟨idleS tiny 16 16 [], .k128 0, List.replicate 2 0, plain 1 .ok, inv_idle (by decide) _ _, rfl, rfl, rfl, rfl,
    holdsSemiblocks_zero 2, by decide, runSchedule_plain 1 _, allOk_plain 1⟩

theorem witness_MachineRoundTrip : ∃ s k pre, Inv s ∧ s.ph = .idle ∧ s.key = some k ∧ BcsInv s.cfg.cipher ∧
    s.len.toNat = 8 * 2 ∧ 2 ≤ s.cfg.nmax ∧ RunSchedule 2 pre ∧ AllOk pre :=
  ⟨idleS tiny 16 16 [], .k128 0, plain 2 .ok, inv_idle (by decide) _ _, rfl, rfl, mockswap_bcsInv, rfl, by decide,
    runSchedule_plain 2 _, allOk_plain 2⟩

theorem witness_MachineRoundTripPadded : ∃ s k pre, Inv s ∧ s.ph = .idle ∧ s.key = some k ∧ BcsInv s.cfg.cipher ∧
    s.len.toNat = 1 ∧ 1 = (s.len.toNat + 7) / 8 ∧ 1 ≤ s.cfg.nmax ∧ RunSchedule 1 pre ∧ AllOk pre :=
  ⟨idleS tiny 1 16 [], .k128 0, plain 1 .ok, inv_idle (by decide) _ _, rfl, rfl, mockswap_bcsInv, rfl, by decide, by decide,
    runSchedule_plain 1 _, allOk_plain 1⟩

/-- A wrap and an unwrap in flight with the mock cipher. -/
theorem witness_MockswapSteps :
    (∃ s k, Inv s ∧ s.ph = .run ∧ 2 ≤ s.n.toNat ∧ s.cfg.cipher = .mockswap ∧ s.key = some k ∧ s.op.dir = false) ∧
    ∃ s k, Inv s ∧ s.ph = .run ∧ 2 ≤ s.n.toNat ∧ s.cfg.cipher = .mockswap ∧ s.key = some k ∧ s.op.dir = true :=
  ⟨⟨busyS .run .wrap 2 0 1 false [], .k128 0, inv_busy false rfl (by decide) (by decide) (by decide), rfl, by decide, rfl, rfl, rfl⟩,
    ⟨busyS .run .unwrap 2 5 2 false [], .k128 0, inv_busy false rfl (by decide) (by decide) (by decide), rfl, by decide, rfl, rfl, rfl⟩⟩

theorem witness_LoadKeyLoadsTheKey : (idleS small 0 0 []).ph = .idle ∧
    ((List.replicate 16 (1 : Byte)).length = 16 ∧ (List.replicate 24 (1 : Byte)).length = 24 ∧
      (List.replicate 32 (1 : Byte)).length = 32) := by decide

theorem witness_LoadPtPlacesThePlaintext : ∃ (s : State) (p : List Byte), Inv s ∧ s.ph = .idle ∧ p.length = 8 * s.cfg.nmax :=
  ⟨idleS tiny 0 0 [], List.replicate 16 0, inv_idle (by decide) _ _, rfl, rfl⟩

theorem witness_BufferIsCanonical : ∃ m m' : Memory, m.wf = true ∧ m'.wf = true ∧ ∀ k, m.read k = m'.read k :=
  ⟨[(0, 1), (3, 2)], [(0, 1), (3, 2)], by decide, by decide, fun _ => rfl⟩

end Sys2Proof.Tests
end

/-! SUPPORT. Proofs of the statements about the state: what an accept step and a step of the engine can leave, said
once, and the obligations O4, O5, O24, O33, O40, O44 to O47 and O60 settled from it. -/

namespace Sys2Proof.Machine

/-! ### What the accept step leaves -/

/-- The buffer that codec command `i` starts on, with semiblock count `n` (R113, R115, R116, R133, R136). -/
def startBuf (i : Instr) (n : Nat) (s : State) : Memory :=
  match i with
  | .wrap => s.buf.write 0 defaultIV
  | .wrapp => (padEntry s.buf n s.len.toNat).write 0 (aivOf s.len.toNat)
  | .unwrap | .unwrapp | .ivdef | .ivchk | .ivalt | .aivchk => s.buf

/-- The state codec command `i` starts in, with semiblock count `n`: an unwrap begins at the last position, a wrap
at the first. -/
def codecStarted (i : Instr) (n : Nat) (s : State) : State :=
  startedState i n (if i.dir then 5 else 0) (if i.dir then n else 1) (startBuf i n s) s

/-- What the validation of codec command `i` has established when it passes with semiblock count `n`. -/
structure Validated (i : Instr) (n : Nat) (s : State) : Prop where
  pos : 1 ≤ n
  cap : n ≤ s.cfg.nmax
  chain : i.pad = false → 2 ≤ n
  key : klenValid s.klen = true

/-- The outcomes of an accept step whose validation establishes `Validated` and whose start leaves `codecStarted`. -/
theorem codecStart_cases {i : Instr} {v : Verdict} {start : Nat → State → State} {s : State}
    (hv : ∀ n, v = .pass n → Validated i n s)
    (hs : ∀ n, start n { s.withdraw with op := i } = codecStarted i n s) :
    (∃ k, codecStart v start { s.withdraw with op := i } = refusedState i k s) ∨
    ∃ n, Validated i n s ∧ codecStart v start { s.withdraw with op := i } = codecStarted i n s := by
  cases v with
  | refuse k => exact .inl ⟨k, rfl⟩
  | pass n => exact .inr ⟨n, hv n rfl, hs n⟩

/-- Everything the accept step of a codec command can do: an early error, or the start of the command with what its
validation has established. -/
theorem exec_codec_cases {i : Instr} {s t : State} (hc : i.isCodec = true) (hp : s.ph = .idle)
    (h : exec i s = .next t) :
    (∃ k, t = refusedState i k s) ∨ ∃ n, Validated i n s ∧ t = codecStarted i n s := by
  rcases isCodec_cases hc with rfl | rfl | rfl | rfl
  · rw [exec, execWrap, accept_idle hp] at h
    cases h
    refine codecStart_cases (fun n hv => ?_) (fun _ => rfl)
    obtain ⟨-, -, h2, hm, -, hk⟩ := wrapVerdict_pass hv
    exact ⟨by omega, hm, fun _ => h2, hk⟩
  · rw [exec, execUnwrap, accept_idle hp] at h
    cases h
    refine codecStart_cases (fun n hv => ?_) (fun _ => rfl)
    obtain ⟨-, h2, hm, -, hk⟩ := unwrapVerdict_pass hv
    exact ⟨by omega, hm, fun _ => h2, hk⟩
  · rw [exec, execWrapp, accept_idle hp] at h
    cases h
    refine codecStart_cases (fun n hv => ?_) (fun _ => rfl)
    obtain ⟨-, h1, hm, -, -, hk⟩ := wrappVerdict_pass hv
    exact ⟨h1, hm, fun hpad => Bool.noConfusion hpad, hk⟩
  · rw [exec, execUnwrapp, accept_idle hp] at h
    cases h
    refine codecStart_cases (fun n hv => ?_) (fun _ => rfl)
    obtain ⟨-, h1, hm, hk⟩ := unwrappVerdict_pass hv
    exact ⟨h1, hm, fun hpad => Bool.noConfusion hpad, hk⟩

/-- The IV unit's commands (R9). -/
theorem ivUnit_cases {i : Instr} (h : i.isCodec = false) :
    i = .ivdef ∨ i = .ivchk ∨ i = .ivalt ∨ i = .aivchk := by
  cases i <;> simp_all [Instr.isCodec, Instr.unit]

/-- Everything the accept step of an IV unit command can do: its results stand in `IVA`, `MATCH`, `ERR` and `OLEN`. -/
theorem exec_ivUnit_cases {i : Instr} {s t : State} (hc : i.isCodec = false) (hp : s.ph = .idle)
    (h : exec i s = .next t) :
    ∃ iva m e l, t = { acceptedState i s with iva := iva, matched := m, err := e, olen := l } := by
  rcases ivUnit_cases hc with rfl | rfl | rfl | rfl
  · rw [exec, execIvdef, accept_idle hp] at h
    cases h
    exact ⟨_, _, _, _, rfl⟩
  · rw [exec, execIvchk, accept_idle hp] at h
    cases h
    exact ⟨_, _, _, _, rfl⟩
  · rw [exec, execIvalt, accept_idle hp] at h
    cases h
    split <;> exact ⟨_, _, _, _, rfl⟩
  · rw [exec, execAivchk, accept_idle hp] at h
    cases h
    exact ⟨_, _, _, _, rfl⟩

/-- Everything a command's word written to `CMD` can do. -/
theorem exec_cases {i : Instr} {s t : State} (h : exec i s = .next t) :
    (s.ph ≠ .idle ∧ t = s) ∨
    (s.ph = .idle ∧ i.isCodec = true ∧ ∃ k, t = refusedState i k s) ∨
    (s.ph = .idle ∧ i.isCodec = true ∧ ∃ n, Validated i n s ∧ t = codecStarted i n s) ∨
    (s.ph = .idle ∧ i.isCodec = false ∧
      ∃ iva m e l, t = { acceptedState i s with iva := iva, matched := m, err := e, olen := l }) := by
  by_cases hp : s.ph = .idle
  · cases hc : i.isCodec with
    | true =>
      rcases exec_codec_cases hc hp h with hk | hn
      · exact .inr (.inl ⟨hp, rfl, hk⟩)
      · exact .inr (.inr (.inl ⟨hp, rfl, hn⟩))
    | false => exact .inr (.inr (.inr ⟨hp, rfl, exec_ivUnit_cases hc hp h⟩))
  · rw [exec_busy hp] at h
    cases h
    exact .inl ⟨hp, rfl⟩

/-! ### What a step of the engine leaves -/

/-- `t` is `s` but for the failure flag, the record of requests, the buffer and the position, and is still busy. -/
structure RunFrame (s t : State) : Prop where
  eq : t = { s with cf := t.cf, requests := t.requests, buf := t.buf, j := t.j, i := t.i, ph := t.ph }
  busy : t.ph ≠ .idle

/-- `t` is `s` after a FIN step: the buffer is kept, or the working area is cleared. -/
def Finished (s t : State) : Prop :=
  ∃ e l buf, (buf = s.buf ∨ buf = s.buf.clearTo s.n.toNat) ∧ t = finishedState e l buf s

/-- A position of the chaining rounds (R206): 0 ≤ `J` ≤ 5 and 1 ≤ `I` ≤ `N`. -/
structure RunPos (s : State) : Prop where
  j : s.j.toNat ≤ 5
  pos : 1 ≤ s.i.toNat
  top : s.i.toNat ≤ s.n.toNat

/-- A machine in the chaining rounds stands at a legal position. -/
theorem Inv.legalPos {s : State} (h : Inv s) (hp : s.ph = .run) (hn : 2 ≤ s.n.toNat) : RunPos s := by
  obtain ⟨hj, hpos, htop⟩ := h.runPos hp hn
  exact ⟨hj, hpos, htop⟩

theorem advanceWrap_busy {s : State} (h : s.ph ≠ .idle) : (advanceWrap s).ph ≠ .idle := by
  rcases advanceWrap_cases s with ⟨-, hs⟩ | ⟨-, -, hs⟩ | ⟨-, -, hs⟩
  all_goals rw [hs]
  exacts [h, h, Phase.noConfusion]

theorem advanceUnwrap_busy {s : State} (h : s.ph ≠ .idle) : (advanceUnwrap s).ph ≠ .idle := by
  rcases advanceUnwrap_cases s with ⟨-, hs⟩ | ⟨-, -, hs⟩ | ⟨-, -, hs⟩
  all_goals rw [hs]
  exacts [h, h, Phase.noConfusion]

theorem wrapRunState_frame {s : State} (h : s.ph ≠ .idle) (k : Key) (y : Block) (f : Bool) :
    RunFrame s (wrapRunState k y f s) := by
  refine ⟨?_, advanceWrap_busy h⟩
  rw [wrapRunState, advanceWrap_frame]

theorem unwrapRunState_frame {s : State} (h : s.ph ≠ .idle) (k : Key) (y : Block) (f : Bool) :
    RunFrame s (unwrapRunState k y f s) := by
  refine ⟨?_, advanceUnwrap_busy h⟩
  rw [unwrapRunState, advanceUnwrap_frame]

theorem oneBlockState_frame (s : State) (d : Dir) (k : Key) (y : Block) (f : Bool) :
    RunFrame s (oneBlockState d k y f s) := ⟨rfl, Phase.noConfusion⟩

theorem runWrap_frame {a : BcsAnswer} {s t : State} (hb : s.ph ≠ .idle) (h : runWrap a s = .next t) :
    RunFrame s t := by
  unfold runWrap at h
  split at h
  · cases h
  · obtain ⟨k, -, rfl⟩ := withBcs_next h
    exact wrapRunState_frame hb ..

theorem runUnwrap_frame {a : BcsAnswer} {s t : State} (hb : s.ph ≠ .idle) (h : runUnwrap a s = .next t) :
    RunFrame s t := by
  unfold runUnwrap at h
  split at h
  · cases h
  · obtain ⟨k, -, rfl⟩ := withBcs_next h
    exact unwrapRunState_frame hb ..

theorem runOneBlock_frame {d : Dir} {a : BcsAnswer} {s t : State} (h : runOneBlock d a s = .next t) : RunFrame s t := by
  unfold runOneBlock at h
  split at h
  · cases h
  · obtain ⟨k, -, rfl⟩ := withBcs_next h
    exact oneBlockState_frame s d k ..

/-- Whatever RUN step is taken, from any state, it leaves all but the position, the buffer, `CF` and the requests. -/
theorem runStep_frame {a : BcsAnswer} {s t : State} (hb : s.ph ≠ .idle) (h : runStep a s = .next t) :
    RunFrame s t := by
  unfold runStep at h
  split at h
  · split at h
    · exact runWrap_frame hb h
    · cases h
  · split at h
    · exact runUnwrap_frame hb h
    · cases h
  · split_ifs at h
    · exact runWrap_frame hb h
    · exact runOneBlock_frame h
  · split_ifs at h
    · exact runUnwrap_frame hb h
    · exact runOneBlock_frame h
  all_goals cases h

theorem finWrap_finished (s : State) : Finished s (finWrap s) := by
  unfold finWrap
  split
  · exact ⟨_, _, _, .inr rfl, rfl⟩
  · exact ⟨_, _, _, .inl rfl, rfl⟩

theorem finUnwrap_finished (s : State) : Finished s (finUnwrap s) := by
  unfold finUnwrap
  split_ifs
  · exact ⟨_, _, _, .inr rfl, rfl⟩
  · exact ⟨_, _, _, .inr rfl, rfl⟩
  · exact ⟨_, _, _, .inl rfl, rfl⟩

theorem finUnwrapp_finished (s : State) : Finished s (finUnwrapp s) := by
  unfold finUnwrapp
  split_ifs
  · exact ⟨_, _, _, .inr rfl, rfl⟩
  · exact ⟨_, _, _, .inr rfl, rfl⟩
  · exact ⟨_, _, _, .inl rfl, rfl⟩

theorem finStep_finished {s t : State} (h : finStep s = .next t) : Finished s t := by
  unfold finStep at h
  split at h
  · cases h
    exact finWrap_finished s
  · cases h
    exact finWrap_finished s
  · cases h
    exact finUnwrap_finished s
  · split at h
    · cases h
    · cases h
      exact finUnwrapp_finished s
  all_goals cases h

/-- Everything a step of the engine can leave, from any state. -/
theorem engineStep_cases {a : BcsAnswer} {s t : State} (h : engineStep a s = .next t) :
    (s.ph = .idle ∧ t = s) ∨ (s.ph = .run ∧ RunFrame s t) ∨ (s.ph = .fin ∧ Finished s t) := by
  unfold engineStep at h
  split at h
  · next hp =>
    cases h
    exact .inl ⟨hp, rfl⟩
  · next hp => exact .inr (.inl ⟨hp, runStep_frame (by rw [hp]; exact Phase.noConfusion) h⟩)
  · next hp => exact .inr (.inr ⟨hp, finStep_finished h⟩)

/-! ### Which agent moves (O4, O5) -/

/-- A step that starts with a write to `CMD` runs the command of the word that stands there. -/
theorem step_command {s : State} {rest : List Event} {w : Word} {i : Instr}
    (ha : s.agenda = .host (.write 0 w) :: rest) (hd : decode w = .ok i) :
    step s = exec i { s with agenda := rest } :=
  (step_cons ha).trans (eventStep_command hd)

/-- The decoder of table words reads the word that `withFetchWord` places. -/
theorem decodeTableWord_some {nbits w : Nat} {i : Instr} (h : decodeTableWord nbits w = some i) :
    decode (BitVec.ofNat 64 (w % 2 ^ nbits)) = .ok i := by
  unfold decodeTableWord at h
  split at h
  · next j hj => rw [hj, Option.some.inj h]
  · cases h

/-- Settles O4: both parts are the step on a listed event, whose agent is the host writing to `CMD`. -/
theorem stepRunsTheDecodedCommand : Obligations.StepRunsTheDecodedCommand :=
  ⟨fun _ _ _ ha => ⟨fun _ hd => step_command ha hd, fun hd => (step_cons ha).trans (eventStep_illegal hd)⟩,
    fun _ _ _ _ h => step_command rfl (decodeTableWord_some h)⟩

/-- Settles O5: one clause per kind of first event, each the step on that event. -/
theorem stepTakesTheNextEvent : Obligations.StepTakesTheNextEvent :=
  fun _ => ⟨step_nil, fun _ _ h => step_cons h, fun _ _ h => step_cons h, fun _ h => step_cons h⟩

/-! ### The `STATUS` word and the reset state (O24, O33) -/

/-- Every bit of `STATUS`, by its place in the concatenation (R20). -/
theorem status_getLsbD (s : State) (k : Nat) :
    s.status.getLsbD k =
      if k = 0 then s.busy else if k = 1 then s.done else if k = 2 then s.matched
      else decide (4 ≤ k) && (errCode s.err).getLsbD (k - 4) := by
  have h : s.status.getLsbD k =
      ((0 : BitVec 56) ++ errCode s.err ++ (0 : BitVec 1) ++ BitVec.ofBool s.matched ++ BitVec.ofBool s.done
        ++ BitVec.ofBool s.busy : BitVec (56 + 4 + 1 + 1 + 1 + 1)).getLsbD k := rfl
  simp only [BitVec.getLsbD_append] at h
  match k with
  | 0 | 1 | 2 | 3 => simpa using h
  | k + 4 =>
    rw [h, if_neg (by omega), if_neg (by omega), if_neg (by omega), if_neg (by omega)]
    by_cases hk : k < 4
    · simp [hk]
    · simp [hk, BitVec.getLsbD_of_ge _ k (by omega : 4 ≤ k)]

/-- From bit 4 up `STATUS` holds the code of `ERR`, and zero above it. -/
theorem status_getLsbD_four_add (s : State) (k : Nat) : s.status.getLsbD (4 + k) = (errCode s.err).getLsbD k := by
  rw [status_getLsbD, if_neg (by omega), if_neg (by omega), if_neg (by omega), Nat.add_sub_cancel_left]
  simp

/-- Settles O24: each clause reads off the bits of the word. -/
theorem statusWordLayout : Obligations.StatusWordLayout := by
  intro s
  have hbit := status_getLsbD s
  have herr : s.status.extractLsb' 4 4 = errCode s.err := by
    refine BitVec.eq_of_getLsbD_eq fun k hk => ?_
    rw [BitVec.getLsbD_extractLsb', status_getLsbD_four_add]
    simp [hk]
  have hzero : s.status.extractLsb' 8 56 = 0 := by
    refine BitVec.eq_of_getLsbD_eq fun k hk => ?_
    rw [BitVec.getLsbD_extractLsb', show 8 + k = 4 + (4 + k) by omega, status_getLsbD_four_add,
      BitVec.getLsbD_of_ge _ _ (Nat.le_add_right 4 k)]
    simp
  have hbusy : s.status.getLsbD 0 = true ↔ s.ph ≠ .idle := by
    rw [hbit, if_pos rfl, State.busy, bne_iff_ne]
  exact ⟨hbusy, hbit 1, hbit 2, hbit 3, herr, hzero⟩

/-- Settles O33: every clause computes. -/
theorem resetValues : Obligations.ResetValues :=
  ⟨rfl, rfl, rfl, rfl, rfl, rfl, rfl, rfl, rfl, rfl, rfl, rfl, rfl, rfl, rfl, rfl, rfl, rfl, rfl,
    fun _ => rfl⟩

/-! ### Registers that the accept step and the engine keep (O46) -/

theorem exec_keeps_len_ivb_iva {i : Instr} {s t : State} (h : exec i s = .next t) :
    t.len = s.len ∧ t.ivb = s.ivb ∧ (i.isCodec = true → t.iva = s.iva) := by
  rcases exec_cases h with ⟨-, rfl⟩ | ⟨-, -, k, rfl⟩ | ⟨-, -, n, -, rfl⟩ | ⟨-, hc, iva, m, e, l, rfl⟩
  · exact ⟨rfl, rfl, fun _ => rfl⟩
  · exact ⟨rfl, rfl, fun _ => rfl⟩
  · exact ⟨rfl, rfl, fun _ => rfl⟩
  · refine ⟨rfl, rfl, fun hc' => ?_⟩
    rw [hc] at hc'
    cases hc'

theorem engineStep_keeps_len_ivb_iva_n_op {a : BcsAnswer} {s t : State} (h : engineStep a s = .next t) :
    t.len = s.len ∧ t.ivb = s.ivb ∧ t.iva = s.iva ∧ t.n = s.n ∧ t.op = s.op := by
  rcases engineStep_cases h with ⟨-, rfl⟩ | ⟨-, hf⟩ | ⟨-, e, l, buf, -, rfl⟩
  · exact ⟨rfl, rfl, rfl, rfl, rfl⟩
  · rw [hf.eq]
    exact ⟨rfl, rfl, rfl, rfl, rfl⟩
  · exact ⟨rfl, rfl, rfl, rfl, rfl⟩

/-- Settles O46: every outcome of an accept step and every outcome of an engine step keeps the registers named. -/
theorem engineStepsKeepLenIvbIvaNOp : Obligations.EngineStepsKeepLenIvbIvaNOp :=
  fun _ _ => ⟨fun _ => exec_keeps_len_ivb_iva, fun _ => engineStep_keeps_len_ivb_iva_n_op⟩

/-! ### The key after a command (O44) -/

/-- The KEK and `KLEN` are zero. -/
def KeyCleared (t : State) : Prop := t.kek0 = 0 ∧ t.kek1 = 0 ∧ t.kek2 = 0 ∧ t.kek3 = 0 ∧ t.klen = 0

/-- The KEK and `KLEN` of `t` are those of `s`. -/
def KeyKept (s t : State) : Prop :=
  t.kek0 = s.kek0 ∧ t.kek1 = s.kek1 ∧ t.kek2 = s.kek2 ∧ t.kek3 = s.kek3 ∧ t.klen = s.klen

theorem KeyKept.refl (s : State) : KeyKept s s := ⟨rfl, rfl, rfl, rfl, rfl⟩

theorem Finished.idle {s t : State} (h : Finished s t) : t.ph = .idle := by
  obtain ⟨e, l, buf, -, rfl⟩ := h
  rfl

theorem Finished.keyCleared {s t : State} (h : Finished s t) : KeyCleared t := by
  obtain ⟨e, l, buf, -, rfl⟩ := h
  exact ⟨rfl, rfl, rfl, rfl, rfl⟩

theorem RunFrame.keyKept {s t : State} (h : RunFrame s t) : KeyKept s t := by
  rw [h.eq]
  exact KeyKept.refl s

/-- A codec command that ends in its accept step clears the key. -/
theorem exec_codec_idle_keyCleared {i : Instr} {s t : State} (hc : i.isCodec = true) (hp : s.ph = .idle)
    (h : exec i s = .next t) (ht : t.ph = .idle) : KeyCleared t := by
  rcases exec_codec_cases hc hp h with ⟨k, rfl⟩ | ⟨n, -, rfl⟩
  · exact ⟨rfl, rfl, rfl, rfl, rfl⟩
  · cases ht

/-- An accept step of the IV unit, and one that leaves the machine busy, keep the key. -/
theorem exec_keyKept {i : Instr} {s t : State} (h : exec i s = .next t) (hi : i.isCodec = false ∨ t.ph ≠ .idle) :
    KeyKept s t := by
  rcases exec_cases h with ⟨-, rfl⟩ | ⟨hp, hc, k, rfl⟩ | ⟨-, -, n, -, rfl⟩ | ⟨-, -, iva, m, e, l, rfl⟩
  · exact KeyKept.refl _
  · rcases hi with hi | hi
    · rw [hc] at hi
      cases hi
    · exact absurd hp hi
  · exact KeyKept.refl s
  · exact KeyKept.refl s

/-- A step of the engine that leaves the machine busy keeps the key. -/
theorem engineStep_keyKept {a : BcsAnswer} {s t : State} (h : engineStep a s = .next t) (ht : t.ph ≠ .idle) :
    KeyKept s t := by
  rcases engineStep_cases h with ⟨-, rfl⟩ | ⟨-, hr⟩ | ⟨-, hf⟩
  · exact KeyKept.refl _
  · exact hr.keyKept
  · exact absurd hf.idle ht

/-- A step of the engine from busy to idle clears the key. -/
theorem engineStep_keyCleared {a : BcsAnswer} {s t : State} (h : engineStep a s = .next t) (hs : s.ph ≠ .idle)
    (ht : t.ph = .idle) : KeyCleared t := by
  rcases engineStep_cases h with ⟨hp, -⟩ | ⟨-, hr⟩ | ⟨-, hf⟩
  · exact absurd hp hs
  · exact absurd ht hr.busy
  · exact hf.keyCleared

/-- Whatever agent moves the machine from busy to idle clears the key. -/
theorem step_keyCleared {s t : State} (h : step s = .next t) (hs : s.ph ≠ .idle) (ht : t.ph = .idle) :
    KeyCleared t := by
  rcases step_cases h with ⟨-, he⟩ | ⟨e, rest, -, he⟩
  · exact engineStep_keyCleared he hs ht
  · match e with
    | .host op =>
      obtain ⟨l, hl⟩ := eventStep_host_busy (s := { s with agenda := rest }) hs op
      rw [hl] at he
      cases he
      exact absurd ht hs
    | .engine a => exact engineStep_keyCleared (s := { s with agenda := rest }) he hs ht
    | .reset =>
      cases he
      exact ⟨rfl, rfl, rfl, rfl, rfl⟩

/-- Settles O44: one lemma per clause, each a case split over what an accept step or an engine step can do. -/
theorem keyOutlivesNoCodecCommand : Obligations.KeyOutlivesNoCodecCommand :=
  fun _ _ => ⟨fun _ => exec_codec_idle_keyCleared, step_keyCleared, fun _ => exec_keyKept,
    fun _ => engineStep_keyKept⟩

/-! ### Entries above N (O47) -/

/-- A write to entry 0 and one to an entry up to `n` leave every entry above `n`. -/
theorem Memory.read_write_write_above {m : Memory} (hm : m.wf = true) {p n k : Nat} (hp : p ≤ n) (hk : n < k)
    (v w : Word) : Memory.read ((m.write 0 v).write p w) k = m.read k := by
  rw [Memory.read_write (Memory.wf_write hm ..), if_neg (by omega), Memory.read_write hm, if_neg (by omega)]

theorem wrapRunState_buf (k : Key) (y : Block) (f : Bool) (s : State) :
    (wrapRunState k y f s).buf = (s.buf.write 0 (hi64 y ^^^ be64 s.t)).write s.i.toNat (lo64 y) := by
  rw [wrapRunState, advanceWrap_frame]

theorem unwrapRunState_buf (k : Key) (y : Block) (f : Bool) (s : State) :
    (unwrapRunState k y f s).buf = (s.buf.write 0 (hi64 y)).write s.i.toNat (lo64 y) := by
  rw [unwrapRunState, advanceUnwrap_frame]

theorem Finished.read_above {s t : State} (h : Finished s t) {k : Nat} (hk : s.n.toNat < k) :
    t.buf.read k = s.buf.read k := by
  obtain ⟨e, l, buf, rfl | rfl, rfl⟩ := h
  · rfl
  · exact (Memory.read_clearTo ..).trans (if_neg (by omega))

/-- The RUN steps write entry 0 and an entry up to N. -/
theorem engineStep_run_read_above {a : BcsAnswer} {s t : State} (hI : Inv s) (hp : s.ph = .run)
    (h : engineStep a s = .next t) {k : Nat} (hk : s.n.toNat < k) : t.buf.read k = s.buf.read k := by
  obtain ⟨key, y, f, -, ⟨-, h2, he⟩ | ⟨-, h2, he⟩ | ⟨h1, d, -, he⟩⟩ := engineStep_run_cases hI hp a
  · rw [he] at h
    cases h
    rw [wrapRunState_buf]
    exact Memory.read_write_write_above hI.bufWf (hI.legalPos hp h2).top hk ..
  · rw [he] at h
    cases h
    rw [unwrapRunState_buf]
    exact Memory.read_write_write_above hI.bufWf (hI.legalPos hp h2).top hk ..
  · rw [he] at h
    cases h
    exact Memory.read_write_write_above hI.bufWf h1.ge hk ..

theorem engineStep_read_above {a : BcsAnswer} {s t : State} (hI : Inv s) (h : engineStep a s = .next t) {k : Nat}
    (hk : s.n.toNat < k) : t.buf.read k = s.buf.read k := by
  rcases engineStep_cases h with ⟨-, rfl⟩ | ⟨hp, -⟩ | ⟨-, hf⟩
  · rfl
  · exact engineStep_run_read_above hI hp h hk
  · exact hf.read_above hk

/-- A start writes entry 0 and, when it pads, entry n. -/
theorem read_startBuf {s : State} (hw : s.buf.wf = true) (i : Instr) {n k : Nat} (hk : n < k) :
    (startBuf i n s).read k = s.buf.read k := by
  cases i
  case wrap => exact (Memory.read_write hw ..).trans (if_neg (by omega))
  case wrapp =>
    refine (Memory.read_write (wf_padEntry hw ..) ..).trans ?_
    rw [if_neg (by omega), read_padEntry hw, if_neg (by omega)]
  all_goals rfl

/-- The semiblock count of a validated command fits `N`. -/
theorem Validated.toNat_n {i : Instr} {n : Nat} {s : State} (h : Validated i n s) (hv : s.cfg.Valid) :
    (codecStarted i n s).n.toNat = n := by
  have hn := h.cap
  have hm := hv.2
  exact Nat.mod_eq_of_lt (by omega)

theorem exec_read_above {i : Instr} {s t : State} (hI : Inv s) (h : exec i s = .next t) {k : Nat}
    (hk : t.n.toNat < k) : t.buf.read k = s.buf.read k := by
  rcases exec_cases h with ⟨-, rfl⟩ | ⟨-, -, e, rfl⟩ | ⟨-, -, n, hn, rfl⟩ | ⟨-, -, iva, m, e, l, rfl⟩
  · rfl
  · rfl
  · rw [hn.toNat_n hI.cfg] at hk
    exact read_startBuf hI.bufWf i hk
  · rfl

/-- An accept step that ends idle writes no entry. -/
theorem exec_idle_buf {i : Instr} {s t : State} (h : exec i s = .next t) (ht : t.ph = .idle) : t.buf = s.buf := by
  rcases exec_cases h with ⟨-, rfl⟩ | ⟨-, -, e, rfl⟩ | ⟨-, -, n, -, rfl⟩ | ⟨-, -, iva, m, e, l, rfl⟩
  · rfl
  · rfl
  · cases ht
  · rfl

/-- Settles O47: what each kind of step writes lies at or below `N`, and only a start writes in an accept step. -/
theorem entriesAboveNAreKept : Obligations.EntriesAboveNAreKept :=
  fun _ _ hI => ⟨fun _ h _ => engineStep_read_above hI h, fun _ h _ => exec_read_above hI h,
    fun _ _ => exec_idle_buf⟩

/-! ### The buffer (O60) -/

/-- The first listed entry of a canonical buffer does not read as an unlisted one. -/
theorem Memory.read_head_ne {lo a : Nat} {v : Word} {m : Memory} (h : Memory.wfFrom lo ((a, v) :: m) = true) :
    Memory.read ((a, v) :: m) a ≠ 0 := by
  rw [Memory.read_cons, if_pos rfl]
  exact ((Memory.wfFrom_cons ..).1 h).2.1

/-- Canonical buffers with equal reads are equal: their first listed entries agree, and then their rests do. -/
theorem Memory.eq_of_read_eq {lo : Nat} {m m' : Memory} (hm : Memory.wfFrom lo m = true)
    (hm' : Memory.wfFrom lo m' = true) (h : ∀ k, m.read k = m'.read k) : m = m' := by
  induction m generalizing lo m' with
  | nil =>
    match m' with
    | [] => rfl
    | (a, v) :: m' => exact absurd (h a).symm (Memory.read_head_ne hm')
  | cons c m ih =>
    obtain ⟨a, v⟩ := c
    match m' with
    | [] => exact absurd (h a) (Memory.read_head_ne hm)
    | (b, w) :: m' =>
      have ha := Memory.read_head_ne hm
      have hb := Memory.read_head_ne hm'
      obtain ⟨-, hv, hmt⟩ := (Memory.wfFrom_cons ..).1 hm
      obtain ⟨-, hw, hmt'⟩ := (Memory.wfFrom_cons ..).1 hm'
      have hab : a = b := by
        rcases lt_trichotomy a b with hlt | heq | hlt
        · refine absurd ?_ ha
          rw [h a]
          exact Memory.read_below ((Memory.wfFrom_cons ..).2 ⟨le_refl b, hw, hmt'⟩) hlt
        · exact heq
        · refine absurd ?_ hb
          rw [← h b]
          exact Memory.read_below ((Memory.wfFrom_cons ..).2 ⟨le_refl a, hv, hmt⟩) hlt
      subst hab
      have hvw : v = w := by simpa [Memory.read_cons] using h a
      have htail : ∀ k, Memory.read m k = Memory.read m' k := fun k => by
        by_cases hk : k = a
        · rw [Memory.read_below hmt (by omega), Memory.read_below hmt' (by omega)]
        · simpa [Memory.read_cons, hk] using h k
      rw [hvw, ih hmt hmt' htail]

/-- Settles O60: reads determine a canonical buffer, and the laws of reads after writes give the rest. -/
theorem bufferIsCanonical : Obligations.BufferIsCanonical :=
  fun _ _ hm hm' => ⟨Memory.eq_of_read_eq hm hm', fun k v =>
    ⟨Memory.wf_write hm k v, by rw [Memory.read_write hm, if_pos rfl],
      fun k' hk => by rw [Memory.read_write hm, if_neg hk]⟩⟩

/-! ### The step counter (O40) -/

theorem be64_toNat {t : Nat} (h : t < 2 ^ 64) : (be64 t).toNat = t := Nat.mod_eq_of_lt h

/-- The xor with a counter below 2^32 leaves the high half of A. -/
theorem xor_be64_high {t : Nat} (h : t < 2 ^ 32) (a : Word) :
    (a ^^^ be64 t).extractLsb' 32 32 = a.extractLsb' 32 32 := by
  have hz : (be64 t).extractLsb' 32 32 = 0 := by
    apply BitVec.eq_of_toNat_eq
    rw [BitVec.extractLsb'_toNat, be64_toNat (by omega), Nat.shiftRight_eq_div_pow, Nat.div_eq_of_lt h]
    rfl
  rw [BitVec.extractLsb'_xor, hz]
  exact BitVec.xor_zero

/-- The rounds before round `J` take no more than 5·N steps. -/
theorem RunPos.mul_le {s : State} (h : RunPos s) : s.n.toNat * s.j.toNat ≤ 5 * s.n.toNat := by
  rw [Nat.mul_comm 5]
  exact Nat.mul_le_mul_left _ h.j

theorem RunPos.t_bounds {s : State} (h : RunPos s) : 1 ≤ s.t ∧ s.t ≤ 6 * s.n.toNat := by
  have hm := h.mul_le
  have := h.pos
  have := h.top
  unfold State.t
  omega

/-- `u` is where a wrap is one RUN step after `s`: in FIN after t = 6·N, otherwise in the same phase with t one more. -/
def CountsUp (s u : State) : Prop :=
  if s.t = 6 * s.n.toNat then u.ph = .fin else u.ph = s.ph ∧ u.t = s.t + 1

/-- `u` is where an unwrap is one RUN step after `s`: in FIN after t = 1, otherwise in the same phase with t one less. -/
def CountsDown (s u : State) : Prop :=
  if s.t = 1 then u.ph = .fin else u.ph = s.ph ∧ u.t + 1 = s.t

/-- A wrap's advance counts up (R118), whatever the RUN step has written before it. -/
theorem advanceWrap_countsUp {s : State} (h : RunPos s) (cf : Bool) (rq : List BcsRequest) (buf : Memory) :
    CountsUp s (advanceWrap { s with cf := cf, requests := rq, buf := buf }) := by
  have hm := h.mul_le
  obtain ⟨hj, hpos, htop⟩ := h
  have hN := s.n.isLt
  rcases advanceWrap_cases { s with cf := cf, requests := rq, buf := buf } with
    ⟨hi, hs⟩ | ⟨hi, hj', hs⟩ | ⟨hi, hj', hs⟩
  all_goals
    rw [hs]
    simp only [CountsUp, State.t, true_and] at *
  · have hi' : (s.i + 1).toNat = s.i.toNat + 1 := BitVec.toNat_add_of_lt (show s.i.toNat + 1 < 2 ^ 32 by omega)
    rw [if_neg (by omega), hi', Nat.add_assoc]
  · have hj1 : (s.j + 1).toNat = s.j.toNat + 1 := BitVec.toNat_add_of_lt (show s.j.toNat + 1 < 2 ^ 3 by omega)
    have hround : s.n.toNat * s.j.toNat + s.n.toNat ≤ s.n.toNat * 5 := Nat.mul_le_mul_left s.n.toNat hj'
    rw [if_neg (by omega), hj1, Nat.mul_add_one]
    show s.n.toNat * s.j.toNat + s.n.toNat + 1 = _
    omega
  · have hlast : s.n.toNat * s.j.toNat = s.n.toNat * 5 := congrArg _ (by omega)
    rw [if_pos (by omega)]
    trivial

/-- An unwrap's advance counts down (R138), whatever the RUN step has written before it. -/
theorem advanceUnwrap_countsDown {s : State} (h : RunPos s) (cf : Bool) (rq : List BcsRequest) (buf : Memory) :
    CountsDown s (advanceUnwrap { s with cf := cf, requests := rq, buf := buf }) := by
  obtain ⟨hj, hpos, htop⟩ := h
  rcases advanceUnwrap_cases { s with cf := cf, requests := rq, buf := buf } with
    ⟨hi, hs⟩ | ⟨hi, hj', hs⟩ | ⟨hi, hj', hs⟩
  all_goals
    rw [hs]
    simp only [CountsDown, State.t, true_and] at *
  · have hi' : (s.i - 1).toNat = s.i.toNat - 1 := BitVec.toNat_sub_of_le (show 1 ≤ s.i.toNat from hpos)
    rw [if_neg (by omega), hi']
    omega
  · obtain ⟨p, hp⟩ : ∃ p, s.j.toNat = p + 1 := Nat.exists_eq_add_one.2 hj'
    have hj1 : (s.j - 1).toNat = p :=
      (BitVec.toNat_sub_of_le (show 1 ≤ s.j.toNat from hj')).trans (Nat.sub_eq_of_eq_add hp)
    rw [hj1, hp, Nat.mul_add_one, if_neg (by omega)]
    omega
  · rw [hj', Nat.mul_zero, if_pos (by omega)]
    trivial

/-- Settles O40: the bounds come from the legal position, and each RUN step ends in the advance of its direction. -/
theorem stepCounterCountsTheRounds : Obligations.StepCounterCountsTheRounds := by
  intro s hI hp h2
  have hpos := hI.legalPos hp h2
  obtain ⟨h1, h6⟩ := hpos.t_bounds
  have hN := hI.busyN (by rw [hp]; exact Phase.noConfusion)
  have hcap := hI.cfg.2
  have hlt : s.t < 2 ^ 32 := by omega
  refine ⟨h1, h6, hlt, be64_toNat (by omega), xor_be64_high hlt, fun u a h => ?_⟩
  rw [← hp]
  obtain ⟨k, y, f, -, ⟨hd, -, he⟩ | ⟨hd, -, he⟩ | ⟨hn, -⟩⟩ := engineStep_run_cases hI hp a
  · cases he.symm.trans h
    exact ⟨fun _ => advanceWrap_countsUp hpos .., fun hd' => absurd (hd.symm.trans hd') Bool.noConfusion⟩
  · cases he.symm.trans h
    exact ⟨fun hd' => absurd (hd'.symm.trans hd) Bool.noConfusion, fun _ => advanceUnwrap_countsDown hpos ..⟩
  · omega

/-! ### The KEK does not leak (O45) -/

/-- `s` with the KEK of `u`. -/
def State.withKek (s u : State) : State := { s with kek0 := u.kek0, kek1 := u.kek1, kek2 := u.kek2, kek3 := u.kek3 }

@[simp] theorem State.withKek_len (s u : State) : (s.withKek u).len = s.len := rfl

theorem sameButKek_iff {s t : State} : SameButKek s t ↔ t = s.withKek t := Iff.rfl

/-- A change of state that does not look at the KEK: from two states that differ in the KEK alone it leaves two such. -/
def KekBlind (f : State → State) : Prop := ∀ s u : State, SameButKek (f s) (f (s.withKek u))

/-- If the first outcome answers a next state, so does the second, and the two states differ in the KEK at most. -/
def SameOutcome (r r' : Result) : Prop := ∀ s', r = .next s' → ∃ t', r' = .next t' ∧ SameButKek s' t'

theorem SameOutcome.next {s t : State} (h : SameButKek s t) : SameOutcome (.next s) (.next t) := by
  rintro _ ⟨⟩
  exact ⟨t, rfl, h⟩

theorem accept_sameOutcome (i : Instr) {body : State → State} (hb : KekBlind body) (s u : State) :
    SameOutcome (accept i body s) (accept i body (s.withKek u)) := by
  by_cases hp : s.ph = .idle
  · rw [accept_idle hp, accept_idle (s := s.withKek u) hp]
    exact .next (hb { s.withdraw with op := i } u)
  · rw [accept_busy hp, accept_busy (s := s.withKek u) hp]
    exact .next rfl

/-- A codec command's accept step validates the capacity, `LEN` and `KLEN`; only its start could look at the KEK. -/
theorem codecStart_kekBlind (v : Config → Nat → Byte → Verdict) {start : Nat → State → State}
    (hs : ∀ n, KekBlind (start n)) : KekBlind fun s => codecStart (v s.cfg s.len.toNat s.klen) start s := by
  intro s u
  show SameButKek (codecStart (v s.cfg s.len.toNat s.klen) start s) (codecStart (v s.cfg s.len.toNat s.klen) start _)
  cases v s.cfg s.len.toNat s.klen with
  | refuse k => rfl
  | pass n => exact hs n s u

theorem exec_sameOutcome (i : Instr) (s u : State) : SameOutcome (exec i s) (exec i (s.withKek u)) := by
  cases i with
  | wrap => exact accept_sameOutcome _ (codecStart_kekBlind wrapVerdict fun _ _ _ => by rfl) s u
  | unwrap => exact accept_sameOutcome _ (codecStart_kekBlind unwrapVerdict fun _ _ _ => by rfl) s u
  | wrapp => exact accept_sameOutcome _ (codecStart_kekBlind wrappVerdict fun _ _ _ => by rfl) s u
  | unwrapp => exact accept_sameOutcome _ (codecStart_kekBlind unwrappVerdict fun _ _ _ => by rfl) s u
  | ivdef =>
    simp only [exec, execIvdef]
    exact accept_sameOutcome _ (fun _ _ => by rfl) s u
  | ivchk =>
    simp only [exec, execIvchk]
    exact accept_sameOutcome _ (fun _ _ => by rfl) s u
  | ivalt =>
    simp only [exec, execIvalt]
    refine accept_sameOutcome _ (fun s u => ?_) s u
    simp only [State.withKek_len]
    cases altIV s.len.toNat <;> rfl
  | aivchk =>
    simp only [exec, execAivchk]
    exact accept_sameOutcome _ (fun _ _ => by rfl) s u

theorem acceptIllegal_sameOutcome (s u : State) : SameOutcome (acceptIllegal s) (acceptIllegal (s.withKek u)) := by
  by_cases hp : s.ph = .idle
  · rw [acceptIllegal_idle hp, acceptIllegal_idle (s := s.withKek u) hp]
    exact .next rfl
  · rw [acceptIllegal_busy hp, acceptIllegal_busy (s := s.withKek u) hp]
    exact .next rfl

/-- No readable word shows the KEK (R14, R42). -/
theorem memRead_withKek (s u : State) (addr : Addr) : memRead (s.withKek u) addr = memRead s addr := by
  have hr : ∀ p, readPort (s.withKek u) p = readPort s p := by
    intro p
    cases p <;> rfl
  unfold memRead
  simp only [hr]
  rfl

theorem writePort_kekBlind (v : Word) (p : Port) : KekBlind fun s => writePort s v p := by
  intro s u
  cases p <;> rfl

theorem hostStep_sameOutcome (op : HostOp) (s u : State) :
    SameOutcome (eventStep s (.host op)) (eventStep (s.withKek u) (.host op)) := by
  match op with
  | .read addr =>
    rw [eventStep_read, eventStep_read, memRead_withKek]
    exact .next rfl
  | .write addr v =>
    by_cases ha : addr = 0
    · subst ha
      cases hd : decode v with
      | ok i =>
        rw [eventStep_command hd, eventStep_command hd]
        exact exec_sameOutcome i s u
      | error e =>
        cases e
        rw [eventStep_illegal hd, eventStep_illegal hd]
        exact acceptIllegal_sameOutcome s u
    · by_cases hp : s.ph = .idle
      · rw [eventStep_write ha, eventStep_write ha, if_pos hp, if_pos (show (s.withKek u).ph = .idle from hp)]
        exact .next (writePort_kekBlind v _ s u)
      · rw [eventStep_write_busy hp, eventStep_write_busy (s := s.withKek u) hp]
        exact .next rfl

/-- A FIN step clears the KEK, so it leaves the same state whatever the KEK was. -/
theorem finStep_withKek (s u : State) : finStep (s.withKek u) = finStep s := by
  have hw : finWrap (s.withKek u) = finWrap s := ite_congr rfl (fun _ => rfl) fun _ => rfl
  have hu : finUnwrap (s.withKek u) = finUnwrap s :=
    ite_congr rfl (fun _ => rfl) fun _ => ite_congr rfl (fun _ => rfl) fun _ => rfl
  have hup : finUnwrapp (s.withKek u) = finUnwrapp s :=
    ite_congr rfl (fun _ => rfl) fun _ => ite_congr rfl (fun _ => rfl) fun _ => rfl
  unfold finStep
  rw [hw, hu, hup]
  rfl

/-- A step of the engine that makes no transaction. -/
theorem engineStep_sameOutcome (a : BcsAnswer) {s : State} (hr : s.ph ≠ .run) (u : State) :
    SameOutcome (engineStep a s) (engineStep a (s.withKek u)) := by
  cases hp : s.ph with
  | idle =>
    rw [engineStep_idle hp, engineStep_idle (s := s.withKek u) hp]
    exact .next rfl
  | run => exact absurd hp hr
  | fin =>
    have he : ∀ s : State, s.ph = .fin → engineStep a s = finStep s := fun s hs => by simp only [engineStep, hs]
    rw [he s hp, he (s.withKek u) hp, finStep_withKek]
    exact fun s' h => ⟨s', h, rfl⟩

theorem eventStep_sameOutcome (e : Event) {s : State} (hr : s.ph ≠ .run) (u : State) :
    SameOutcome (eventStep s e) (eventStep (s.withKek u) e) := by
  match e with
  | .host op => exact hostStep_sameOutcome op s u
  | .engine a => exact engineStep_sameOutcome a hr u
  | .reset => exact .next rfl

theorem step_sameOutcome {s : State} (hr : s.ph ≠ .run) (u : State) : SameOutcome (step s) (step (s.withKek u)) := by
  cases ha : s.agenda with
  | nil =>
    rw [step_nil ha, step_nil (s := s.withKek u) ha]
    exact engineStep_sameOutcome _ hr u
  | cons e rest =>
    rw [step_cons ha, step_cons (s := s.withKek u) ha]
    exact eventStep_sameOutcome e (s := { s with agenda := rest }) hr u

/-- Two states that differ in the KEK alone hold the same record of what the host has read. -/
theorem SameButKek.replies {s t : State} (h : SameButKek s t) : s.replies = t.replies := by
  rw [h]

/-- Settles O45: outside RUN a step from the state with the other KEK answers the same state but for the KEK, and the
host's record of reads is no part of that difference. -/
theorem kekDoesNotLeakOutsideTheCipher : Obligations.KekDoesNotLeakOutsideTheCipher := by
  intro s t s' hst hr hs
  obtain ⟨t', ht, hst'⟩ := step_sameOutcome hr t s' hs
  rw [← sameButKek_iff.1 hst] at ht
  exact ⟨t', ht, hst', hst'.replies⟩

end Sys2Proof.Machine

/-! SUPPORT. Proofs of the statements about the host port: what each address selects, and the obligations O20 to O23
settled from it. -/

namespace Sys2Proof.Machine

/-! ### What an address selects -/

/-- The word address of an existing buffer entry does not wrap, and it selects that entry (R41). -/
theorem portOf_window {nmax k : Nat} (hk : k ≤ nmax) (hn : nmax ≤ 2 ^ 29) :
    portOf nmax (BitVec.ofNat 32 (0x40000000 + k)) = .buf k := by
  have ha : (BitVec.ofNat 32 (0x40000000 + k)).toNat = bufBase + k := by
    rw [BitVec.toNat_ofNat, bufBase]
    omega
  rw [portOf_high (by rw [ha, bufBase]; omega), ha, Nat.add_sub_cancel_left, if_pos ⟨Nat.le_add_right .., hk⟩]

/-- An address above the registers and outside the window selects nothing (R50). -/
theorem portOf_outside {nmax : Nat} {addr : Addr} (hreg : 11 < addr.toNat)
    (hwin : addr.toNat < 0x40000000 ∨ 0x40000000 + nmax < addr.toNat) : portOf nmax addr = .unmapped := by
  rw [portOf_high hreg, if_neg]
  rw [bufBase]
  omega

/-! ### Host reads (O20, O21) -/

/-- `STATUS` is read in every phase (R42). -/
theorem memRead_status (s : State) : memRead s 1 = s.status := rfl

/-- While busy every address but that of `STATUS` reads 0 (R44). -/
theorem memRead_busy {s : State} (hp : s.ph ≠ .idle) {addr : Addr} (ha : addr ≠ 1) : memRead s addr = 0 := by
  unfold memRead
  split
  · next h => exact absurd (portOf_status.1 h) ha
  · rw [if_neg hp]

/-- While idle a read returns what the selected register or entry shows (R42). -/
theorem memRead_idle {s : State} (hp : s.ph = .idle) (addr : Addr) :
    memRead s addr = readPort s (portOf s.cfg.nmax addr) := by
  unfold memRead
  split
  · next h => rw [h, readPort]
  · rw [if_pos hp]

/-- Settles O20: a busy machine ignores every write, and of its registers it shows `STATUS` alone. -/
theorem busyLocksTheHostOut : Obligations.BusyLocksTheHostOut := by
  intro s hp
  refine ⟨fun addr v => ?_, exec_busy hp, fun addr ha => ?_, ?_⟩
  · rw [stepWith_eq, eventStep_write_busy hp]
  · rw [stepWith_eq, eventStep_read, memRead_busy hp ha]
  · rw [stepWith_eq, eventStep_read, memRead_status]

/-- Settles O21: each register is read at its own address, an entry through the window, and nothing elsewhere. -/
theorem memReadMap : Obligations.MemReadMap := by
  intro s hp
  have hr := memRead_idle hp
  refine ⟨fun _ => rfl, hr 1, hr 2, hr 3, hr 4, hr 5, hr 6, hr 7, hr 0, hr 8, hr 9, hr 10, hr 11,
    fun k hk hn => ?_, fun addr hreg hwin => ?_⟩
  · rw [hr, portOf_window hk hn, readPort]
  · rw [hr, portOf_outside hreg hwin, readPort]

/-! ### Host writes (O22, O23) -/

/-- While idle a write to any word but `CMD` writes the selected register or entry (R43). -/
theorem stepWith_write_idle {s : State} (hp : s.ph = .idle) {addr : Addr} (ha : addr ≠ 0) (v : Word) :
    stepWith (.host (.write addr v)) s = .next (writePort s v (portOf s.cfg.nmax addr)) := by
  rw [stepWith_eq, eventStep_write ha, if_pos hp]

/-- An address that does not select `CMD` is not the address of `CMD`. -/
theorem ne_zero_of_portOf {nmax : Nat} {addr : Addr} {p : Port} (h : portOf nmax addr = p) (hc : p ≠ .cmd) :
    addr ≠ 0 := fun ha => hc (h.symm.trans (portOf_cmd.2 ha))

/-- Settles O22: a busy machine ignores the write; an idle one runs the word written to `CMD`, and otherwise writes
what the address selects, a buffer entry by the law of reads after writes. -/
theorem memWriteMap : Obligations.MemWriteMap := by
  intro s v
  refine ⟨fun hp addr => eventStep_write_busy hp addr v, fun hp => ?_⟩
  have hw : ∀ addr : Addr, addr ≠ 0 →
      stepWith (.host (.write addr v)) s = .next (writePort s v (portOf s.cfg.nmax addr)) :=
    fun _ ha => stepWith_write_idle hp ha v
  refine ⟨fun i hd => eventStep_command hd, fun hd => eventStep_illegal hd,
    hw 1 (by decide), hw 2 (by decide), hw 3 (by decide), hw 4 (by decide), hw 5 (by decide), hw 6 (by decide),
    hw 7 (by decide), hw 8 (by decide), hw 9 (by decide), hw 10 (by decide), hw 11 (by decide),
    fun k hk hn hm => ⟨s.buf.write k v, ?_, ?_, fun k' hk' => ?_⟩, fun addr hreg hwin => ?_⟩
  · have hport := portOf_window hk hn
    rw [hw _ (ne_zero_of_portOf hport nofun), hport, writePort]
  · rw [Memory.read_write hm, if_pos rfl]
  · rw [Memory.read_write hm, if_neg hk']
  · have hport := portOf_outside hreg hwin
    rw [hw _ (ne_zero_of_portOf hport nofun), hport, writePort]

/-- Writing one value twice to an entry is writing it once. -/
theorem Memory.write_write_same {m : Memory} (hm : m.wf = true) (k : Nat) (v : Word) :
    (m.write k v).write k v = m.write k v := by
  have hm' := Memory.wf_write hm k v
  refine Memory.eq_of_read_eq (Memory.wf_write hm' k v) hm' fun k' => ?_
  rw [Memory.read_write hm', Memory.read_write hm]
  split <;> rfl

/-- A host write changes neither the phase nor the parameters. -/
theorem writePort_ph_cfg (s : State) (v : Word) (p : Port) :
    (writePort s v p).ph = s.ph ∧ (writePort s v p).cfg = s.cfg := by
  cases p <;> exact ⟨rfl, rfl⟩

/-- A register keeps nothing but the value written; a buffer entry too, in a canonical buffer. -/
theorem writePort_writePort_same {s : State} (hm : s.buf.wf = true) (v : Word) (p : Port) :
    writePort (writePort s v p) v p = writePort s v p := by
  cases p with
  | buf k => simp only [writePort, Memory.write_write_same hm]
  | _ => rfl

/-- Settles O23: the second write selects the same register and writes the same value; while busy neither write does
anything. -/
theorem writesAreIdempotent : Obligations.WritesAreIdempotent := by
  intro s t addr v hI ha hs
  by_cases hp : s.ph = .idle
  · cases (stepWith_write_idle hp ha v).symm.trans hs
    obtain ⟨hph, hcfg⟩ := writePort_ph_cfg s v (portOf s.cfg.nmax addr)
    rw [stepWith_write_idle (hph.trans hp) ha, hcfg, writePort_writePort_same hI.bufWf]
  · cases (eventStep_write_busy hp addr v).symm.trans hs
    exact eventStep_write_busy hp addr v

end Sys2Proof.Machine

/-! SUPPORT. Proofs of the statements about the encodings and the byte forms: command words, the bus tuple, `STATUS`,
pad bytes and the host's key and plaintext loads, and the obligations O1, O2, O3, O25, O26, O48, O58 and O59 settled
from them. -/

namespace Sys2Proof.Machine

/-! ### Fields of a word -/

/-- A bit is a field of width one. -/
theorem ofBool_getLsbD {n : Nat} (x : BitVec n) (i : Nat) : BitVec.ofBool (x.getLsbD i) = x.extractLsb' i 1 := by
  rw [BitVec.getLsbD_eq_extractLsb']
  generalize x.extractLsb' i 1 = y
  revert y
  decide

/-- Two adjacent fields are one field; the upper one's start is written as a sum, so that a rewrite names its place. -/
theorem extractLsb'_append_next {n : Nat} (x : BitVec n) (start len len' : Nat) :
    x.extractLsb' (start + len) len' ++ x.extractLsb' start len = x.extractLsb' start (len' + len) :=
  BitVec.extractLsb'_append_extractLsb'_eq_extractLsb' rfl

/-- A field of a field. -/
theorem extractLsb'_extractLsb' {n start len start' len' : Nat} (x : BitVec n) (h : start' + len' ≤ len) :
    (x.extractLsb' start len).extractLsb' start' len' = x.extractLsb' (start + start') len' := by
  ext i hi
  simp [show start' + i < len by omega, Nat.add_assoc]

theorem extractLsb'_eq_zero_iff {n start len : Nat} {x : BitVec n} :
    x.extractLsb' start len = 0 ↔ ∀ i < len, x.getLsbD (start + i) = false := by
  rw [BitVec.eq_of_getLsbD_eq_iff]
  refine forall₂_congr fun i hi => ?_
  simp [hi]

/-! ### Command words (O1, O2) -/

/-- A command is determined by its three fields (R62). -/
theorem instrOfFields_eq_iff {u p d : Bool} {i : Instr} :
    instrOfFields u p d = i ↔ u = i.unit ∧ p = i.pad ∧ d = i.dir := by
  constructor
  · have hfields : ∀ u p d, u = (instrOfFields u p d).unit ∧ p = (instrOfFields u p d).pad ∧
        d = (instrOfFields u p d).dir := by decide
    rintro rfl
    exact hfields u p d
  · rintro ⟨rfl, rfl, rfl⟩
    cases i <;> rfl

/-- A command word is its reserved field and its three fields (R61). -/
theorem append_commandFields (w : Word) :
    w.extractLsb' 3 61 ++
      (BitVec.ofBool (w.getLsbD 2) ++ BitVec.ofBool (w.getLsbD 1) ++ BitVec.ofBool (w.getLsbD 0)) = w := by
  rw [ofBool_getLsbD, ofBool_getLsbD, ofBool_getLsbD, extractLsb'_append_next w 1 1 1, extractLsb'_append_next w 0 1 2]
  exact (extractLsb'_append_next w 0 3 61).trans BitVec.extractLsb'_eq_self

/-- The reserved field is zero in the words below 8, and in no others. -/
theorem reserved_eq_zero_iff {w : Word} : w.extractLsb' 3 61 = 0 ↔ w.toNat < 8 := by
  have hw := w.isLt
  have hz : (0 : BitVec 61).toNat = 0 := rfl
  rw [← BitVec.toNat_inj, BitVec.extractLsb'_toNat, Nat.shiftRight_eq_div_pow, hz]
  omega

/-- Decoding looks at the reserved field first, and then at `UNIT PAD DIR` (R61, R62, R64). -/
theorem decode_eq_ite (w : Word) :
    decode w = if w.extractLsb' 3 61 = 0 then .ok (instrOfFields (w.getLsbD 2) (w.getLsbD 1) (w.getLsbD 0))
      else .error .illegalCommand := by
  rw [decode, CommandFields.wf]
  simp only [beq_iff_eq]
  rfl

theorem decode_eq_ok_iff {w : Word} {i : Instr} :
    decode w = .ok i ↔
      w.extractLsb' 3 61 = 0 ∧ w.getLsbD 2 = i.unit ∧ w.getLsbD 1 = i.pad ∧ w.getLsbD 0 = i.dir := by
  rw [decode_eq_ite]
  split
  · next h => rw [Except.ok.injEq, instrOfFields_eq_iff, and_iff_right h]
  · next h => exact ⟨nofun, fun hf => absurd hf.1 h⟩

theorem decode_eq_error_iff {w : Word} : decode w = .error .illegalCommand ↔ 8 ≤ w.toNat := by
  rw [decode_eq_ite, ← not_lt, ← reserved_eq_zero_iff]
  split
  · next h => exact ⟨nofun, fun hn => absurd h hn⟩
  · next h => exact ⟨fun _ => h, fun _ => rfl⟩

/-- A word that decodes to a command is that command's word: its fields are the command's. -/
theorem eq_encode_of_decode {w : Word} {i : Instr} (h : decode w = .ok i) : w = encode i := by
  obtain ⟨hrsv, hunit, hpad, hdir⟩ := decode_eq_ok_iff.1 h
  rw [← append_commandFields w, hrsv, hunit, hpad, hdir, encode, Instr.opcode]

/-- Every command's word decodes to the command, by the law of each command. -/
theorem decode_encode (i : Instr) : decode (encode i) = .ok i :=
  match i with
  | .wrap => Laws.RoundTrip.wrap.1
  | .unwrap => Laws.RoundTrip.unwrap.1
  | .wrapp => Laws.RoundTrip.wrapp.1
  | .unwrapp => Laws.RoundTrip.unwrapp.1
  | .ivdef => Laws.RoundTrip.ivdef.1
  | .ivchk => Laws.RoundTrip.ivchk.1
  | .ivalt => Laws.RoundTrip.ivalt.1
  | .aivchk => Laws.RoundTrip.aivchk.1

/-- Settles O2: a word is its fields, and decoding succeeds exactly when the reserved one is zero. -/
theorem decodeAndEncodeAgree : Obligations.DecodeAndEncodeAgree :=
  ⟨decode_encode, fun _ => ⟨fun _ => eq_encode_of_decode, fun _ => decode_eq_ok_iff, decode_eq_error_iff⟩⟩

/-- Settles O1: the eight words are the encoder's words of the eight commands. -/
theorem opcodeTableWords : Obligations.OpcodeTableWords :=
  ⟨decode_encode .wrap, decode_encode .unwrap, decode_encode .wrapp, decode_encode .unwrapp,
    decode_encode .ivdef, decode_encode .ivchk, decode_encode .ivalt, decode_encode .aivchk⟩

/-! ### The bus tuple (O3) -/

theorem busTxOfTuple_tuple (x : BusTx) : busTxOfTuple x.tuple = x := by
  have hrw : x.tuple.getLsbD 96 = x.rw := by
    refine (BitVec.getLsbD_append (x := BitVec.ofBool x.rw ++ x.addr) (y := x.data)).trans ?_
    rw [if_neg (by decide), BitVec.getLsbD_append, if_neg (by decide)]
    exact BitVec.getLsbD_ofBool ..
  have haddr : x.tuple.extractLsb' 64 32 = x.addr :=
    (BitVec.extractLsb'_append_eq_of_le (Nat.le_refl 64)).trans BitVec.extractLsb'_append_eq_right
  have hdata : x.tuple.extractLsb' 0 64 = x.data := BitVec.extractLsb'_append_eq_right
  rw [busTxOfTuple, hrw, haddr, hdata]

theorem tuple_busTxOfTuple (b : BitVec 97) : (busTxOfTuple b).tuple = b := by
  rw [busTxOfTuple, BusTx.tuple, ofBool_getLsbD, extractLsb'_append_next b 64 32 1]
  exact (extractLsb'_append_next b 0 64 33).trans BitVec.extractLsb'_eq_self

/-- Settles O3: the tuple is the three fields side by side. -/
theorem busTupleRoundTrip : Obligations.BusTupleRoundTrip := ⟨busTxOfTuple_tuple, tuple_busTxOfTuple⟩

/-! ### The outcome words (O25, O26) -/

theorem errCode_le (e : Option ErrKind) : (errCode e).toNat ≤ 8 := by
  match e with
  | none => decide
  | some k => cases k <;> decide

theorem busy_eq_false {s : State} (hp : s.ph = .idle) : s.busy = false := by
  rw [State.busy, hp]
  rfl

/-- While busy the host sees `BUSY` alone: no result is reported before `DONE`. -/
theorem status_of_busy {s : State} (hI : Inv s) (hp : s.ph ≠ .idle) : s.status = 0x01 := by
  have hd := hI.busyDone hp
  obtain ⟨hm, he, -⟩ := hI.pending hd
  rw [State.status, he, hm, hd, State.busy, bne_iff_ne.2 hp]
  rfl

/-- While idle with no result to report, `STATUS` is zero. -/
theorem status_of_pending {s : State} (hI : Inv s) (hp : s.ph = .idle) (hd : s.done = false) : s.status = 0x00 := by
  obtain ⟨hm, he, -⟩ := hI.pending hd
  rw [State.status, he, hm, hd, busy_eq_false hp]
  rfl

/-- A command that completed without error reports `DONE` and `MATCH`. -/
theorem status_of_success {s : State} (hp : s.ph = .idle) (hd : s.done = true) (he : s.err = none) :
    s.status = if s.matched then 0x06 else 0x02 := by
  rw [State.status, he, hd, busy_eq_false hp]
  cases s.matched <;> rfl

/-- A command that ended in an error reports `DONE` and the code of the kind. -/
theorem status_of_error {s : State} {k : ErrKind} (hp : s.ph = .idle) (hd : s.done = true) (hm : s.matched = false)
    (he : s.err = some k) : s.status = (0 : BitVec 56) ++ k.code ++ (2 : BitVec 4) := by
  rw [State.status, he, hm, hd, busy_eq_false hp]
  cases k <;> rfl

/-- Settles O25: the report is withdrawn until `DONE`, and an error comes with `MATCH` = 0; so the fields of `STATUS`
are fixed by the outcome. -/
theorem statusWordOfEachOutcome : Obligations.StatusWordOfEachOutcome := by
  intro s hI
  obtain ⟨-, -, -, -, hcode, -⟩ := statusWordLayout s
  refine ⟨hcode ▸ errCode_le s.err, status_of_busy hI, status_of_pending hI, fun hp hd => ?_⟩
  have herr : ∀ k, s.err = some k → s.status = (0 : BitVec 56) ++ k.code ++ (2 : BitVec 4) := fun k he =>
    status_of_error hp hd (hI.errQuiet (by rw [he]; nofun)).1 he
  exact ⟨status_of_success hp hd, herr _, herr _, herr _, herr _, herr _, herr _, herr _, herr _⟩

/-- Settles O26: the word is illegal, and the accept step of an illegal word changes the report alone. -/
theorem illegalCommandKeepsEverything : Obligations.IllegalCommandKeepsEverything := by
  intro s w hp hw
  refine ⟨s.withdraw.raiseEarly .illegalCommand, ?_, status_of_error (k := .illegalCommand) hp rfl rfl rfl, rfl⟩
  rw [stepWith_eq, eventStep_illegal (decode_eq_error_iff.2 hw), acceptIllegal_idle hp]

/-! ### Bytes of a semiblock (O48) -/

/-- The bytes of the pad mask: all ones for the first r, zero for the rest. -/
theorem byteOf_padMask : ∀ r ≤ 7, ∀ k < 8, byteOf (padMask r) k = if k < r then BitVec.allOnes 8 else 0 := by
  decide

theorem byteOf_and_padMask (w : Word) {r k : Nat} (hr : r ≤ 7) (hk : k < 8) :
    byteOf (w &&& padMask r) k = if k < r then byteOf w k else 0 := by
  have hand : byteOf (w &&& padMask r) k = byteOf w k &&& byteOf (padMask r) k := BitVec.extractLsb'_and
  rw [hand, byteOf_padMask r hr k hk]
  split
  · exact BitVec.and_allOnes
  · exact BitVec.and_zero

/-- The last b bytes are the low 8·b bits: bit i lies in byte 7 − i div 8. -/
theorem padZero_iff {w : Word} {b : Nat} (hb : b ≤ 8) :
    padZero w b = true ↔ ∀ k, 8 ≤ k + b → k < 8 → byteOf w k = 0 := by
  simp only [padZero, byteOf, beq_iff_eq, extractLsb'_eq_zero_iff]
  constructor
  · intro h k hkb hk i hi
    have hbit := h (56 - 8 * k + i) (by omega)
    rwa [Nat.zero_add] at hbit
  · intro h i hi
    have hbit := h (7 - i / 8) (by omega) (by omega) (i % 8) (by omega)
    rwa [show 56 - 8 * (7 - i / 8) + i % 8 = 0 + i by omega] at hbit

/-- Settles O48: the mask acts byte by byte, and the trailing bytes are the low bits. -/
theorem padOperationsByteByByte : Obligations.PadOperationsByteByByte :=
  ⟨fun w _ _ _ hr hk => byteOf_and_padMask w hr hk, fun _ _ hb => padZero_iff (by omega)⟩

/-! ### Words of a byte sequence -/

theorem byteOf_wordOfBytes (b : Nat → Byte) {k : Nat} (hk : k < 8) : byteOf (wordOfBytes b) k = b k := by
  show BitVec.extractLsb' (56 - 8 * k) 8
    (b 0 ++ b 1 ++ b 2 ++ b 3 ++ b 4 ++ b 5 ++ b 6 ++ b 7 : BitVec (8 + 8 + 8 + 8 + 8 + 8 + 8 + 8)) = b k
  interval_cases k <;>
    simp only [Nat.reduceMul, Nat.reduceSub, Nat.reduceLeDiff, Nat.le_refl, BitVec.extractLsb'_append_eq_of_le,
      BitVec.extractLsb'_append_eq_right, BitVec.extractLsb'_eq_self]

/-- Byte p of a sequence is byte p mod 8 of its word p div 8 (R71). -/
theorem byteOf_wordAt (b : List Byte) (p : Nat) : byteOf (wordAt b (p / 8)) (p % 8) = b.getD p 0 := by
  rw [wordAt, byteOf_wordOfBytes _ (Nat.mod_lt p (by decide)), Nat.div_add_mod]

/-! ### A host's writes, one after another -/

/-- The state after writes to registers and buffer entries, in order. -/
def writeAll (s : State) (ws : List (Port × Word)) : State := ws.foldl (fun s w => writePort s w.2 w.1) s

theorem writeAll_append (s : State) (ws ws' : List (Port × Word)) :
    writeAll s (ws ++ ws') = writeAll (writeAll s ws) ws' := List.foldl_append

/-- Writes to words other than `CMD`, while idle, write the registers and entries named. -/
theorem runAgenda_writes {s : State} (hp : s.ph = .idle) {ws : List (Port × Word)}
    (hws : ∀ w ∈ ws, portOf s.cfg.nmax (portAddr w.1) = w.1 ∧ w.1 ≠ .cmd) :
    runAgenda { s with agenda := ws.map fun w => wr w.1 w.2 } = .next { writeAll s ws with agenda := [] } := by
  induction ws generalizing s with
  | nil => exact runAgenda_nil rfl
  | cons w ws ih =>
    obtain ⟨⟨hport, hcmd⟩, hrest⟩ := List.forall_mem_cons.1 hws
    obtain ⟨hph, hcfg⟩ := writePort_ph_cfg s w.2 w.1
    have hstep : eventStep s (wr w.1 w.2) = .next (writePort s w.2 w.1) := by
      rw [wr, eventStep_write (ne_zero_of_portOf hport hcmd), if_pos hp, hport]
    rw [List.map_cons, runAgenda_cons hstep]
    exact ih (hph.trans hp) (hcfg ▸ hrest)

/-! ### LOADKEY (O58) -/

/-- The KEK register that holds bytes 8q to 8q + 7 of a key. -/
def State.kekWord (s : State) : Nat → Word
  | 0 => s.kek0
  | 1 => s.kek1
  | 2 => s.kek2
  | _ => s.kek3

theorem kekv_word (s : State) {q : Nat} (hq : q < 4) : s.kekv.extractLsb' (192 - 64 * q) 64 = s.kekWord q := by
  show BitVec.extractLsb' (192 - 64 * q) 64 (s.kek0 ++ s.kek1 ++ s.kek2 ++ s.kek3 : BitVec (64 + 64 + 64 + 64)) = _
  interval_cases q <;>
    simp only [Nat.reduceMul, Nat.reduceSub, Nat.reduceLeDiff, Nat.le_refl, BitVec.extractLsb'_append_eq_of_le,
      BitVec.extractLsb'_append_eq_right, BitVec.extractLsb'_eq_self, State.kekWord]

theorem kekv_byte (s : State) {p : Nat} (hp : p < 32) :
    s.kekv.extractLsb' (248 - 8 * p) 8 = byteOf (s.kekWord (p / 8)) (p % 8) := by
  rw [← kekv_word s (by omega : p / 8 < 4), byteOf, extractLsb'_extractLsb' _ (by omega),
    show 192 - 64 * (p / 8) + (56 - 8 * (p % 8)) = 248 - 8 * p by omega]

/-- `KEY` is the leading bytes of the KEK registers, for each key length (R14). -/
theorem keyByte_of_key {s : State} {k : Key} (h : s.key = some k) {p : Nat} (hp : p < keyBytes k) :
    keyByte k p = byteOf (s.kekWord (p / 8)) (p % 8) := by
  unfold State.key at h
  split_ifs at h
  · cases h
    have hp : p < 16 := hp
    rw [← kekv_byte s (by omega), keyByte, extractLsb'_extractLsb' _ (by omega),
      show 128 + (120 - 8 * p) = 248 - 8 * p by omega]
  · cases h
    have hp : p < 24 := hp
    rw [← kekv_byte s (by omega), keyByte, extractLsb'_extractLsb' _ (by omega),
      show 64 + (184 - 8 * p) = 248 - 8 * p by omega]
  · cases h
    exact kekv_byte s hp

/-- `s` with the key `kb` in its key registers. -/
def keyLoaded (kb : List Byte) (s : State) : State :=
  { s with klen := (be64 kb.length).setWidth 8, kek0 := wordAt kb 0, kek1 := wordAt kb 1, kek2 := wordAt kb 2,
           kek3 := wordAt kb 3 }

theorem runAgenda_loadKey {s : State} (hp : s.ph = .idle) (kb : List Byte) :
    runAgenda { s with agenda := loadKey kb } = .next { keyLoaded kb s with agenda := [] } := by
  refine runAgenda_writes hp (ws := [(.klen, be64 kb.length), (.kek0, wordAt kb 0), (.kek1, wordAt kb 1),
    (.kek2, wordAt kb 2), (.kek3, wordAt kb 3)]) ?_
  simp only [List.forall_mem_cons, List.not_mem_nil, false_imp_iff, implies_true, and_true]
  exact ⟨⟨rfl, nofun⟩, ⟨rfl, nofun⟩, ⟨rfl, nofun⟩, ⟨rfl, nofun⟩, ⟨rfl, nofun⟩⟩

theorem keyLoaded_kekWord (kb : List Byte) (s : State) {q : Nat} (hq : q < 4) :
    (keyLoaded kb s).kekWord q = wordAt kb q := by
  interval_cases q <;> rfl

/-- `KLEN` holds the length of any key of less than 256 bytes. -/
theorem keyLoaded_klen_toNat {kb : List Byte} (h : kb.length < 256) (s : State) :
    (keyLoaded kb s).klen.toNat = kb.length := by
  rw [keyLoaded, BitVec.toNat_setWidth, be64_toNat (by omega), Nat.mod_eq_of_lt h]

theorem keyLoaded_klenValid {kb : List Byte} (h : kb.length = 16 ∨ kb.length = 24 ∨ kb.length = 32) (s : State) :
    klenValid (keyLoaded kb s).klen = true := by
  rw [keyLoaded]
  rcases h with h | h | h <;> rw [h] <;> rfl

/-- Settles O58: the five writes put the key's words in place, and `KEY` is the leading bytes of those words. -/
theorem loadKeyLoadsTheKey : Obligations.LoadKeyLoadsTheKey := by
  intro s kb hp hlen
  obtain ⟨k, hk⟩ := Option.isSome_iff_exists.1 ((key_isSome (keyLoaded kb s)).trans (keyLoaded_klenValid hlen s))
  have hklen := keyLoaded_klen_toNat (by omega : kb.length < 256) s
  have hbytes : keyBytes k = kb.length := (key_some_klen hk).symm.trans hklen
  refine ⟨_, k, runAgenda_loadKey hp kb, rfl, hklen, hk, hbytes, fun p hpl => ?_⟩
  rw [keyByte_of_key hk (by omega), keyLoaded_kekWord kb s (by omega), byteOf_wordAt]

/-! ### LOADPT (O59) -/

/-- The buffer with `f 0` to `f (n - 1)` written from entry `start` up. -/
def Memory.fill (m : Memory) (start : Nat) (f : Nat → Word) : Nat → Memory
  | 0 => m
  | n + 1 => (m.fill start f n).write (start + n) (f n)

theorem Memory.wf_fill {m : Memory} (hm : m.wf = true) (start : Nat) (f : Nat → Word) (n : Nat) :
    (m.fill start f n).wf = true := by
  induction n with
  | zero => exact hm
  | succ n ih => exact Memory.wf_write ih ..

/-- Filling writes its own entries and keeps every other one. -/
theorem Memory.read_fill {m : Memory} (hm : m.wf = true) (start : Nat) (f : Nat → Word) (n k : Nat) :
    (m.fill start f n).read k = if start ≤ k ∧ k < start + n then f (k - start) else m.read k := by
  induction n with
  | zero => rw [Memory.fill, if_neg (by omega)]
  | succ n ih =>
    rw [Memory.fill, Memory.read_write (Memory.wf_fill hm start f n), ih]
    by_cases hk : k = start + n
    · rw [if_pos hk, if_pos (by omega), hk, Nat.add_sub_cancel_left]
    · rw [if_neg hk]
      exact if_congr (by omega) rfl rfl

/-- Writes to consecutive entries of the buffer fill it. -/
theorem writeAll_range_buf (s : State) (start : Nat) (f : Nat → Word) (n : Nat) :
    writeAll s ((List.range n).map fun q => (.buf (start + q), f q)) = { s with buf := s.buf.fill start f n } := by
  induction n with
  | zero => rfl
  | succ n ih =>
    rw [List.range_succ, List.map_append, writeAll_append, ih]
    rfl

/-- The writes that LOADPT stands for. -/
def ptWrites (p : List Byte) : List (Port × Word) :=
  ((List.range (ceil8 p.length)).map fun q => (.buf (1 + q), wordAt p q)) ++ [(.len, be64 p.length)]

theorem loadPt_eq_map (p : List Byte) : loadPt p = (ptWrites p).map fun w => wr w.1 w.2 := by
  rw [ptWrites, List.map_append, List.map_map]
  rfl

theorem writeAll_ptWrites (s : State) (p : List Byte) :
    writeAll s (ptWrites p) =
      { s with len := be64 p.length, buf := s.buf.fill 1 (wordAt p) (ceil8 p.length) } := by
  rw [ptWrites, writeAll_append, writeAll_range_buf]
  rfl

/-- LOADPT writes existing entries of the buffer and `LEN`. -/
theorem portOf_ptWrites {nmax : Nat} (hcfg : nmax ≤ 2 ^ 29) {p : List Byte} (hn : ceil8 p.length ≤ nmax) :
    ∀ w ∈ ptWrites p, portOf nmax (portAddr w.1) = w.1 ∧ w.1 ≠ .cmd := by
  intro w hw
  rcases List.mem_append.1 hw with hw | hw
  · obtain ⟨q, hq, rfl⟩ := List.mem_map.1 hw
    have hq := List.mem_range.1 hq
    exact ⟨portOf_window (by omega) hcfg, nofun⟩
  · obtain rfl := List.mem_singleton.1 hw
    exact ⟨rfl, nofun⟩

theorem runAgenda_loadPt {s : State} (hp : s.ph = .idle) (hcfg : s.cfg.nmax ≤ 2 ^ 29) {p : List Byte}
    (hn : ceil8 p.length ≤ s.cfg.nmax) :
    runAgenda { s with agenda := loadPt p } =
      .next { s with agenda := [], len := be64 p.length, buf := s.buf.fill 1 (wordAt p) (ceil8 p.length) } := by
  rw [loadPt_eq_map, runAgenda_writes hp (portOf_ptWrites hcfg hn), writeAll_ptWrites]

/-- A buffer filled with the words of a byte sequence holds the sequence. -/
theorem Memory.holdsBytes_fill {m : Memory} (hm : m.wf = true) (start : Nat) (p : List Byte) :
    HoldsBytes (m.fill start (wordAt p) (ceil8 p.length)) start p := by
  intro q hq
  have hq8 : q / 8 < ceil8 p.length := by
    rw [ceil8]
    omega
  rw [Memory.byteAt, Memory.read_fill hm, if_pos (by omega), Nat.add_sub_cancel_left, byteOf_wordAt]

/-- Settles O59: the writes fill entries 1 to ceil8 of the length with the words of the plaintext. -/
theorem loadPtPlacesThePlaintext : Obligations.LoadPtPlacesThePlaintext := by
  intro s p hI hp hlen
  have hn : ceil8 p.length ≤ s.cfg.nmax := by
    rw [ceil8]
    omega
  refine ⟨_, _, runAgenda_loadPt hp hI.cfg.2 hn, rfl, Memory.holdsBytes_fill hI.bufWf 1 p, ?_, fun q hq => ?_⟩
  · rw [Memory.read_fill hI.bufWf, if_neg (by omega)]
  · rw [Memory.read_fill hI.bufWf, if_neg (by omega)]

end Sys2Proof.Machine

/-! SUPPORT. Proofs of the statements about the block cipher port: what the events of a schedule add up to while a
command is in flight, and the obligations O42, O43 and O49 settled from it. -/

namespace Sys2Proof.Machine

/-! ### The invariant while a command is in flight -/

/-- The steps still to come and the host's record are no part of the invariant. -/
theorem Inv.of_records {s : State} (h : Inv s) (l : List Event) (r : List Word) :
    Inv { s with agenda := l, replies := r } := { h with }

theorem busy_of_run {s : State} (hp : s.ph = .run) : s.ph ≠ .idle := by
  rw [hp]
  exact Phase.noConfusion

theorem busy_of_fin {s : State} (hp : s.ph = .fin) : s.ph ≠ .idle := by
  rw [hp]
  exact Phase.noConfusion

/-- The error report is empty while a command is in flight. -/
theorem Inv.busy_report {s : State} (h : Inv s) (hb : s.ph ≠ .idle) : s.matched = false ∧ s.err = none := by
  obtain ⟨hm, he, -⟩ := h.pending (h.busyDone hb)
  exact ⟨hm, he⟩

theorem wf_startBuf {s : State} (hw : s.buf.wf = true) (i : Instr) (n : Nat) : (startBuf i n s).wf = true := by
  cases i
  case wrap => exact Memory.wf_write hw ..
  case wrapp => exact Memory.wf_write (wf_padEntry hw ..) ..
  all_goals exact hw

theorem bound_startBuf {b n : Nat} {s : State} (hm : ∀ c ∈ s.buf, c.1 ≤ b) (hn : n ≤ b) (i : Instr) :
    ∀ c ∈ startBuf i n s, c.1 ≤ b := by
  cases i
  case wrap => exact Memory.bound_write hm (Nat.zero_le b) _
  case wrapp => exact Memory.bound_write (bound_padEntry hm hn _) (Nat.zero_le b) _
  all_goals exact hm

/-- A wrap starts at `J` = 0, `I` = 1 (R113). -/
theorem codecStarted_wrap {i : Instr} (hd : i.dir = false) (n : Nat) (s : State) :
    (codecStarted i n s).j = 0 ∧ (codecStarted i n s).i = 1 := by
  rw [codecStarted, hd]
  exact ⟨rfl, rfl⟩

/-- An unwrap starts at `J` = 5, `I` = N (R133). -/
theorem codecStarted_unwrap {i : Instr} (hd : i.dir = true) (n : Nat) (s : State) :
    (codecStarted i n s).j = 5 ∧ (codecStarted i n s).i = (codecStarted i n s).n := by
  rw [codecStarted, hd]
  exact ⟨rfl, rfl⟩

theorem codecStarted_pos {i : Instr} {n : Nat} {s : State} (hn : 1 ≤ (codecStarted i n s).n.toNat) :
    RunPos (codecStarted i n s) := by
  cases hd : i.dir with
  | false =>
    obtain ⟨hj, hi⟩ := codecStarted_wrap hd n s
    exact ⟨hj ▸ Nat.zero_le 5, hi ▸ Nat.le_refl 1, hi ▸ hn⟩
  | true =>
    obtain ⟨hj, hi⟩ := codecStarted_unwrap hd n s
    exact ⟨hj ▸ Nat.le_refl 5, hi ▸ hn, hi ▸ Nat.le_refl _⟩

/-- The start of a validated codec command meets the invariant. -/
theorem codecStarted_inv {i : Instr} {n : Nat} {s : State} (h : Inv s) (hc : i.isCodec = true)
    (hv : Validated i n s) : Inv (codecStarted i n s) :=
  have hN := hv.toNat_n h.cfg
  have hpos := codecStarted_pos (hN.symm ▸ hv.pos)
  { cfg := h.cfg
    bufWf := wf_startBuf h.bufWf i n
    bufIn := bound_startBuf h.bufIn hv.cap i
    pending := fun _ => ⟨rfl, rfl, rfl⟩
    busyDone := fun _ => rfl
    errQuiet := fun _ => ⟨rfl, rfl⟩
    matchedBy := nofun
    errBy := nofun
    busyOp := fun _ => hc
    busyN := fun _ => hN.symm ▸ ⟨hv.pos, hv.cap⟩
    busyChain := fun _ hpad => hN.symm ▸ hv.chain hpad
    busyKey := fun _ => hv.key
    runPos := fun _ _ => ⟨hpos.j, hpos.pos, hpos.top⟩ }

/-- A codec command whose accept step leads to RUN has passed its validation. -/
theorem exec_codec_run {i : Instr} {s u : State} (hc : i.isCodec = true) (hp : s.ph = .idle)
    (h : exec i s = .next u) (hu : u.ph = .run) : ∃ n, Validated i n s ∧ u = codecStarted i n s := by
  rcases exec_codec_cases hc hp h with ⟨k, rfl⟩ | hn
  · cases hp.symm.trans hu
  · exact hn

/-- The advance of a wrap ends at a legal position. -/
theorem advanceWrap_pos {s : State} (h : RunPos s) : RunPos (advanceWrap s) := by
  obtain ⟨hj, hpos, htop⟩ := h
  have hN := s.n.isLt
  rcases advanceWrap_cases s with ⟨hi, hs⟩ | ⟨-, hj5, hs⟩ | ⟨-, -, hs⟩
  all_goals rw [hs]
  · have hi' : (s.i + 1).toNat = s.i.toNat + 1 := BitVec.toNat_add_of_lt (show s.i.toNat + 1 < 2 ^ 32 by omega)
    exact ⟨hj, hi' ▸ Nat.le_add_left .., hi' ▸ hi⟩
  · have hj' : (s.j + 1).toNat = s.j.toNat + 1 := BitVec.toNat_add_of_lt (show s.j.toNat + 1 < 2 ^ 3 by omega)
    exact ⟨hj' ▸ hj5, Nat.le_refl 1, hpos.trans htop⟩
  · exact ⟨hj, hpos, htop⟩

/-- The advance of an unwrap ends at a legal position. -/
theorem advanceUnwrap_pos {s : State} (h : RunPos s) : RunPos (advanceUnwrap s) := by
  obtain ⟨hj, hpos, htop⟩ := h
  rcases advanceUnwrap_cases s with ⟨hi, hs⟩ | ⟨-, hj0, hs⟩ | ⟨-, -, hs⟩
  all_goals rw [hs]
  · have hi' : (s.i - 1).toNat = s.i.toNat - 1 := BitVec.toNat_sub_of_le (show 1 ≤ s.i.toNat from hpos)
    exact ⟨hj, hi' ▸ Nat.le_sub_one_of_lt hi, hi' ▸ (Nat.sub_le ..).trans htop⟩
  · have hj' : (s.j - 1).toNat = s.j.toNat - 1 := BitVec.toNat_sub_of_le (show 1 ≤ s.j.toNat from hj0)
    exact ⟨hj' ▸ (Nat.sub_le ..).trans hj, hpos.trans htop, Nat.le_refl _⟩
  · exact ⟨hj, hpos, htop⟩

/-- A RUN step keeps the invariant if it writes entry 0 and one entry up to N and leaves a legal position. -/
theorem RunFrame.inv {s t : State} (hf : RunFrame s t) (hI : Inv s) (hp : s.ph = .run) {p : Nat} {v w : Word}
    (hpn : p ≤ s.n.toNat) (hbuf : t.buf = (s.buf.write 0 v).write p w)
    (hpos : t.ph = .run → 2 ≤ s.n.toNat → RunPos t) : Inv t := by
  have hb := busy_of_run hp
  obtain ⟨hN1, hcap⟩ := hI.busyN hb
  have hn : t.n = s.n := by rw [hf.eq]
  have hwf : t.buf.wf = true := hbuf ▸ Memory.wf_write (Memory.wf_write hI.bufWf ..) ..
  have hin : ∀ c ∈ t.buf, c.1 ≤ s.cfg.nmax :=
    hbuf ▸ Memory.bound_write (Memory.bound_write hI.bufIn (Nat.zero_le _) v) (hpn.trans hcap) w
  have hrun : t.ph = .run → 2 ≤ s.n.toNat → t.j.toNat ≤ 5 ∧ 1 ≤ t.i.toNat ∧ t.i.toNat ≤ s.n.toNat := by
    intro hr h2
    obtain ⟨hj, hi, htop⟩ := hpos hr h2
    exact ⟨hj, hi, hn ▸ htop⟩
  rw [hf.eq]
  exact { hI with
    bufWf := hwf
    bufIn := hin
    busyDone := fun _ => hI.busyDone hb
    busyOp := fun _ => hI.busyOp hb
    busyN := fun _ => ⟨hN1, hcap⟩
    busyChain := fun _ => hI.busyChain hb
    busyKey := fun _ => hI.busyKey hb
    runPos := hrun }

/-! ### The RUN steps still to come -/

theorem remainingRuns_fin {s : State} (hp : s.ph = .fin) : remainingRuns s = 0 := by
  rw [remainingRuns, hp]

theorem remainingRuns_oneBlock {s : State} (hp : s.ph = .run) (hn : s.n.toNat = 1) : remainingRuns s = 1 := by
  rw [remainingRuns, hp]
  exact if_pos hn

theorem remainingRuns_wrap {s : State} (hp : s.ph = .run) (h2 : 2 ≤ s.n.toNat) (hd : s.op.dir = false) :
    remainingRuns s = 6 * s.n.toNat + 1 - s.t := by
  rw [remainingRuns, hp]
  simp only [hd, if_neg (show ¬ s.n.toNat = 1 by omega), Bool.false_eq_true, if_false]

theorem remainingRuns_unwrap {s : State} (hp : s.ph = .run) (h2 : 2 ≤ s.n.toNat) (hd : s.op.dir = true) :
    remainingRuns s = s.t := by
  rw [remainingRuns, hp]
  simp only [hd, if_neg (show ¬ s.n.toNat = 1 by omega), if_true]

/-- In phase RUN at least one RUN step is still to come. -/
theorem remainingRuns_pos {s : State} (hI : Inv s) (hp : s.ph = .run) : 1 ≤ remainingRuns s := by
  by_cases h2 : 2 ≤ s.n.toNat
  · obtain ⟨h1, h6⟩ := (hI.legalPos hp h2).t_bounds
    cases hd : s.op.dir with
    | false =>
      rw [remainingRuns_wrap hp h2 hd]
      omega
    | true =>
      rw [remainingRuns_unwrap hp h2 hd]
      exact h1
  · have hN := hI.busyN (busy_of_run hp)
    rw [remainingRuns_oneBlock hp (by omega)]

/-- A command in flight with no RUN step still to come is in FIN. -/
theorem fin_of_remainingRuns {s : State} (hI : Inv s) (hb : s.ph ≠ .idle) (h0 : remainingRuns s = 0) : s.ph = .fin := by
  cases hp : s.ph with
  | idle => exact absurd hp hb
  | run =>
    have := remainingRuns_pos hI hp
    omega
  | fin => rfl

/-- A command in flight with a RUN step still to come is in RUN. -/
theorem run_of_remainingRuns {s : State} (hb : s.ph ≠ .idle) (h1 : 1 ≤ remainingRuns s) : s.ph = .run := by
  cases hp : s.ph with
  | idle => exact absurd hp hb
  | run => rfl
  | fin =>
    rw [remainingRuns_fin hp] at h1
    omega

/-- A step that counts t up in a wrap is one of the RUN steps still to come. -/
theorem CountsUp.remaining {s t : State} (h : CountsUp s t) (hpos : RunPos s) (hp : s.ph = .run) (h2 : 2 ≤ s.n.toNat)
    (hd : s.op.dir = false) (hn : t.n = s.n) (ho : t.op = s.op) : remainingRuns t + 1 = remainingRuns s := by
  obtain ⟨h1, h6⟩ := hpos.t_bounds
  rw [remainingRuns_wrap hp h2 hd]
  unfold CountsUp at h
  split at h
  · rw [remainingRuns_fin h]
    omega
  · obtain ⟨hph, ht⟩ := h
    rw [remainingRuns_wrap (hph.trans hp) (hn ▸ h2) (ho ▸ hd), hn, ht]
    omega

/-- A step that counts t down in an unwrap is one of the RUN steps still to come. -/
theorem CountsDown.remaining {s t : State} (h : CountsDown s t) (hp : s.ph = .run) (h2 : 2 ≤ s.n.toNat)
    (hd : s.op.dir = true) (hn : t.n = s.n) (ho : t.op = s.op) : remainingRuns t + 1 = remainingRuns s := by
  rw [remainingRuns_unwrap hp h2 hd]
  unfold CountsDown at h
  split at h
  · next h1 => rw [remainingRuns_fin h, h1]
  · obtain ⟨hph, ht⟩ := h
    rw [remainingRuns_unwrap (hph.trans hp) (hn ▸ h2) (ho ▸ hd), ht]

/-- The start of a command has all its RUN steps to come (R85, R122). -/
theorem remainingRuns_codecStarted {i : Instr} {n : Nat} {s : State} (hv : Validated i n s)
    (hN : (codecStarted i n s).n.toNat = n) : remainingRuns (codecStarted i n s) = runSteps n := by
  have h1 := hv.pos
  by_cases hn : n = 1
  · rw [remainingRuns_oneBlock rfl (hN.trans hn), runSteps, if_pos hn]
  · have h2 : 2 ≤ (codecStarted i n s).n.toNat := by omega
    rw [runSteps, if_neg hn]
    cases hd : i.dir with
    | false =>
      obtain ⟨hj, hi⟩ := codecStarted_wrap hd n s
      rw [remainingRuns_wrap rfl h2 hd, State.t, hN, hj, hi]
      rfl
    | true =>
      obtain ⟨hj, hi⟩ := codecStarted_unwrap hd n s
      rw [remainingRuns_unwrap rfl h2 hd, State.t, hi, hN, hj]
      show n * 5 + n = 6 * n
      omega

/-! ### What a schedule adds up to -/

/-- The request is the one R84 asks of the command in flight: with its key, in its direction. -/
def OwnRequest (s : State) (r : BcsRequest) : Prop :=
  s.key = some r.key ∧ r.dir = if s.op.dir then .decrypt else .encrypt

/-- `t` is a state of the command in flight in `s` after the events `evs`: each engine event among them was a RUN step
that made one transaction, and `CF` has collected their failures (R83, R84, R85). -/
structure Progress (evs : List Event) (s t : State) : Prop where
  inv : Inv t
  busy : t.ph ≠ .idle
  op : t.op = s.op
  n : t.n = s.n
  key : t.key = s.key
  left : remainingRuns t + engineCount evs = remainingRuns s
  cf : t.cf = true ↔ s.cf = true ∨ ∃ e ∈ evs, e.okAnswer = false
  requests : ∃ rs, t.requests = rs ++ s.requests ∧ rs.length = engineCount evs ∧ ∀ r ∈ rs, OwnRequest s r
  above : ∀ q, s.n.toNat < q → t.buf.read q = s.buf.read q

theorem engineCount_append (l l' : List Event) : engineCount (l ++ l') = engineCount l + engineCount l' :=
  List.countP_append

/-- Two stretches of a schedule make one. -/
theorem Progress.trans {l l' : List Event} {s t u : State} (h : Progress l s t) (h' : Progress l' t u) :
    Progress (l ++ l') s u := by
  obtain ⟨rs, hrs, hlen, hown⟩ := h.requests
  obtain ⟨rs', hrs', hlen', hown'⟩ := h'.requests
  have hown : ∀ r ∈ rs' ++ rs, OwnRequest s r := fun r hr => by
    rcases List.mem_append.1 hr with hr | hr
    · have hr := hown' r hr
      rwa [OwnRequest, h.key, h.op] at hr
    · exact hown r hr
  exact
    { inv := h'.inv
      busy := h'.busy
      op := h'.op.trans h.op
      n := h'.n.trans h.n
      key := h'.key.trans h.key
      left := by
        have := h.left
        have := h'.left
        rw [engineCount_append]
        omega
      cf := by rw [h'.cf, h.cf, or_assoc]; simp only [List.mem_append, or_and_right, exists_or]
      requests := ⟨rs' ++ rs, by rw [hrs', hrs, List.append_assoc],
        by rw [List.length_append, hlen, hlen', engineCount_append, Nat.add_comm], hown⟩
      above := fun q hq => (h'.above q (h.n ▸ hq)).trans (h.above q hq) }

/-- Events that are no step of the engine change the records at most. -/
theorem progress_records {evs : List Event} {s : State} (hI : Inv s) (hb : s.ph ≠ .idle) (hc : engineCount evs = 0)
    (hok : ∀ e ∈ evs, e.okAnswer = true) (l : List Event) (r : List Word) :
    Progress evs s { s with agenda := l, replies := r } where
  inv := hI.of_records l r
  busy := hb
  op := rfl
  n := rfl
  key := rfl
  left := by rw [hc]; rfl
  cf := ⟨.inl, fun h => h.elim id fun ⟨e, he, hf⟩ => Bool.noConfusion ((hok e he).symm.trans hf)⟩
  requests := ⟨[], rfl, hc.symm, nofun⟩
  above := fun _ _ => rfl

/-- A RUN step is progress if it writes entry 0 and one entry up to N, leaves a legal position, is one of the steps
still to come, makes one transaction of the command and notes whether it failed. -/
theorem RunFrame.progress {a : BcsAnswer} {s t : State} (hf : RunFrame s t) (hI : Inv s) (hp : s.ph = .run) {p : Nat}
    {v w : Word} (hpn : p ≤ s.n.toNat) (hbuf : t.buf = (s.buf.write 0 v).write p w)
    (hpos : t.ph = .run → 2 ≤ s.n.toNat → RunPos t) (hleft : remainingRuns t + 1 = remainingRuns s)
    (hcf : t.cf = (s.cf || !(Event.engine a).okAnswer)) {r : BcsRequest} (hreq : t.requests = r :: s.requests)
    (hr : OwnRequest s r) : Progress [.engine a] s t where
  inv := hf.inv hI hp hpn hbuf hpos
  busy := hf.busy
  op := by rw [hf.eq]
  n := by rw [hf.eq]
  key := by rw [hf.eq]; rfl
  left := hleft
  cf := by rw [hcf]; simp
  requests := ⟨[r], hreq, rfl, List.forall_mem_singleton.2 hr⟩
  above := fun q hq => by rw [hbuf]; exact Memory.read_write_write_above hI.bufWf hpn hq v w

/-- A transaction reports success exactly when the service's answer is `ok` (R81). -/
theorem bcsCall_fst (c : Cipher) (d : Dir) (k : Key) (x : Block) (a : BcsAnswer) :
    (bcsCall c d k x a).1 = (Event.engine a).okAnswer := by
  cases a <;> rfl

theorem wrapRunState_cf (k : Key) (y : Block) (f : Bool) (s : State) : (wrapRunState k y f s).cf = (s.cf || f) := by
  rw [wrapRunState, advanceWrap_frame]

theorem unwrapRunState_cf (k : Key) (y : Block) (f : Bool) (s : State) : (unwrapRunState k y f s).cf = (s.cf || f) := by
  rw [unwrapRunState, advanceUnwrap_frame]

theorem wrapRunState_requests (k : Key) (y : Block) (f : Bool) (s : State) : (wrapRunState k y f s).requests =
    { dir := .encrypt, key := k, x := s.buf.read 0 ++ s.buf.read s.i.toNat } :: s.requests := by
  rw [wrapRunState, advanceWrap_frame]

theorem unwrapRunState_requests (k : Key) (y : Block) (f : Bool) (s : State) : (unwrapRunState k y f s).requests =
    { dir := .decrypt, key := k, x := (s.buf.read 0 ^^^ be64 s.t) ++ s.buf.read s.i.toNat } :: s.requests := by
  rw [unwrapRunState, advanceUnwrap_frame]

theorem wrapRunState_progress {s : State} {k : Key} {a : BcsAnswer} {f : Bool} (hI : Inv s) (hp : s.ph = .run)
    (h2 : 2 ≤ s.n.toNat) (hd : s.op.dir = false) (hk : s.key = some k) (y : Block)
    (hf : f = !(Event.engine a).okAnswer) : Progress [.engine a] s (wrapRunState k y f s) := by
  have hpos := hI.legalPos hp h2
  have hfr := wrapRunState_frame (busy_of_run hp) k y f
  have hup : CountsUp s (wrapRunState k y f s) := advanceWrap_countsUp hpos ..
  have hleft := hup.remaining hpos hp h2 hd (by rw [hfr.eq]) (by rw [hfr.eq])
  have hpos' : RunPos (wrapRunState k y f s) := advanceWrap_pos ⟨hpos.j, hpos.pos, hpos.top⟩
  exact hfr.progress hI hp hpos.top (wrapRunState_buf k y f s) (fun _ _ => hpos') hleft
    (hf ▸ wrapRunState_cf k y f s) (wrapRunState_requests k y f s) ⟨hk, by rw [hd]; rfl⟩

theorem unwrapRunState_progress {s : State} {k : Key} {a : BcsAnswer} {f : Bool} (hI : Inv s) (hp : s.ph = .run)
    (h2 : 2 ≤ s.n.toNat) (hd : s.op.dir = true) (hk : s.key = some k) (y : Block)
    (hf : f = !(Event.engine a).okAnswer) : Progress [.engine a] s (unwrapRunState k y f s) := by
  have hpos := hI.legalPos hp h2
  have hfr := unwrapRunState_frame (busy_of_run hp) k y f
  have hdown : CountsDown s (unwrapRunState k y f s) := advanceUnwrap_countsDown hpos ..
  have hleft := hdown.remaining hp h2 hd (by rw [hfr.eq]) (by rw [hfr.eq])
  have hpos' : RunPos (unwrapRunState k y f s) := advanceUnwrap_pos ⟨hpos.j, hpos.pos, hpos.top⟩
  exact hfr.progress hI hp hpos.top (unwrapRunState_buf k y f s) (fun _ _ => hpos') hleft
    (hf ▸ unwrapRunState_cf k y f s) (unwrapRunState_requests k y f s) ⟨hk, by rw [hd]; rfl⟩

theorem oneBlockState_progress {s : State} {d : Dir} {k : Key} {a : BcsAnswer} {f : Bool} (hI : Inv s)
    (hp : s.ph = .run) (h1 : s.n.toNat = 1) (hd : d = if s.op.dir then .decrypt else .encrypt) (hk : s.key = some k) (y : Block)
    (hf : f = !(Event.engine a).okAnswer) : Progress [.engine a] s (oneBlockState d k y f s) := by
  have hleft : remainingRuns (oneBlockState d k y f s) + 1 = remainingRuns s := by
    rw [remainingRuns_oneBlock hp h1, remainingRuns_fin rfl]
  exact (oneBlockState_frame s d k y f).progress hI hp h1.ge rfl nofun hleft (hf ▸ rfl) rfl ⟨hk, hd⟩

/-- The codec commands of the forward direction (R61). -/
theorem op_of_wrap {i : Instr} (hc : i.isCodec = true) (hd : i.dir = false) : i = .wrap ∨ i = .wrapp := by
  rcases isCodec_cases hc with rfl | rfl | rfl | rfl
  exacts [.inl rfl, Bool.noConfusion hd, .inr rfl, Bool.noConfusion hd]

/-- The codec commands of the inverse direction (R61). -/
theorem op_of_unwrap {i : Instr} (hc : i.isCodec = true) (hd : i.dir = true) : i = .unwrap ∨ i = .unwrapp := by
  rcases isCodec_cases hc with rfl | rfl | rfl | rfl
  exacts [Bool.noConfusion hd, .inl rfl, Bool.noConfusion hd, .inr rfl]

/-- A wrap RUN step of the invariant's states, with the block answered and the failure noted (R118). -/
theorem engineStep_wrapRunState {s : State} {k : Key} (hI : Inv s) (hp : s.ph = .run) (h2 : 2 ≤ s.n.toNat)
    (hd : s.op.dir = false) (hk : s.key = some k) (a : BcsAnswer) :
    engineStep a s = .next (wrapRunState k (bcsCall s.cfg.cipher .encrypt k (s.buf.read 0 ++ s.buf.read s.i.toNat) a).2
      (!(Event.engine a).okAnswer) s) := by
  have hb := busy_of_run hp
  have hi := (hI.legalPos hp h2).top.trans (hI.busyN hb).2
  rw [engineStep_wrap hp (op_of_wrap (hI.busyOp hb) hd) h2, runWrap_eq hk hi, bcsCall_fst]

/-- An unwrap RUN step of the invariant's states, with the block answered and the failure noted (R138). -/
theorem engineStep_unwrapRunState {s : State} {k : Key} (hI : Inv s) (hp : s.ph = .run) (h2 : 2 ≤ s.n.toNat)
    (hd : s.op.dir = true) (hk : s.key = some k) (a : BcsAnswer) :
    engineStep a s = .next (unwrapRunState k
      (bcsCall s.cfg.cipher .decrypt k ((s.buf.read 0 ^^^ be64 s.t) ++ s.buf.read s.i.toNat) a).2
      (!(Event.engine a).okAnswer) s) := by
  have hb := busy_of_run hp
  have hi := (hI.legalPos hp h2).top.trans (hI.busyN hb).2
  rw [engineStep_unwrap hp (op_of_unwrap (hI.busyOp hb) hd) h2, runUnwrap_eq hk hi, bcsCall_fst]

/-- The command of the one-block path and the direction of its transaction (R119, R139). -/
theorem op_of_oneBlock {s : State} (hI : Inv s) (hb : s.ph ≠ .idle) (h1 : s.n.toNat = 1) :
    ∃ d : Dir, (s.op = .wrapp ∧ d = .encrypt ∨ s.op = .unwrapp ∧ d = .decrypt) ∧
      d = if s.op.dir then .decrypt else .encrypt := by
  have hchain : s.op.pad ≠ false := fun hpad => by
    have := hI.busyChain hb hpad
    omega
  rcases isCodec_cases (hI.busyOp hb) with ho | ho | ho | ho
  all_goals rw [ho] at hchain ⊢
  exacts [absurd rfl hchain, absurd rfl hchain, ⟨_, .inl ⟨rfl, rfl⟩, rfl⟩, ⟨_, .inr ⟨rfl, rfl⟩, rfl⟩]

/-- The one-block RUN step of the invariant's states (R119, R139). -/
theorem engineStep_oneBlockState {s : State} {k : Key} (hI : Inv s) (hp : s.ph = .run) (h1 : s.n.toNat = 1)
    (hk : s.key = some k) (a : BcsAnswer) :
    ∃ d y, d = (if s.op.dir then .decrypt else .encrypt) ∧
      engineStep a s = .next (oneBlockState d k y (!(Event.engine a).okAnswer) s) := by
  have hb := busy_of_run hp
  obtain ⟨d, ho, hd⟩ := op_of_oneBlock hI hb h1
  have hcap := (hI.busyN hb).2
  have he := (engineStep_oneBlock hp ho h1 a).trans (runOneBlock_eq hk (by omega) d a)
  rw [bcsCall_fst] at he
  exact ⟨d, _, hd, he⟩

/-- Every RUN step makes progress, whatever the cipher service answers. -/
theorem engineStep_progress {s : State} (hI : Inv s) (hp : s.ph = .run) (a : BcsAnswer) :
    ∃ t, engineStep a s = .next t ∧ Progress [.engine a] s t := by
  have hb := busy_of_run hp
  obtain ⟨k, hk⟩ := hI.key hb
  by_cases h2 : 2 ≤ s.n.toNat
  · cases hd : s.op.dir with
    | false => exact ⟨_, engineStep_wrapRunState hI hp h2 hd hk a, wrapRunState_progress hI hp h2 hd hk _ rfl⟩
    | true => exact ⟨_, engineStep_unwrapRunState hI hp h2 hd hk a, unwrapRunState_progress hI hp h2 hd hk _ rfl⟩
  · have hN := hI.busyN hb
    have h1 : s.n.toNat = 1 := by omega
    obtain ⟨d, y, hd, he⟩ := engineStep_oneBlockState hI hp h1 hk a
    exact ⟨_, he, oneBlockState_progress hI hp h1 hd hk y rfl⟩

/-- A host access to a busy machine is no progress and no hindrance (R44). -/
theorem host_progress {s : State} (hI : Inv s) (hb : s.ph ≠ .idle) (op : HostOp) :
    ∃ t, eventStep s (.host op) = .next t ∧ Progress [.host op] s t := by
  obtain ⟨r, hr⟩ := eventStep_host_busy hb op
  exact ⟨_, hr, progress_records hI hb rfl (List.forall_mem_singleton.2 rfl) s.agenda r⟩

/-- An event of a schedule with no more engine steps than RUN steps still to come. -/
theorem eventStep_progress {e : Event} {s : State} (hI : Inv s) (hb : s.ph ≠ .idle) (hr : e.noReset = true)
    (hc : engineCount [e] ≤ remainingRuns s) : ∃ t, eventStep s e = .next t ∧ Progress [e] s t := by
  cases e with
  | host op => exact host_progress hI hb op
  | engine a => exact engineStep_progress hI (run_of_remainingRuns hb hc) a
  | reset => cases hr

/-- A schedule without resets, with no more engine steps than RUN steps still to come, by induction on the schedule. -/
theorem runAgenda_progress {s : State} {evs : List Event} (hI : Inv s) (hb : s.ph ≠ .idle)
    (hr : ∀ e ∈ evs, e.noReset = true) (hc : engineCount evs ≤ remainingRuns s) :
    ∃ t, runAgenda { s with agenda := evs } = .next t ∧ Progress evs s t := by
  induction evs generalizing s with
  | nil => exact ⟨_, runAgenda_nil rfl, progress_records hI hb rfl (List.forall_mem_nil _) [] s.replies⟩
  | cons e evs ih =>
    obtain ⟨hre, hrs⟩ := List.forall_mem_cons.1 hr
    have hsplit : engineCount (e :: evs) = engineCount [e] + engineCount evs := engineCount_append [e] evs
    obtain ⟨t, ht, hst⟩ := eventStep_progress hI hb hre (by omega)
    have hleft := hst.left
    obtain ⟨u, hu, htu⟩ := ih hst.inv hst.busy hrs (by omega)
    exact ⟨u, (runAgenda_cons ht).trans hu, hst.trans htu⟩

/-! ### Whole commands -/

/-- The start of a codec command: what it takes over from the idle machine. -/
structure Started (i : Instr) (s u : State) : Prop where
  inv : Inv u
  op : u.op = i
  key : u.key = s.key
  cf : u.cf = false
  requests : u.requests = s.requests
  left : remainingRuns u = runSteps u.n.toNat

theorem exec_started {i : Instr} {s u : State} (hI : Inv s) (hp : s.ph = .idle) (hc : i.isCodec = true)
    (he : exec i s = .next u) (hu : u.ph = .run) : Started i s u := by
  obtain ⟨n, hv, rfl⟩ := exec_codec_run hc hp he hu
  have hN := hv.toNat_n hI.cfg
  exact ⟨codecStarted_inv hI hc hv, rfl, rfl, rfl, rfl, hN.symm ▸ remainingRuns_codecStarted hv hN⟩

/-- The FIN step answers in every state that meets the invariant. -/
theorem engineStep_fin_next {s : State} (hI : Inv s) (hp : s.ph = .fin) (a : BcsAnswer) :
    ∃ t, engineStep a s = .next t := by
  rcases engineStep_fin_cases hI hp a with ⟨k, -, h⟩ | ⟨l, h⟩
  exacts [⟨_, h⟩, ⟨_, h⟩]

/-- A command under a whole schedule: its start `u`, its RUN steps to `v` in FIN, and its FIN step to `w`. -/
theorem commandRun_stages {s u : State} {i : Instr} {pre : List Event} (hst : Started i s u)
    (he : exec i s = .next u) (hu : u.ph = .run) (hs : RunSchedule u.n.toNat pre) (a : BcsAnswer) :
    ∃ v w, Progress pre u v ∧ v.ph = .fin ∧ engineStep a v = .next w ∧
      commandRun i pre a s = .next { w with agenda := [] } := by
  obtain ⟨hr, hc⟩ := hs
  have hcount : engineCount pre = remainingRuns u := hc.trans hst.left.symm
  obtain ⟨v, hv, hprog⟩ := runAgenda_progress hst.inv (busy_of_run hu) hr hcount.le
  have hfin : v.ph = .fin := fin_of_remainingRuns hprog.inv hprog.busy (by have := hprog.left; omega)
  obtain ⟨w, hw⟩ := engineStep_fin_next hprog.inv hfin a
  refine ⟨v, w, hprog, hfin, hw, ?_⟩
  calc commandRun i pre a s
      = runAgenda { u with agenda := pre ++ [.engine a] } :=
        runAgenda_cons ((eventStep_command (decode_encode i)).trans he)
    _ = runAgenda { v with agenda := [.engine a] } := runAgenda_append hv _
    _ = runAgenda { w with agenda := [] } := runAgenda_cons hw
    _ = .next { w with agenda := [] } := runAgenda_nil rfl

/-! ### The transactions of a command (O42) -/

/-- No accept step makes a transaction. -/
theorem exec_requests {i : Instr} {s t : State} (h : exec i s = .next t) : t.requests = s.requests := by
  rcases exec_cases h with ⟨-, rfl⟩ | ⟨-, -, k, rfl⟩ | ⟨-, -, n, -, rfl⟩ | ⟨-, -, iva, m, e, l, rfl⟩ <;> rfl

theorem Finished.requests {s t : State} (h : Finished s t) : t.requests = s.requests := by
  obtain ⟨e, l, buf, -, rfl⟩ := h
  rfl

/-- What the FIN step leaves. -/
theorem engineStep_fin_finished {a : BcsAnswer} {s t : State} (hp : s.ph = .fin) (h : engineStep a s = .next t) :
    Finished s t := by
  rw [engineStep, hp] at h
  exact finStep_finished h

/-- Settles O42: the schedule holds one engine step per transaction, as many as are to come at the start; the accept
step and the FIN step make none. -/
theorem transactionsAreCounted : Obligations.TransactionsAreCounted := by
  refine ⟨fun _ _ _ => exec_requests, fun s u i k pre a hI hp hc hk he hu hs => ?_⟩
  have hst := exec_started hI hp hc he hu
  obtain ⟨v, w, hprog, hfin, hw, hrun⟩ := commandRun_stages hst he hu hs a
  obtain ⟨rs, hrs, hlen, hown⟩ := hprog.requests
  refine ⟨_, rs, hrun, ?_, hlen.trans hs.2, fun r hr => ?_⟩
  · exact (engineStep_fin_finished hfin hw).requests.trans (hrs.trans (by rw [hst.requests]))
  · obtain ⟨hkey, hdir⟩ := hown r hr
    rw [hst.key, hk] at hkey
    rw [hst.op] at hdir
    exact ⟨(Option.some.inj hkey).symm, hdir⟩

/-! ### The failure of a transaction (O43) -/

/-- With `CF` = 1 the FIN step of every codec command raises `EncryptionFailed` (R120, R140, R141). -/
theorem engineStep_fin_failed {s : State} (hI : Inv s) (hp : s.ph = .fin) (hcf : s.cf = true) (a : BcsAnswer) :
    engineStep a s = .next (s.raiseLate .encryptionFailed).finish := by
  have hb := busy_of_fin hp
  rcases isCodec_cases (hI.busyOp hb) with ho | ho | ho | ho
  · rw [engineStep_finWrap hp (.inl ho), finWrap, if_pos hcf]
  · rw [engineStep_finUnwrap hp ho, finUnwrap, if_pos hcf]
  · rw [engineStep_finWrap hp (.inr ho), finWrap, if_pos hcf]
  · rw [engineStep_finUnwrapp hp ho (hI.busyN hb).2, finUnwrapp, if_pos hcf]

/-- With `CF` = 0 no FIN step raises `EncryptionFailed`. -/
theorem engineStep_fin_unfailed {a : BcsAnswer} {s t : State} (hI : Inv s) (hp : s.ph = .fin) (hcf : s.cf = false)
    (h : engineStep a s = .next t) : t.err ≠ some .encryptionFailed := by
  have hb := busy_of_fin hp
  have herr : s.err ≠ some .encryptionFailed := by
    rw [(hI.busy_report hb).2]
    exact nofun
  have hno : ¬ s.cf = true := by rw [hcf]; exact Bool.noConfusion
  rcases isCodec_cases (hI.busyOp hb) with ho | ho | ho | ho
  · rw [engineStep_finWrap hp (.inl ho), finWrap, if_neg hno] at h
    cases h
    exact herr
  · rw [engineStep_finUnwrap hp ho, finUnwrap, if_neg hno] at h
    cases h
    split
    exacts [nofun, herr]
  · rw [engineStep_finWrap hp (.inr ho), finWrap, if_neg hno] at h
    cases h
    exact herr
  · rw [engineStep_finUnwrapp hp ho (hI.busyN hb).2, finUnwrapp, if_neg hno] at h
    cases h
    split
    exacts [nofun, herr]

/-- A FIN step ends with `EncryptionFailed` exactly when `CF` = 1. -/
theorem engineStep_fin_err_iff {a : BcsAnswer} {s t : State} (hI : Inv s) (hp : s.ph = .fin)
    (h : engineStep a s = .next t) : t.err = some .encryptionFailed ↔ s.cf = true := by
  cases hcf : s.cf with
  | true =>
    cases (engineStep_fin_failed hI hp hcf a).symm.trans h
    exact iff_of_true rfl rfl
  | false => exact iff_of_false (engineStep_fin_unfailed hI hp hcf h) Bool.noConfusion

/-- Clearing a buffer that has kept the entries above `n` of `m0`. -/
theorem clearedTo_clearTo {n : Nat} {m0 m : Memory} (h : ∀ q, n < q → m.read q = m0.read q) :
    ClearedTo n m0 (m.clearTo n) :=
  ⟨fun _ hq => (Memory.read_clearTo ..).trans (if_pos hq),
    fun q hq => (Memory.read_clearTo ..).trans ((if_neg (by omega)).trans (h q hq))⟩

/-- Settles O43: `CF` collects the failures of the schedule, the FIN step reports it, and clears the working area. -/
theorem anyFailureSurfaces : Obligations.AnyFailureSurfaces := by
  intro s u i pre a hI hp hc he hu hs
  have hst := exec_started hI hp hc he hu
  obtain ⟨v, w, hprog, hfin, hw, hrun⟩ := commandRun_stages hst he hu hs a
  have hiff := engineStep_fin_err_iff hprog.inv hfin hw
  have hcf : v.cf = true ↔ ∃ e ∈ pre, e.okAnswer = false := by
    rw [hprog.cf, hst.cf]
    exact or_iff_right Bool.noConfusion
  refine ⟨_, hrun, (engineStep_fin_finished hfin hw).idle, hiff.trans hcf, fun hf => ?_⟩
  cases (engineStep_fin_failed hprog.inv hfin (hiff.1 hf) a).symm.trans hw
  have hclear : ClearedTo u.n.toNat s.buf (v.buf.clearTo v.n.toNat) := by
    rw [hprog.n]
    exact clearedTo_clearTo fun q hq => (hprog.above q hq).trans (exec_read_above hI he hq)
  exact ⟨status_of_error (k := .encryptionFailed) rfl rfl (hprog.inv.busy_report hprog.busy).1 rfl, rfl, hclear⟩

/-! ### The RUN steps with MOCKSWAP (O49) -/

/-- What a RUN step that writes `v` to entry 0 and `w` to entry `p` leaves there. -/
theorem Memory.read_write_write {m : Memory} (hm : m.wf = true) {p : Nat} (hp : 1 ≤ p) (v w : Word) :
    ((m.write 0 v).write p w).read 0 = v ∧ ((m.write 0 v).write p w).read p = w := by
  have hw := Memory.wf_write hm 0 v
  rw [Memory.read_write hw, Memory.read_write hw, Memory.read_write hm, if_neg (by omega), if_pos rfl, if_pos rfl]
  exact ⟨rfl, rfl⟩

/-- Settles O49: the step of each direction writes the two halves of the mock cipher's block. -/
theorem mockswapSteps : Obligations.MockswapSteps := by
  rintro s k e t hI hp h2 hmock hk rfl rfl
  have hread := Memory.read_write_write hI.bufWf (hI.legalPos hp h2).pos
  cases hd : s.op.dir with
  | false =>
    refine ⟨_, engineStep_wrapRunState hI hp h2 hd hk .ok, ?_, fun _ => ?_, nofun⟩
    · exact (wrapRunState_cf ..).trans (Bool.or_false _)
    · rw [wrapRunState_buf, (hread ..).1, (hread ..).2, bcsCall_ok, hmock]
      simp only [cipherFn, mockEnc, hi64_append, lo64_append]
      exact ⟨rfl, trivial⟩
  | true =>
    refine ⟨_, engineStep_unwrapRunState hI hp h2 hd hk .ok, ?_, nofun, fun _ => ?_⟩
    · exact (unwrapRunState_cf ..).trans (Bool.or_false _)
    · rw [unwrapRunState_buf, (hread ..).1, (hread ..).2, bcsCall_ok, hmock]
      simp only [cipherFn, mockDec, hi64_append, lo64_append]
      exact ⟨trivial, rfl⟩

end Sys2Proof.Machine

/-! SUPPORT. Proofs of the statements about the IV unit: what its functions and its commands answer, and the obligations
O6 to O10 settled from them. -/

namespace Sys2Proof.Machine

/-! ### The functions of the IV unit -/

/-- `AltIV` is defined up to `LMAX` (R92). -/
theorem altIV_of_le {l : Nat} (h : l ≤ lmax) : altIV l = some (aivOf l) := if_neg (Nat.not_lt.2 h)

/-- Above `LMAX`, `AltIV` fails (R92). -/
theorem altIV_of_lt {l : Nat} (h : lmax < l) : altIV l = none := if_pos h

theorem verify_eq_true_iff {c e : Word} : verify c e = true ↔ c = e := beq_iff_eq

/-- The low half of the alternative IV of a register's value is that register's low half (R67, R96). -/
theorem aivOf_toNat (w : Word) : aivOf w.toNat = aivConst ++ w.extractLsb' 0 32 := rfl

/-- The claimed length is a 32-bit value, so `AltIV` is defined at it (R94). -/
theorem aivLength_le_lmax (c : Word) : aivLength c ≤ lmax := Nat.le_of_lt_succ (BitVec.isLt _)

/-- A candidate is the alternative IV of its own length field exactly when its high half is the constant (R67). -/
theorem eq_aivOf_aivLength_iff {c : Word} : c = aivOf (aivLength c) ↔ c.extractLsb' 32 32 = aivConst := by
  have hsplit : c.extractLsb' 32 32 ++ c.extractLsb' 0 32 = c :=
    (extractLsb'_append_next c 0 32 32).trans BitVec.extractLsb'_eq_self
  have haiv : aivOf (aivLength c) = aivConst ++ c.extractLsb' 0 32 := by
    rw [aivOf, aivLength, be32, BitVec.ofNat_toNat, BitVec.setWidth_eq]
  have hinj : c.extractLsb' 32 32 ++ c.extractLsb' 0 32 = aivConst ++ c.extractLsb' 0 32 ↔
      c.extractLsb' 32 32 = aivConst := BitVec.append_left_inj _
  rwa [hsplit, ← haiv] at hinj

/-- `AIVCheck` is the pattern and the range (R94). -/
theorem aivCheck_eq_true_iff {c : Word} {n : Nat} : (aivCheck c n).1 = true ↔
    c.extractLsb' 32 32 = aivConst ∧ 8 * (n : Int) - 7 ≤ (aivLength c : Int) ∧ (aivLength c : Int) ≤ 8 * n := by
  rw [aivCheck, Bool.and_eq_true, beq_iff_eq, decide_eq_true_iff]

/-! ### The commands of the IV unit in an idle machine -/

theorem exec_ivdef_idle {s : State} (hp : s.ph = .idle) :
    exec .ivdef s = .next { acceptedState .ivdef s with iva := defaultIV } := by
  rw [exec, execIvdef, accept_idle hp]
  rfl

theorem exec_ivalt_some {s : State} {v : Word} (hp : s.ph = .idle) (hv : altIV s.len.toNat = some v) :
    exec .ivalt s = .next { acceptedState .ivalt s with iva := v } := by
  rw [exec, execIvalt, accept_idle hp, State.withdraw_len, hv]
  rfl

theorem exec_ivalt_none {s : State} (hp : s.ph = .idle) (hv : altIV s.len.toNat = none) :
    exec .ivalt s = .next { acceptedState .ivalt s with err := some .overflow } := by
  rw [exec, execIvalt, accept_idle hp, State.withdraw_len, hv]
  rfl

theorem exec_ivchk_idle {s : State} (hp : s.ph = .idle) :
    exec .ivchk s = .next { acceptedState .ivchk s with matched := verify s.iva s.ivb } := by
  rw [exec, execIvchk, accept_idle hp]
  rfl

theorem exec_aivchk_idle {s : State} (hp : s.ph = .idle) :
    exec .aivchk s = .next { acceptedState .aivchk s with
      matched := (aivCheck s.iva s.n.toNat).1
      olen := if (aivCheck s.iva s.n.toNat).1 then be64 (aivLength s.iva) else 0 } := by
  rw [exec, execAivchk, accept_idle hp]
  rfl

/-- A candidate that passes is reported with its length (R99). -/
theorem exec_aivchk_pass {s : State} (hp : s.ph = .idle) (h : (aivCheck s.iva s.n.toNat).1 = true) :
    exec .aivchk s =
      .next { acceptedState .aivchk s with matched := true, olen := (s.iva.extractLsb' 0 32).setWidth 64 } := by
  rw [exec_aivchk_idle hp, h, if_pos rfl, aivLength, be64, BitVec.ofNat_toNat]

/-- A candidate that fails leaves `MATCH` and `OLEN` withdrawn (R99). -/
theorem exec_aivchk_fail {s : State} (hp : s.ph = .idle) (h : ¬(aivCheck s.iva s.n.toNat).1 = true) :
    exec .aivchk s = .next (acceptedState .aivchk s) := by
  rw [exec_aivchk_idle hp, if_neg h, Bool.eq_false_of_not_eq_true h]
  rfl

/-! ### IVDEF, IVALT and IVCHK (O6, O7, O8) -/

/-- Settles O6: the accept step puts the default IV into `IVA`. -/
theorem ivdefWritesTheDefaultIv : Obligations.IvdefWritesTheDefaultIv := fun _ => exec_ivdef_idle

/-- Settles O7: the command follows `AltIV`, which is defined at `LEN` exactly up to `LMAX`. -/
theorem ivaltEncodesTheLength : Obligations.IvaltEncodesTheLength := by
  intro s hp
  refine ⟨fun h => ?_, fun h => exec_ivalt_none hp (altIV_of_lt h)⟩
  rw [exec_ivalt_some hp (altIV_of_le h), aivOf_toNat, aivConst]

/-- Settles O8: `MATCH` is `Verify`, which is the equality of words. -/
theorem ivchkComparesTheIvs : Obligations.IvchkComparesTheIvs := by
  intro s hp
  have hverify : verify s.iva s.ivb = decide (s.iva = s.ivb) := rfl
  rw [exec_ivchk_idle hp, hverify]

/-! ### AIVCHK and its check (O9, O10) -/

/-- Settles O9: the condition on `IVA` and `N` is `AIVCheck`'s, and the command follows it. -/
theorem aivchkChecksTheAiv : Obligations.AivchkChecksTheAiv := by
  rintro s m n hp rfl rfl
  exact ⟨fun h => exec_aivchk_pass hp (aivCheck_eq_true_iff.2 h),
    fun h => exec_aivchk_fail hp (mt aivCheck_eq_true_iff.1 h)⟩

/-- The pattern part of `AIVCheck` is `Verify` against `AltIV` of the claimed length (R94). -/
theorem aivCheck_iff_verify {c : Word} {n : Nat} : (aivCheck c n).1 = true ↔
    verify c (aivOf (aivLength c)) = true ∧ 8 * (n : Int) - 7 ≤ (aivLength c : Int) ∧ (aivLength c : Int) ≤ 8 * n := by
  rw [aivCheck_eq_true_iff, verify_eq_true_iff, eq_aivOf_aivLength_iff]

/-- At n = 0 the range leaves M = 0 alone, and with it the one candidate `AltIV(0)` (R99). -/
theorem aivCheck_zero_iff {c : Word} : (aivCheck c 0).1 = true ↔ c = aivOf 0 := by
  constructor
  · intro h
    obtain ⟨hv, -, hle⟩ := aivCheck_iff_verify.1 h
    have hm : aivLength c = 0 := by omega
    rwa [verify_eq_true_iff, hm] at hv
  · rintro rfl
    decide

/-- At n = 2^29 the upper bound is above every M, and the lower one is 2^32 − 7 (R99). -/
theorem aivCheck_two_pow_29_iff {c : Word} : (aivCheck c (2 ^ 29)).1 = true ↔
    c.extractLsb' 32 32 = aivConst ∧ 2 ^ 32 - 7 ≤ aivLength c := by
  have hm := aivLength_le_lmax c
  rw [lmax] at hm
  rw [aivCheck_eq_true_iff]
  refine and_congr_right fun _ => ?_
  omega

/-- At the largest n the lower bound is above every M (R203). -/
theorem aivCheck_two_pow_32_sub_one (c : Word) : (aivCheck c (2 ^ 32 - 1)).1 = false := by
  refine Bool.eq_false_of_not_eq_true fun h => ?_
  obtain ⟨-, hge, -⟩ := aivCheck_eq_true_iff.1 h
  have hm := aivLength_le_lmax c
  rw [lmax] at hm
  omega

/-- Settles O10: `AltIV` is defined at the claimed length, and the corner counts follow from the range of M. -/
theorem aivCheckPatternAndRange : Obligations.AivCheckPatternAndRange := fun c =>
  ⟨fun _ => ⟨_, altIV_of_le (aivLength_le_lmax c), aivCheck_iff_verify⟩, aivCheck_zero_iff, aivCheck_two_pow_29_iff,
    aivCheck_two_pow_32_sub_one c⟩

end Sys2Proof.Machine

/-! SUPPORT. Proofs of the statements about the wrap commands: their validation and start, one step of the engine, and
whole commands against the reference functions, and the obligations O11 to O14, O27, O29, O30, O52 and O53 settled from
them. -/

namespace Sys2Proof.Machine

/-! ### Validation and start (O11 to O14) -/

theorem klenValid_iff {k : Byte} : klenValid k = true ↔ k = 16 ∨ k = 24 ∨ k = 32 := by
  simp only [klenValid, Bool.or_eq_true, beq_iff_eq, or_assoc]

theorem klenValid_eq_false_iff {k : Byte} : klenValid k = false ↔ ¬(k = 16 ∨ k = 24 ∨ k = 32) := by
  rw [← klenValid_iff, Bool.not_eq_true]

/-- The source's 64-bit counter holds every t of a wrap that fits the length domain (R117). -/
theorem counterOverflows_of_le {n : Nat} (h : n ≤ lmax) : counterOverflows n = false := by
  rw [lmax] at h
  rw [counterOverflows, decide_eq_false_iff_not]
  omega

/-- WRAP's validation passes when each of its checks does (R112). -/
theorem wrapVerdict_eq_pass {c : Config} {l : Nat} {klen : Byte} (h16 : 16 ≤ l) (hmax : l ≤ lmax)
    (hcap : l ≤ 8 * c.nmax) (h8 : l % 8 = 0) (hk : klenValid klen = true) :
    wrapVerdict c l klen = .pass (l / 8) := by
  have hov : counterOverflows (l / 8) = false := counterOverflows_of_le (by omega)
  rw [wrapVerdict, if_neg (by omega), if_neg (by omega), if_neg (by omega), hk, if_neg Bool.noConfusion, hov,
    if_neg Bool.noConfusion]

/-- WRAPP's validation passes when each of its checks does (R114). -/
theorem wrappVerdict_eq_pass {c : Config} {l : Nat} {klen : Byte} (h1 : 1 ≤ l) (hmax : l ≤ lmax)
    (hcap : ceil8 l ≤ c.nmax) (hk : klenValid klen = true) : wrappVerdict c l klen = .pass (ceil8 l) := by
  have hov : counterOverflows (ceil8 l) = false := counterOverflows_of_le (by rw [ceil8]; omega)
  rw [wrappVerdict, if_neg (by omega), if_neg (by omega), hk, if_neg Bool.noConfusion, hov, if_neg Bool.noConfusion]

theorem validated_wrap {s : State} {n : Nat} (h : wrapVerdict s.cfg s.len.toNat s.klen = .pass n) :
    Validated .wrap n s := by
  obtain ⟨-, -, h2, hcap, -, hk⟩ := wrapVerdict_pass h
  exact ⟨by omega, hcap, fun _ => h2, hk⟩

theorem validated_wrapp {s : State} {n : Nat} (h : wrappVerdict s.cfg s.len.toNat s.klen = .pass n) :
    Validated .wrapp n s := by
  obtain ⟨-, h1, hcap, -, -, hk⟩ := wrappVerdict_pass h
  exact ⟨h1, hcap, nofun, hk⟩

theorem exec_wrap_pass {s : State} {n : Nat} (hp : s.ph = .idle)
    (h : wrapVerdict s.cfg s.len.toNat s.klen = .pass n) : exec .wrap s = .next (codecStarted .wrap n s) := by
  rw [exec, execWrap, accept_idle hp, State.withdraw_cfg, State.withdraw_len, State.withdraw_klen, h]
  rfl

theorem exec_wrap_refuse {s : State} {k : ErrKind} (hp : s.ph = .idle)
    (h : wrapVerdict s.cfg s.len.toNat s.klen = .refuse k) : exec .wrap s = .next (refusedState .wrap k s) := by
  rw [exec, execWrap, accept_idle hp, State.withdraw_cfg, State.withdraw_len, State.withdraw_klen, h]
  rfl

theorem exec_wrapp_pass {s : State} {n : Nat} (hp : s.ph = .idle)
    (h : wrappVerdict s.cfg s.len.toNat s.klen = .pass n) : exec .wrapp s = .next (codecStarted .wrapp n s) := by
  rw [exec, execWrapp, accept_idle hp, State.withdraw_cfg, State.withdraw_len, State.withdraw_klen, h]
  rfl

theorem exec_wrapp_refuse {s : State} {k : ErrKind} (hp : s.ph = .idle)
    (h : wrappVerdict s.cfg s.len.toNat s.klen = .refuse k) : exec .wrapp s = .next (refusedState .wrapp k s) := by
  rw [exec, execWrapp, accept_idle hp, State.withdraw_cfg, State.withdraw_len, State.withdraw_klen, h]
  rfl

/-- Settles O11: the checks pass, and the start writes entry 0 alone. -/
theorem wrapStarts : Obligations.WrapStarts := by
  intro s hI hp h16 hmax hcap h8 hk
  have hv := wrapVerdict_eq_pass h16 hmax hcap h8 (klenValid_iff.2 hk)
  refine ⟨s.buf.write 0 defaultIV, exec_wrap_pass hp hv, ?_, fun q hq => ?_⟩
  · rw [Memory.read_write hI.bufWf, if_pos rfl, defaultIV]
  · rw [Memory.read_write hI.bufWf, if_neg hq]

/-- Settles O12: each clause is the verdict of the first check that fails. -/
theorem wrapRefuses : Obligations.WrapRefuses := by
  rintro s l - hp rfl
  refine ⟨fun h => exec_wrap_refuse hp ?_, fun h16 hbig => exec_wrap_refuse hp ?_,
    fun h16 hmax hcap h8 => exec_wrap_refuse hp ?_, fun h16 hmax hcap h8 hk => exec_wrap_refuse hp ?_⟩
  · rw [wrapVerdict, if_pos h]
  · rw [wrapVerdict, if_neg (by omega)]
    exact if_pos hbig
  · rw [wrapVerdict, if_neg (by omega), if_neg (by rw [lmax]; omega), if_pos h8]
  · rw [wrapVerdict, if_neg (by omega), if_neg (by rw [lmax]; omega), if_neg (by omega),
      if_pos (klenValid_eq_false_iff.2 hk)]

/-- The start of WRAPP writes the alternative IV to entry 0 and masks the pad bytes of entry n (R115, R116). -/
theorem read_startBuf_wrapp {s : State} (hm : s.buf.wf = true) (n q : Nat) : (startBuf .wrapp n s).read q =
    if q = 0 then aivOf s.len.toNat
    else if s.len.toNat % 8 ≠ 0 ∧ q = n then s.buf.read n &&& padMask (s.len.toNat % 8) else s.buf.read q :=
  (Memory.read_write (wf_padEntry hm ..) ..).trans (if_congr Iff.rfl rfl (read_padEntry hm ..))

/-- Settles O13: the checks pass, and the start masks entry n and writes entry 0. -/
theorem wrappStarts : Obligations.WrappStarts := by
  intro s n hI hp h1 hmax hn hcap hk
  have hv := wrappVerdict_eq_pass h1 hmax (hn ▸ hcap) (klenValid_iff.2 hk)
  have hread := read_startBuf_wrapp hI.bufWf n
  refine ⟨startBuf .wrapp n s, ?_, ?_, fun h8 => ?_, fun h8 => ?_, fun q hq0 hqn => ?_⟩
  · rw [exec_wrapp_pass hp hv, ceil8, ← hn]
    rfl
  · rw [hread, if_pos rfl, aivOf_toNat, aivConst]
  · rw [hread, if_neg (by omega), if_pos ⟨h8, rfl⟩]
  · rw [hread, if_neg (by omega), if_neg fun h => h.1 h8]
  · rw [hread, if_neg hq0, if_neg fun h => hqn h.2]

/-- Settles O14: each clause is the verdict of the first check that fails. -/
theorem wrappRefuses : Obligations.WrappRefuses := by
  rintro s l - hp rfl
  refine ⟨fun h => exec_wrapp_refuse hp ?_, fun h1 hbig => exec_wrapp_refuse hp ?_,
    fun h1 hmax hcap hk => exec_wrapp_refuse hp ?_⟩
  · rw [wrappVerdict, if_pos h]
  · rw [wrappVerdict, if_neg (by omega)]
    exact if_pos hbig
  · rw [wrappVerdict, if_neg (by omega), if_neg (by rw [lmax, ceil8]; omega),
      if_pos (klenValid_eq_false_iff.2 hk)]

/-! ### One RUN step (O27, O29) -/

/-- A transaction answers the block that R81 says: the cipher's when it succeeds, the draw's when it fails. -/
theorem bcsCall_snd {c : Cipher} {d : Dir} {k : Key} {x y : Block} {a : BcsAnswer}
    (hok : a = .ok → y = cipherFn c d k x) (hfail : ∀ z, a = .failed z → y = z) : (bcsCall c d k x a).2 = y := by
  cases a with
  | ok => exact (hok rfl).symm
  | failed z => exact (hfail z rfl).symm

theorem not_okAnswer_engine (a : BcsAnswer) : (!(Event.engine a).okAnswer) = decide (a ≠ .ok) := by
  cases a with
  | ok => rfl
  | failed y => exact (decide_eq_true BcsAnswer.noConfusion).symm

/-- The position of the sequencer: `J`, `I` and `PH` (R15). -/
def State.position (s : State) : Nat × Nat × Phase := (s.j.toNat, s.i.toNat, s.ph)

/-- The position after (j, i) in a wrap of n semiblocks (R118). -/
def wrapSuccessor (n j i : Nat) : Nat × Nat × Phase :=
  if i < n then (j, i + 1, .run) else if j < 5 then (j + 1, 1, .run) else (j, i, .fin)

/-- No advance of a wrap overflows `J` or `I`. -/
theorem advanceWrap_position {s : State} (hp : s.ph = .run) :
    (advanceWrap s).position = wrapSuccessor s.n.toNat s.j.toNat s.i.toNat := by
  have hN := s.n.isLt
  rcases advanceWrap_cases s with ⟨hi, hs⟩ | ⟨hi, hj, hs⟩ | ⟨hi, hj, hs⟩
  all_goals rw [hs, State.position, wrapSuccessor]
  · have hi' : (s.i + 1).toNat = s.i.toNat + 1 := BitVec.toNat_add_of_lt (show s.i.toNat + 1 < 2 ^ 32 by omega)
    rw [if_pos hi, hi', hp]
  · have hj' : (s.j + 1).toNat = s.j.toNat + 1 := BitVec.toNat_add_of_lt (show s.j.toNat + 1 < 2 ^ 3 by omega)
    rw [if_neg (by omega), if_pos hj, hj', hp]
    rfl
  · rw [if_neg (by omega), if_neg (by omega)]

theorem wrapRunState_position {s : State} (hp : s.ph = .run) (k : Key) (y : Block) (f : Bool) :
    (wrapRunState k y f s).position = wrapSuccessor s.n.toNat s.j.toNat s.i.toNat := advanceWrap_position hp

/-- A RUN step that writes entries 0 and p leaves every other entry. -/
theorem Memory.read_write_write_of_ne {m : Memory} (hm : m.wf = true) {p q : Nat} (h0 : q ≠ 0) (hp : q ≠ p)
    (v w : Word) :
    ((m.write 0 v).write p w).read q = m.read q := by
  rw [Memory.read_write (Memory.wf_write hm ..), if_neg hp, Memory.read_write hm, if_neg h0]

/-- Settles O27: the state a wrap RUN step leaves, field by field. -/
theorem wrapRunStep : Obligations.WrapRunStep := by
  rintro s a k x y e t hI hp hd h2 hk rfl rfl rfl hok hfail
  have hpos := hI.legalPos hp h2
  have hstep := engineStep_wrapRunState hI hp h2 hd hk a
  rw [bcsCall_snd hok hfail, not_okAnswer_engine] at hstep
  have hframe := wrapRunState_frame (busy_of_run hp) k y (decide (a ≠ .ok))
  have hread := Memory.read_write_write hI.bufWf hpos.pos (hi64 y ^^^ be64 s.t) (lo64 y)
  rw [← wrapRunState_buf k y (decide (a ≠ .ok))] at hread
  refine ⟨_, _, _, _, ?_, hread.1, hread.2, fun q h0 he => ?_, wrapRunState_position hp k y (decide (a ≠ .ok))⟩
  · rw [stepWith_eq, eventStep_engine, hstep, ← wrapRunState_cf k y, ← wrapRunState_requests k y (decide (a ≠ .ok))]
    exact congrArg Host.Outcome.next hframe.eq
  · rw [wrapRunState_buf]
    exact Memory.read_write_write_of_ne hI.bufWf h0 he ..

/-- Settles O29: the state the one-block RUN step leaves, field by field. -/
theorem oneBlockRunStep : Obligations.OneBlockRunStep := by
  rintro s a k d x y hI hp h1 ho hk rfl hok hfail
  have hcap := (hI.busyN (busy_of_run hp)).2
  have hstep := (engineStep_oneBlock hp ho h1 a).trans (runOneBlock_eq hk (by omega) d a)
  rw [bcsCall_fst, bcsCall_snd hok hfail, not_okAnswer_engine] at hstep
  obtain ⟨h0, h1⟩ := Memory.read_write_write hI.bufWf (le_refl 1) (hi64 y) (lo64 y)
  exact ⟨_, hstep, h0, h1, fun q hq => Memory.read_write_write_of_ne hI.bufWf (by omega) (by omega) ..⟩

/-! ### The FIN step (O30) -/

/-- With no failed transaction the FIN step of a wrap reports the length of its N + 1 semiblocks (R120). -/
theorem engineStep_finWrap_unfailed {s : State} (hI : Inv s) (hp : s.ph = .fin) (hd : s.op.dir = false)
    (hcf : s.cf = false) (a : BcsAnswer) :
    engineStep a s = .next (finishedState none (be64 (8 * (s.n.toNat + 1))) s.buf s) := by
  have hb := busy_of_fin hp
  have hno : ¬ s.cf = true := by rw [hcf]; exact Bool.noConfusion
  rw [engineStep_finWrap hp (op_of_wrap (hI.busyOp hb) hd), finWrap, if_neg hno, ← (hI.busy_report hb).2]
  rfl

/-- Settles O30: the FIN step of a wrap tests `CF` alone. -/
theorem wrapFinStep : Obligations.WrapFinStep := by
  intro s a hI hp hd
  exact ⟨fun hcf => engineStep_finWrap_unfailed hI hp hd hcf a, fun hcf =>
    ⟨_, clearedTo_clearTo fun _ _ => rfl, engineStep_fin_failed hI hp hcf a⟩⟩

/-! ### The chaining state in the buffer -/

/-- The buffer holds the chaining state `c` = (A, R[1..n]): A in entry 0, R[i] in entry i (R46, R47). -/
structure HoldsChain (m : Memory) (n : Nat) (c : Word × List Word) : Prop where
  length : c.2.length = n
  reads : HoldsSemiblocks m (c.1 :: c.2)

theorem HoldsChain.read_zero {m : Memory} {n : Nat} {c : Word × List Word} (h : HoldsChain m n c) : m.read 0 = c.1 :=
  h.reads 0 (Nat.zero_lt_succ _)

theorem HoldsChain.read_succ {m : Memory} {n q : Nat} {c : Word × List Word} (h : HoldsChain m n c) (hq : q < n) :
    m.read (q + 1) = c.2.getD q 0 := h.reads (q + 1) (Nat.succ_lt_succ (h.length.symm ▸ hq))

/-- Writing A to entry 0 of a buffer that holds R[1..n] from entry 1 up. -/
theorem holdsChain_write_zero {m : Memory} (hm : m.wf = true) (iv : Word) {r : List Word}
    (h : ∀ q < r.length, m.read (q + 1) = r.getD q 0) : HoldsChain (m.write 0 iv) r.length (iv, r) := by
  refine ⟨rfl, fun q hq => ?_⟩
  cases q with
  | zero => exact (Memory.read_write hm ..).trans (if_pos rfl)
  | succ q =>
    rw [Memory.read_write hm, if_neg q.succ_ne_zero]
    exact h q (Nat.lt_of_succ_lt_succ hq)

/-- A RUN step's two writes set A and R[e]. -/
theorem HoldsChain.write {m : Memory} {n e : Nat} {c : Word × List Word} (h : HoldsChain m n c) (hm : m.wf = true)
    (he : 1 ≤ e) (v w : Word) : HoldsChain ((m.write 0 v).write e w) n (v, c.2.set (e - 1) w) := by
  refine ⟨List.length_set.trans h.length, fun q hq => ?_⟩
  have hw := Memory.wf_write hm 0 v
  cases q with
  | zero => exact (Memory.read_write_write hm he v w).1
  | succ q =>
    have hqn : q < c.2.length := by simpa using hq
    rw [Memory.read_write hw, Memory.read_write hm, if_neg (show ¬ q + 1 = 0 by omega), h.read_succ (h.length ▸ hqn),
      List.getD_cons_succ, List.getD_eq_getElem?_getD, List.getD_eq_getElem?_getD, List.getElem?_set]
    by_cases hqe : q + 1 = e
    · rw [if_pos hqe, if_pos (by omega), if_pos (by omega)]
      rfl
    · rw [if_neg hqe, if_neg (by omega)]

/-! ### A command in flight under good answers -/

/-- A command in flight in direction `d` (inverse if `true`) with cipher function `F`, whose buffer holds the chaining
state that `point` gives for the sequencer's position. -/
structure Chaining (d : Bool) (F : Block → Block) (n : Nat) (point : Nat × Nat × Phase → Word × List Word) (s : State) :
    Prop where
  dir : s.op.dir = d
  count : s.n.toNat = n
  cipher : ∃ k, s.key = some k ∧ cipherFn s.cfg.cipher (if d then .decrypt else .encrypt) k = F
  chain : HoldsChain s.buf n (point s.position)

section Chaining

variable {d : Bool} {F : Block → Block} {n : Nat} {point : Nat × Nat × Phase → Word × List Word}

/-- A RUN step changes nothing of `Chaining` but the buffer and the position. -/
theorem Chaining.of_frame {s t : State} (h : Chaining d F n point s) (hf : RunFrame s t)
    (hchain : HoldsChain t.buf n (point t.position)) : Chaining d F n point t where
  dir := by rw [hf.eq]; exact h.dir
  count := by rw [hf.eq]; exact h.count
  cipher := by rw [hf.eq]; exact h.cipher
  chain := hchain

/-- Every RUN step with a good answer keeps the buffer in step with `point`. -/
def RunKeeps (d : Bool) (F : Block → Block) (n : Nat) (point : Nat × Nat × Phase → Word × List Word) : Prop :=
  ∀ s t : State, Inv s → s.ph = .run → Chaining d F n point s → engineStep .ok s = .next t → Chaining d F n point t

/-- An event of a schedule with good answers, whose host accesses a busy machine ignores (R44). -/
theorem eventStep_chaining (hkeep : RunKeeps d F n point) {e : Event} {s t : State} (hI : Inv s) (hb : s.ph ≠ .idle)
    (hr : e.noReset = true) (hok : e.okAnswer = true) (hc : engineCount [e] ≤ remainingRuns s)
    (h : Chaining d F n point s) (ht : eventStep s e = .next t) : Chaining d F n point t := by
  match e with
  | .host op =>
    obtain ⟨l, hl⟩ := eventStep_host_busy hb op
    cases hl.symm.trans ht
    exact ⟨h.dir, h.count, h.cipher, h.chain⟩
  | .engine .ok => exact hkeep s t hI (run_of_remainingRuns hb hc) h ht
  | .engine (.failed y) => cases hok
  | .reset => cases hr

/-- A schedule with good answers keeps the buffer in step with `point`, by induction on the schedule. -/
theorem runAgenda_chaining (hkeep : RunKeeps d F n point) {s : State} {evs : List Event} (hI : Inv s) (hb : s.ph ≠ .idle)
    (hr : ∀ e ∈ evs, e.noReset = true) (hok : AllOk evs) (hc : engineCount evs ≤ remainingRuns s)
    (h : Chaining d F n point s) :
    ∃ t, runAgenda { s with agenda := evs } = .next t ∧ Progress evs s t ∧ Chaining d F n point t := by
  induction evs generalizing s with
  | nil =>
    exact ⟨_, runAgenda_nil rfl, progress_records hI hb rfl (List.forall_mem_nil _) [] s.replies,
      h.dir, h.count, h.cipher, h.chain⟩
  | cons e evs ih =>
    obtain ⟨hre, hrs⟩ := List.forall_mem_cons.1 hr
    obtain ⟨hoke, hoks⟩ := List.forall_mem_cons.1 hok
    have hsplit : engineCount (e :: evs) = engineCount [e] + engineCount evs := engineCount_append [e] evs
    obtain ⟨t, ht, hst⟩ := eventStep_progress hI hb hre (by omega)
    have hleft := hst.left
    obtain ⟨u, hu, htu, hchain⟩ := ih hst.inv hst.busy hrs hoks (by omega)
      (eventStep_chaining hkeep hI hb hre hoke (by omega) h ht)
    exact ⟨u, (runAgenda_cons ht).trans hu, hst.trans htu, hchain⟩

/-- A command runs in three parts: its accept step, its schedule and its FIN step. -/
theorem commandRun_eq {i : Instr} {s u v w : State} {pre : List Event} {a : BcsAnswer} (he : exec i s = .next u)
    (hv : runAgenda { u with agenda := pre } = .next v) (hw : engineStep a v = .next w) :
    commandRun i pre a s = .next { w with agenda := [] } :=
  calc commandRun i pre a s
      = runAgenda { u with agenda := pre ++ [.engine a] } :=
        runAgenda_cons ((eventStep_command (decode_encode i)).trans he)
    _ = runAgenda { v with agenda := [.engine a] } := runAgenda_append hv _
    _ = runAgenda { w with agenda := [] } := runAgenda_cons hw
    _ = .next { w with agenda := [] } := runAgenda_nil rfl

/-- A whole command with good answers reaches its FIN step with `CF` = 0 and the buffer in step with `point`. -/
theorem commandRun_chaining (hkeep : RunKeeps d F n point) {i : Instr} {s u : State} {pre : List Event}
    (hst : Started i s u) (he : exec i s = .next u) (hu : u.ph = .run) (hs : RunSchedule u.n.toNat pre)
    (hok : AllOk pre) (h : Chaining d F n point u) (a : BcsAnswer) :
    ∃ v, Progress pre u v ∧ v.ph = .fin ∧ v.cf = false ∧ Chaining d F n point v ∧
      ∀ w, engineStep a v = .next w → commandRun i pre a s = .next { w with agenda := [] } := by
  obtain ⟨hr, hc⟩ := hs
  have hcount : engineCount pre = remainingRuns u := hc.trans hst.left.symm
  obtain ⟨v, hv, hprog, hchain⟩ := runAgenda_chaining hkeep hst.inv (busy_of_run hu) hr hok hcount.le h
  have hfin : v.ph = .fin := fin_of_remainingRuns hprog.inv hprog.busy (by have := hprog.left; omega)
  have hcf : v.cf = false := by
    refine Bool.eq_false_of_not_eq_true fun hv => ?_
    rcases hprog.cf.1 hv with hu | ⟨e, he, hf⟩
    · exact Bool.noConfusion (hst.cf.symm.trans hu)
    · exact Bool.noConfusion ((hok e he).symm.trans hf)
  exact ⟨v, hprog, hfin, hcf, hchain, fun w hw => commandRun_eq he hv hw⟩

end Chaining

/-! ### The chaining rounds of a wrap -/

/-- The chaining state of `WrapCore` after j rounds and i steps of the next one (R110). -/
def wrapAt (E : Block → Block) (iv : Word) (r : List Word) (j i : Nat) : Word × List Word :=
  (List.range i).foldl (fun c i => wrapBody E r.length j (i + 1) c)
    ((List.range j).foldl
      (fun c j => (List.range r.length).foldl (fun c i => wrapBody E r.length j (i + 1) c) c) (iv, r))

section WrapAt

variable (E : Block → Block) (iv : Word) (r : List Word)

theorem wrapAt_zero : wrapAt E iv r 0 0 = (iv, r) := rfl

theorem wrapAt_six : wrapAt E iv r 6 0 = wrapCore E iv r := rfl

theorem wrapAt_succ (j i : Nat) : wrapAt E iv r j (i + 1) = wrapBody E r.length j (i + 1) (wrapAt E iv r j i) := by
  rw [wrapAt, List.range_succ, List.foldl_append]
  rfl

theorem wrapAt_round (j : Nat) : wrapAt E iv r j r.length = wrapAt E iv r (j + 1) 0 := by
  rw [wrapAt, wrapAt, List.range_succ, List.foldl_append]
  rfl

/-- The chaining state that belongs to a position of the sequencer: the position's own step is still to come. -/
def wrapPoint : Nat × Nat × Phase → Word × List Word
  | (j, i, .run) => wrapAt E iv r j (i - 1)
  | (_, _, .fin) => wrapCore E iv r
  | (_, _, .idle) => wrapCore E iv r

/-- One step of R110 leads from a legal position to its successor. -/
theorem wrapPoint_successor {j i : Nat} (hj : j ≤ 5) (hi : 1 ≤ i) (hin : i ≤ r.length) :
    wrapPoint E iv r (wrapSuccessor r.length j i) = wrapBody E r.length j i (wrapPoint E iv r (j, i, .run)) := by
  obtain ⟨p, rfl⟩ : ∃ p, i = p + 1 := Nat.exists_eq_add_one.2 hi
  have hstep := wrapAt_succ E iv r j p
  unfold wrapSuccessor
  split_ifs with h h5
  · exact hstep
  · have hlast : p + 1 = r.length := by omega
    refine Eq.trans ?_ hstep
    rw [hlast, wrapAt_round]
    rfl
  · obtain ⟨hlast, rfl⟩ : p + 1 = r.length ∧ j = 5 := by omega
    refine Eq.trans ?_ hstep
    rw [hlast, wrapAt_round, wrapAt_six]
    rfl

end WrapAt

/-- A wrap RUN step takes the buffer's chaining state through the loop body of R110. -/
theorem HoldsChain.wrapStep {s : State} {E : Block → Block} {c : Word × List Word}
    (h : HoldsChain s.buf s.n.toNat c) (hm : s.buf.wf = true) (hpos : RunPos s) (k : Key) (f : Bool) :
    HoldsChain (wrapRunState k (E (s.buf.read 0 ++ s.buf.read s.i.toNat)) f s).buf s.n.toNat
      (wrapBody E s.n.toNat s.j.toNat s.i.toNat c) := by
  have hi := hpos.pos
  have htop := hpos.top
  have hread : s.buf.read s.i.toNat = c.2.getD (s.i.toNat - 1) 0 := by
    rw [← h.read_succ (by omega), Nat.sub_add_cancel hi]
  rw [wrapRunState_buf, h.read_zero, hread]
  exact h.write hm hi ..

/-- The chaining rounds of a wrap compute `WrapCore` (R118). -/
theorem runKeeps_wrap (E : Block → Block) (iv : Word) {r : List Word} (h2 : 2 ≤ r.length) :
    RunKeeps false E r.length (wrapPoint E iv r) := by
  intro s t hI hp h ht
  obtain ⟨k, hk, rfl : cipherFn s.cfg.cipher .encrypt k = E⟩ := h.cipher
  have hn := h.count
  have hpos := hI.legalPos hp (hn.symm ▸ h2)
  cases (engineStep_wrapRunState hI hp (hn.symm ▸ h2) h.dir hk .ok).symm.trans ht
  refine h.of_frame (wrapRunState_frame (busy_of_run hp) ..) ?_
  have hchain := h.chain
  rw [State.position, hp, ← hn] at hchain
  have hnext := hchain.wrapStep (E := cipherFn s.cfg.cipher .encrypt k) hI.bufWf hpos k false
  rw [hn, ← wrapPoint_successor _ _ _ hpos.j hpos.pos (hn ▸ hpos.top)] at hnext
  rw [wrapRunState_position hp, hn]
  exact hnext

/-- The chaining state of the one-block path: the block itself, then the halves of the answer (R111, R119). -/
def oneBlockPoint (F : Block → Block) (a x : Word) : Nat × Nat × Phase → Word × List Word
  | (_, _, .run) => (a, [x])
  | (_, _, .fin) => (hi64 (F (a ++ x)), [lo64 (F (a ++ x))])
  | (_, _, .idle) => (hi64 (F (a ++ x)), [lo64 (F (a ++ x))])

/-- The one-block RUN step puts the halves of the answer into entries 0 and 1 (R119, R139). -/
theorem runKeeps_oneBlock (d : Bool) (F : Block → Block) (a x : Word) : RunKeeps d F 1 (oneBlockPoint F a x) := by
  intro s t hI hp h ht
  obtain ⟨k, hk, rfl⟩ := h.cipher
  have hb := busy_of_run hp
  have hcap := (hI.busyN hb).2
  obtain ⟨d', ho, hd'⟩ := op_of_oneBlock hI hb h.count
  rw [h.dir] at hd'
  subst hd'
  have hn := h.count
  cases ((engineStep_oneBlock hp ho hn .ok).trans (runOneBlock_eq hk (by omega) _ .ok)).symm.trans ht
  refine h.of_frame (oneBlockState_frame s ..) ?_
  have hchain := h.chain
  rw [State.position, hp] at hchain
  have h0 : s.buf.read 0 = a := hchain.read_zero
  have h1 : s.buf.read 1 = x := hchain.read_succ Nat.one_pos
  have hnext := hchain.write hI.bufWf (le_refl 1)
  rw [h0, h1]
  exact hnext ..

/-! ### Whole wrap commands (O52, O53) -/

/-- `t` is idle after a successful wrap of n semiblocks from `s` that left the chaining state `c` (R120, R121). -/
structure Wrapped (n : Nat) (c : Word × List Word) (s t : State) : Prop where
  idle : t.ph = .idle
  status : t.status = 0x02
  chain : HoldsChain t.buf n c
  olen : t.olen = be64 (8 * (n + 1))
  count : t.n.toNat = n
  above : ∀ q, n < q → t.buf.read q = s.buf.read q

/-- A wrap command on an idle machine that passes validation with semiblock count n, and a schedule for it with good
answers. -/
structure WrapCall (i : Instr) (n : Nat) (k : Key) (pre : List Event) (s : State) : Prop where
  inv : Inv s
  idle : s.ph = .idle
  codec : i.isCodec = true
  dir : i.dir = false
  key : s.key = some k
  valid : Validated i n s
  exec : exec i s = .next (codecStarted i n s)
  schedule : RunSchedule n pre
  ok : AllOk pre

/-- A wrap command whose RUN steps keep the buffer in step with `point` leaves what `point` gives for FIN. -/
theorem WrapCall.wrapped {i : Instr} {n : Nat} {k : Key} {pre : List Event} {s : State} (h : WrapCall i n k pre s)
    {point : Nat × Nat × Phase → Word × List Word} {c : Word × List Word}
    (hkeep : RunKeeps false (cipherFn s.cfg.cipher .encrypt k) n point)
    (hstart : HoldsChain (startBuf i n s) n (point (0, 1, .run))) (hfin : ∀ j i, point (j, i, .fin) = c)
    (a : BcsAnswer) : ∃ t, commandRun i pre a s = .next t ∧ Wrapped n c s t := by
  have hN := h.valid.toNat_n h.inv.cfg
  obtain ⟨hj, hi⟩ := codecStarted_wrap h.dir n s
  have hst := exec_started h.inv h.idle h.codec h.exec rfl
  have hchain : Chaining false (cipherFn s.cfg.cipher .encrypt k) n point (codecStarted i n s) :=
    { dir := h.dir, count := hN, cipher := ⟨k, h.key, rfl⟩, chain := by rw [State.position, hj, hi]; exact hstart }
  obtain ⟨v, hprog, hv, hcf, hvc, hrun⟩ :=
    commandRun_chaining hkeep hst h.exec rfl (hN.symm ▸ h.schedule) h.ok hchain a
  have hmatched := (hprog.inv.busy_report hprog.busy).1
  have hend := hvc.chain
  rw [State.position, hv, hfin] at hend
  refine ⟨_, hrun _ (engineStep_finWrap_unfailed hprog.inv hv hvc.dir hcf a), ?_⟩
  exact
    { idle := rfl
      status := (status_of_success rfl rfl rfl).trans (if_neg (hmatched ▸ Bool.noConfusion))
      chain := hend
      olen := by rw [← hvc.count]; rfl
      count := hvc.count
      above := fun q hq => (hprog.above q (hN.symm ▸ hq)).trans (read_startBuf h.inv.bufWf i hq) }

/-- The chaining rounds compute `WrapCore` from n = 2 on (R110, R118). -/
theorem WrapCall.wrapped_rounds {i : Instr} {k : Key} {pre : List Event} {s : State} {iv : Word} {r : List Word}
    (h : WrapCall i r.length k pre s) (h2 : 2 ≤ r.length) (hstart : HoldsChain (startBuf i r.length s) r.length (iv, r))
    (a : BcsAnswer) : ∃ t, commandRun i pre a s = .next t ∧
      Wrapped r.length (wrapCore (cipherFn s.cfg.cipher .encrypt k) iv r) s t :=
  h.wrapped (runKeeps_wrap _ iv h2) hstart (fun _ _ => rfl) a

/-- The one-block path encrypts the block once (R111, R119). -/
theorem WrapCall.wrapped_oneBlock {i : Instr} {k : Key} {pre : List Event} {s : State} {iv x : Word}
    (h : WrapCall i 1 k pre s) (hstart : HoldsChain (startBuf i 1 s) 1 (iv, [x])) (a : BcsAnswer) :
    ∃ t, commandRun i pre a s = .next t ∧
      Wrapped 1 (hi64 (cipherFn s.cfg.cipher .encrypt k (iv ++ x)), [lo64 (cipherFn s.cfg.cipher .encrypt k (iv ++ x))])
        s t :=
  h.wrapped (runKeeps_oneBlock false _ iv x) hstart (fun _ _ => rfl) a

/-- Two semiblocks with the same bytes are the same. -/
theorem eq_of_byteOf_eq {v w : Word} (h : ∀ k < 8, byteOf v k = byteOf w k) : v = w := by
  refine BitVec.eq_of_getLsbD_eq fun i hi => ?_
  have hbit := congrArg (fun b : Byte => b.getLsbD (i % 8)) (h (7 - i / 8) (by omega))
  simpa [byteOf, Nat.mod_lt, show 56 - 8 * (7 - i / 8) + i % 8 = i by omega] using hbit

theorem length_semiblocks (p : List Byte) : (semiblocks p).length = ceil8 p.length := by
  rw [semiblocks, List.length_map, List.length_range]

theorem getD_semiblocks {p : List Byte} {q : Nat} (hq : q < ceil8 p.length) : (semiblocks p).getD q 0 = wordAt p q := by
  rw [List.getD_eq_getElem _ _ (length_semiblocks p ▸ hq)]
  simp only [semiblocks, List.getElem_map, List.getElem_range]
  rfl

/-- Once its pad bytes are masked, a buffer that holds a byte sequence holds its zero-padded semiblocks (R70, R115). -/
theorem read_padEntry_of_holdsBytes {m : Memory} (hm : m.wf = true) {p : List Byte} (h : HoldsBytes m 1 p) {q : Nat}
    (hq : q < ceil8 p.length) : (padEntry m (ceil8 p.length) p.length).read (q + 1) = wordAt p q := by
  rw [ceil8] at hq ⊢
  have hbyte : ∀ k < 8, 8 * q + k < p.length → byteOf (m.read (q + 1)) k = p.getD (8 * q + k) 0 := fun k hk hlt => by
    rw [← h _ hlt, Memory.byteAt, show 1 + (8 * q + k) / 8 = q + 1 by omega, show (8 * q + k) % 8 = k by omega]
  refine eq_of_byteOf_eq fun k hk => ?_
  rw [read_padEntry hm, wordAt, byteOf_wordOfBytes _ hk]
  split
  · next hpad =>
    rw [← hpad.2, byteOf_and_padMask _ (by omega) hk]
    split
    · exact hbyte k hk (by omega)
    · exact (List.getD_eq_default _ _ (by omega)).symm
  · exact hbyte k hk (by omega)

/-- A wrap that starts from the initial value and the padded plaintext. -/
theorem holdsChain_padded {s : State} {p : List Byte} (hm : s.buf.wf = true) (h : HoldsBytes s.buf 1 p) (iv : Word) :
    HoldsChain ((padEntry s.buf (ceil8 p.length) p.length).write 0 iv) (semiblocks p).length (iv, semiblocks p) := by
  refine holdsChain_write_zero (wf_padEntry hm ..) iv fun q hq => ?_
  rw [length_semiblocks] at hq
  rw [getD_semiblocks hq, read_padEntry_of_holdsBytes hm h hq]

/-- `LEN` holds every length of the length domain (R5). -/
theorem toNat_len {s : State} {p : List Byte} (hlen : s.len = be64 p.length) (hmax : p.length ≤ lmax) :
    s.len.toNat = p.length := by
  rw [lmax] at hmax
  rw [hlen, be64_toNat (by omega)]

theorem klenValid_of_key {s : State} {k : Key} (h : s.key = some k) : klenValid s.klen = true := by
  rw [← key_isSome, h]
  rfl

/-- Settles O52: validation passes, the start holds the plaintext's semiblocks, and the rounds compute `WrapCore`. -/
theorem wrapAgreesWithReference : Obligations.WrapAgreesWithReference := by
  intro s k p pre a hI hp hk hlen hbytes h16 hmax hcap h8 hs hok
  have hl := toNat_len hlen hmax
  have hceil : p.length / 8 = ceil8 p.length := by rw [ceil8]; omega
  have hv : wrapVerdict s.cfg s.len.toNat s.klen = .pass (p.length / 8) :=
    hl ▸ wrapVerdict_eq_pass (hl ▸ h16) (hl ▸ hmax) (hl ▸ hcap) (hl ▸ h8) (klenValid_of_key hk)
  have hr := (length_semiblocks p).trans hceil.symm
  have hcall : WrapCall .wrap (p.length / 8) k pre s :=
    ⟨hI, hp, rfl, rfl, hk, validated_wrap hv, exec_wrap_pass hp hv, hs, hok⟩
  have hstart := holdsChain_padded hI.bufWf hbytes defaultIV
  rw [padEntry, if_pos h8] at hstart
  rw [← hr] at hcall ⊢
  obtain ⟨t, ht, hw⟩ := hcall.wrapped_rounds (by omega) hstart a
  exact ⟨t, ht, hw.idle, hw.status, hw.chain.reads, congrArg Nat.succ hw.chain.length, hw.olen, hw.count, hw.above⟩

/-- `WrapPadRef` of a plaintext of one semiblock (R111). -/
theorem wrapPadRef_one {E : Block → Block} {p : List Byte} {x : Word} (h : semiblocks p = [x]) :
    wrapPadRef E p = [hi64 (E (aivOf p.length ++ x)), lo64 (E (aivOf p.length ++ x))] := by
  rw [wrapPadRef, h]

/-- `WrapPadRef` of a longer plaintext (R111). -/
theorem wrapPadRef_chain {E : Block → Block} {p : List Byte} (h : 2 ≤ (semiblocks p).length) :
    wrapPadRef E p = (wrapCore E (aivOf p.length) (semiblocks p)).1 :: (wrapCore E (aivOf p.length) (semiblocks p)).2 := by
  unfold wrapPadRef
  split
  · next hx =>
    rw [hx] at h
    exact absurd h (Nat.lt_irrefl 1)
  · rfl

/-- Settles O53: as for WRAP, with the pad bytes masked and the alternative IV; one semiblock takes the one-block
path. -/
theorem wrappAgreesWithReference : Obligations.WrappAgreesWithReference := by
  intro s k p pre a n hI hp hk hlen hbytes h1 hmax hceil hcap hs hok
  have hn : n = ceil8 p.length := hceil
  have hl := toNat_len hlen hmax
  have hv : wrappVerdict s.cfg s.len.toNat s.klen = .pass n := by
    rw [hl, hn]
    exact wrappVerdict_eq_pass h1 hmax (hn ▸ hcap) (klenValid_of_key hk)
  have hcall : WrapCall .wrapp n k pre s :=
    ⟨hI, hp, rfl, rfl, hk, validated_wrapp hv, exec_wrapp_pass hp hv, hs, hok⟩
  have hr : (semiblocks p).length = n := (length_semiblocks p).trans hn.symm
  have hstart : HoldsChain (startBuf .wrapp n s) n (aivOf p.length, semiblocks p) := by
    have h := holdsChain_padded hI.bufWf hbytes (aivOf p.length)
    rw [hr] at h
    rw [startBuf, hl, hn]
    exact hn ▸ h
  obtain ⟨c, href, t, ht, hw⟩ : ∃ c : Word × List Word, wrapPadRef (cipherFn s.cfg.cipher .encrypt k) p = c.1 :: c.2 ∧
      ∃ t, commandRun .wrapp pre a s = .next t ∧ Wrapped n c s t := by
    by_cases h2 : 2 ≤ (semiblocks p).length
    · subst hr
      exact ⟨_, wrapPadRef_chain h2, hcall.wrapped_rounds h2 hstart a⟩
    · have hone := hcall.valid.pos
      obtain rfl : n = 1 := by omega
      obtain ⟨x, hx⟩ := List.length_eq_one_iff.1 hr
      rw [hx] at hstart
      exact ⟨_, wrapPadRef_one hx, hcall.wrapped_oneBlock hstart a⟩
  rw [href]
  exact ⟨t, ht, hw.idle, hw.status, hw.chain.reads, congrArg Nat.succ hw.chain.length, hw.olen, hw.count, hw.above⟩

end Sys2Proof.Machine

/-! SUPPORT. Proofs of the statements about the unwrap commands: their validation and start, one step of the engine,
whole commands against the reference functions, and the round trips, and the obligations O15 to O18, O28, O31, O32, O51
and O54 to O57 settled from them. -/

namespace Sys2Proof.Machine

/-! ### Validation and start (O15 to O18) -/

/-- UNWRAP's validation passes when each of its checks does (R132). -/
theorem unwrapVerdict_eq_pass {c : Config} {n : Nat} {klen : Byte} (h2 : 2 ≤ n) (hmax : 8 * n ≤ lmax)
    (hcap : n ≤ c.nmax) (hk : klenValid klen = true) : unwrapVerdict c (8 * (n + 1)) klen = .pass n := by
  have hov : counterOverflows n = false := counterOverflows_of_le (by omega)
  rw [unwrapVerdict, if_neg (by omega), if_neg (by omega), if_neg (by omega), hk, if_neg Bool.noConfusion,
    show 8 * (n + 1) / 8 - 1 = n by omega, hov, if_neg Bool.noConfusion]

/-- UNWRAPP's validation passes when each of its checks does (R134). -/
theorem unwrappVerdict_eq_pass {c : Config} {n : Nat} {klen : Byte} (hc : c.Valid) (h1 : 1 ≤ n) (hcap : n ≤ c.nmax)
    (hk : klenValid klen = true) : unwrappVerdict c (8 * (n + 1)) klen = .pass n := by
  have hov : counterOverflows n = false := counterOverflows_of_le ((hcap.trans hc.2).trans (by decide))
  rw [unwrappVerdict, if_neg (by omega), if_neg (by omega), if_neg (by omega), hk, if_neg Bool.noConfusion,
    show 8 * (n + 1) / 8 - 1 = n by omega, hov, if_neg Bool.noConfusion]

theorem validated_unwrap {s : State} {n : Nat} (h : unwrapVerdict s.cfg s.len.toNat s.klen = .pass n) :
    Validated .unwrap n s := by
  obtain ⟨-, h2, hcap, -, hk⟩ := unwrapVerdict_pass h
  exact ⟨by omega, hcap, fun _ => h2, hk⟩

theorem validated_unwrapp {s : State} {n : Nat} (h : unwrappVerdict s.cfg s.len.toNat s.klen = .pass n) :
    Validated .unwrapp n s := by
  obtain ⟨-, h1, hcap, hk⟩ := unwrappVerdict_pass h
  exact ⟨h1, hcap, nofun, hk⟩

/-- What the accept step of codec command `i` leaves of an idle machine, by the verdict of its validation. -/
def codecAccepted (i : Instr) (s : State) : Verdict → State
  | .refuse k => refusedState i k s
  | .pass n => codecStarted i n s

theorem exec_unwrap_idle {s : State} (hp : s.ph = .idle) {v : Verdict}
    (hv : unwrapVerdict s.cfg s.len.toNat s.klen = v) : exec .unwrap s = .next (codecAccepted .unwrap s v) := by
  rw [exec, execUnwrap, accept_idle hp, State.withdraw_cfg, State.withdraw_len, State.withdraw_klen, hv]
  cases v <;> rfl

theorem exec_unwrapp_idle {s : State} (hp : s.ph = .idle) {v : Verdict}
    (hv : unwrappVerdict s.cfg s.len.toNat s.klen = v) : exec .unwrapp s = .next (codecAccepted .unwrapp s v) := by
  rw [exec, execUnwrapp, accept_idle hp, State.withdraw_cfg, State.withdraw_len, State.withdraw_klen, hv]
  cases v <;> rfl

/-- Settles O15: the checks pass, and the start leaves the buffer. -/
theorem unwrapStarts : Obligations.UnwrapStarts := by
  intro s n _ hp hl h2 hmax hcap hk
  exact exec_unwrap_idle hp (hl ▸ unwrapVerdict_eq_pass h2 hmax hcap (klenValid_iff.2 hk))

/-- Settles O16: each clause is the verdict of the first check that fails. -/
theorem unwrapRefuses : Obligations.UnwrapRefuses := by
  rintro s l - hp rfl
  have hexec := fun k => exec_unwrap_idle hp (v := .refuse k)
  refine ⟨fun h => hexec _ ?_, fun h24 hbig => hexec _ ?_, fun h24 hmax hcap h8 => hexec _ ?_,
    fun h24 hmax hcap h8 hk => hexec _ ?_⟩
  · rw [unwrapVerdict, if_pos h]
  · rw [unwrapVerdict, if_neg (by omega)]
    exact if_pos hbig
  · rw [unwrapVerdict, if_neg (by omega), if_neg (by rw [lmax]; omega), if_pos h8]
  · rw [unwrapVerdict, if_neg (by omega), if_neg (by rw [lmax]; omega), if_neg (by omega),
      if_pos (klenValid_eq_false_iff.2 hk)]

/-- Settles O17: the checks pass, and the start leaves the buffer. -/
theorem unwrappStarts : Obligations.UnwrappStarts := by
  intro s n hc hp hl h1 hcap hk
  exact exec_unwrapp_idle hp (hl ▸ unwrappVerdict_eq_pass hc h1 hcap (klenValid_iff.2 hk))

/-- Settles O18: each clause is the verdict of the first check that fails. -/
theorem unwrappRefuses : Obligations.UnwrappRefuses := by
  rintro s l - hp rfl
  have hexec := fun k => exec_unwrapp_idle hp (v := .refuse k)
  refine ⟨fun h => hexec _ ?_, fun h16 hbig => hexec _ ?_, fun h16 hcap h8 => hexec _ ?_,
    fun h16 hcap h8 hk => hexec _ ?_⟩
  · rw [unwrappVerdict, if_pos h]
  · rw [unwrappVerdict, if_neg (by omega), if_pos hbig]
  · rw [unwrappVerdict, if_neg (by omega), if_neg (by omega), if_pos h8]
  · rw [unwrappVerdict, if_neg (by omega), if_neg (by omega), if_neg (by omega), if_pos (klenValid_eq_false_iff.2 hk)]

/-! ### One RUN step (O28) -/

/-- The position after (j, i) in an unwrap of n semiblocks (R138). -/
def unwrapSuccessor (n j i : Nat) : Nat × Nat × Phase :=
  if 1 < i then (j, i - 1, .run) else if 0 < j then (j - 1, n, .run) else (j, i, .fin)

/-- No advance of an unwrap takes `J` or `I` below zero. -/
theorem advanceUnwrap_position {s : State} (hp : s.ph = .run) :
    (advanceUnwrap s).position = unwrapSuccessor s.n.toNat s.j.toNat s.i.toNat := by
  rcases advanceUnwrap_cases s with ⟨hi, hs⟩ | ⟨hi, hj, hs⟩ | ⟨hi, hj, hs⟩
  all_goals rw [hs, State.position, unwrapSuccessor]
  · have hi' : (s.i - 1).toNat = s.i.toNat - 1 := BitVec.toNat_sub_of_le (show 1 ≤ s.i.toNat by omega)
    rw [if_pos hi, hi', hp]
  · have hj' : (s.j - 1).toNat = s.j.toNat - 1 := BitVec.toNat_sub_of_le (show 1 ≤ s.j.toNat from hj)
    rw [if_neg (by omega), if_pos hj, hj', hp]
  · rw [if_neg (by omega), if_neg (by omega)]

theorem unwrapRunState_position {s : State} (hp : s.ph = .run) (k : Key) (y : Block) (f : Bool) :
    (unwrapRunState k y f s).position = unwrapSuccessor s.n.toNat s.j.toNat s.i.toNat := advanceUnwrap_position hp

/-- Settles O28: the state an unwrap RUN step leaves, field by field. -/
theorem unwrapRunStep : Obligations.UnwrapRunStep := by
  rintro s a k x y e t hI hp hd h2 hk rfl rfl rfl hok hfail
  have hpos := hI.legalPos hp h2
  have hstep := engineStep_unwrapRunState hI hp h2 hd hk a
  have hy := bcsCall_snd (c := s.cfg.cipher) (d := .decrypt) (k := k) hok hfail
  rw [State.t, be64, hy, not_okAnswer_engine] at hstep
  have hframe := unwrapRunState_frame (busy_of_run hp) k y (decide (a ≠ .ok))
  have hread := Memory.read_write_write hI.bufWf hpos.pos (hi64 y) (lo64 y)
  rw [← unwrapRunState_buf k y (decide (a ≠ .ok))] at hread
  refine ⟨_, _, _, _, ?_, hread.1, hread.2, fun q h0 he => ?_, unwrapRunState_position hp k y (decide (a ≠ .ok))⟩
  · have hreq := unwrapRunState_requests k y (decide (a ≠ .ok)) s
    rw [State.t, be64] at hreq
    rw [stepWith_eq, eventStep_engine, hstep, ← unwrapRunState_cf k y, ← hreq]
    exact congrArg Host.Outcome.next hframe.eq
  · rw [unwrapRunState_buf]
    exact Memory.read_write_write_of_ne hI.bufWf h0 he ..

/-! ### The FIN steps (O31, O32) -/

/-- The end of an unwrap with no failed transaction: the result length `l` if the integrity check passes, otherwise the
late error (R140, R141, R153). -/
def unwrapFinished (ok : Bool) (l : Nat) (s : State) : State :=
  if ok then finishedState none (be64 l) s.buf s
  else finishedState (some .integrityCheckingOfInitialValueFailed) 0 (s.buf.clearTo s.n.toNat) s

/-- With no failed transaction the FIN step of UNWRAP verifies the recovered IV (R140). -/
theorem engineStep_finUnwrap_unfailed {s : State} (hI : Inv s) (hp : s.ph = .fin) (ho : s.op = .unwrap)
    (hcf : s.cf = false) (a : BcsAnswer) :
    engineStep a s = .next (unwrapFinished (verify (s.buf.read 0) defaultIV) (8 * s.n.toNat) s) := by
  have hno : ¬ s.cf = true := by rw [hcf]; exact Bool.noConfusion
  rw [engineStep_finUnwrap hp ho, finUnwrap, if_neg hno, unwrapFinished, ← (hI.busy_report (busy_of_fin hp)).2]
  cases verify (s.buf.read 0) defaultIV <;> rfl

/-- With no failed transaction the FIN step of UNWRAPP checks the recovered AIV and the padding (R141). -/
theorem engineStep_finUnwrapp_unfailed {s : State} (hI : Inv s) (hp : s.ph = .fin) (ho : s.op = .unwrapp)
    (hcf : s.cf = false) (a : BcsAnswer) :
    engineStep a s = .next (unwrapFinished (unwrappOk s.buf s.n.toNat) (aivLength (s.buf.read 0)) s) := by
  have hb := busy_of_fin hp
  have hno : ¬ s.cf = true := by rw [hcf]; exact Bool.noConfusion
  rw [engineStep_finUnwrapp hp ho (hI.busyN hb).2, finUnwrapp, if_neg hno, unwrapFinished, ← (hI.busy_report hb).2]
  cases unwrappOk s.buf s.n.toNat <;> rfl

/-- Settles O31: `CF` is tested first, then the recovered IV. -/
theorem unwrapFinStep : Obligations.UnwrapFinStep := by
  intro s a hI hp ho
  have hclear : ClearedTo s.n.toNat s.buf (s.buf.clearTo s.n.toNat) := clearedTo_clearTo fun _ _ => rfl
  refine ⟨fun hcf => ⟨_, hclear, engineStep_fin_failed hI hp hcf a⟩, fun hcf hiv => ⟨_, hclear, ?_⟩, fun hcf hiv => ?_⟩
  all_goals rw [stepWith_eq, eventStep_engine]; refine (engineStep_finUnwrap_unfailed hI hp ho hcf a).trans ?_
  · have hver : verify (s.buf.read 0) defaultIV = false := Bool.eq_false_of_not_eq_true (mt verify_eq_true_iff.1 hiv)
    rw [hver]
    rfl
  · have hver : verify (s.buf.read 0) defaultIV = true := verify_eq_true_iff.2 hiv
    rw [hver]
    rfl

/-- `AIVCheck`'s range of M without a subtraction (R94). -/
theorem aivCheck_eq_true_iff_add {c : Word} {n : Nat} : (aivCheck c n).1 = true ↔
    c.extractLsb' 32 32 = aivConst ∧ 8 * n ≤ aivLength c + 7 ∧ aivLength c ≤ 8 * n := by
  rw [aivCheck_eq_true_iff]
  refine and_congr_right fun _ => ?_
  omega

/-- The integrity conditions of UNWRAPP, byte by byte: the bytes from M on all lie in the last semiblock (R137,
R141). -/
theorem unwrappOk_iff {m : Memory} {n : Nat} : unwrappOk m n = true ↔
    (m.read 0).extractLsb' 32 32 = aivConst ∧ 8 * n ≤ aivLength (m.read 0) + 7 ∧ aivLength (m.read 0) ≤ 8 * n ∧
      ∀ q, aivLength (m.read 0) ≤ q → q < 8 * n → m.byteAt 1 q = 0 := by
  have hsplit : unwrappOk m n = ((aivCheck (m.read 0) n).1 && padZero (m.read n) (8 * n - aivLength (m.read 0))) := rfl
  rw [hsplit, Bool.and_eq_true, aivCheck_eq_true_iff_add, and_assoc, and_assoc]
  refine and_congr_right fun _ => and_congr_right fun hlo => and_congr_right fun hhi => ?_
  rw [padZero_iff (by omega)]
  constructor
  · intro h q hq hqn
    rw [Memory.byteAt, show 1 + q / 8 = n by omega]
    exact h (q % 8) (by omega) (Nat.mod_lt q (by decide))
  · intro h k hk hk8
    have hbyte := h (8 * n - 8 + k) (by omega) (by omega)
    rwa [Memory.byteAt, show 1 + (8 * n - 8 + k) / 8 = n by omega, show (8 * n - 8 + k) % 8 = k by omega] at hbyte

/-- Settles O32: `CF` is tested first, then the three integrity conditions. -/
theorem unwrappFinStep : Obligations.UnwrappFinStep := by
  rintro s a m n hI hp ho rfl rfl
  have hclear : ClearedTo s.n.toNat s.buf (s.buf.clearTo s.n.toNat) := clearedTo_clearTo fun _ _ => rfl
  refine ⟨fun hcf => ⟨_, hclear, engineStep_fin_failed hI hp hcf a⟩, fun hcf hbad => ⟨_, hclear, ?_⟩,
    fun hcf hpat hlo hhi hpad => ?_⟩
  all_goals rw [stepWith_eq, eventStep_engine]; refine (engineStep_finUnwrapp_unfailed hI hp ho hcf a).trans ?_
  · have hok : unwrappOk s.buf s.n.toNat = false := Bool.eq_false_of_not_eq_true (mt unwrappOk_iff.1 hbad)
    rw [hok]
    rfl
  · rw [unwrappOk_iff.2 ⟨hpat, hlo, hhi, hpad⟩]
    rfl

/-! ### The bytes of a sequence of semiblocks -/

theorem length_bytesOf (ws : List Word) : (bytesOf ws).length = 8 * ws.length := by
  induction ws with
  | nil => rfl
  | cons w ws ih =>
    have hcons : bytesOf (w :: ws) = (List.range 8).map (byteOf w) ++ bytesOf ws := rfl
    rw [hcons, List.length_append, ih, List.length_map, List.length_range, List.length_cons, Nat.mul_add_one,
      Nat.add_comm]

/-- Byte q of a sequence of semiblocks is byte q mod 8 of semiblock q div 8 (R45). -/
theorem getD_bytesOf (ws : List Word) (q : Nat) : (bytesOf ws).getD q 0 = byteOf (ws.getD (q / 8) 0) (q % 8) := by
  induction ws generalizing q with
  | nil => exact BitVec.extractLsb'_zero.symm
  | cons w ws ih =>
    have hcons : bytesOf (w :: ws) = (List.range 8).map (byteOf w) ++ bytesOf ws := rfl
    have hlen : ((List.range 8).map (byteOf w)).length = 8 := by rw [List.length_map, List.length_range]
    rw [hcons]
    by_cases hq : q < 8
    · have hql := hlen.symm ▸ hq
      rw [List.getD_append _ _ _ _ hql, List.getD_eq_getElem _ _ hql, List.getElem_map, List.getElem_range,
        Nat.div_eq_of_lt hq, Nat.mod_eq_of_lt hq, List.getD_cons_zero]
    · obtain ⟨p, rfl⟩ : ∃ p, q = p + 8 := Nat.exists_eq_add_of_le' (Nat.not_lt.1 hq)
      rw [List.getD_append_right _ _ _ _ (Nat.le_add_left 8 p), hlen, Nat.add_sub_cancel, ih, Nat.add_mod_right,
        Nat.add_div_right p (by decide), List.getD_cons_succ]

/-- The padded semiblocks of a byte sequence hold its bytes, and zero after them (R70). -/
theorem getD_bytesOf_semiblocks (p : List Byte) (q : Nat) : (bytesOf (semiblocks p)).getD q 0 = p.getD q 0 := by
  by_cases hq : q / 8 < ceil8 p.length
  · rw [getD_bytesOf, getD_semiblocks hq, byteOf_wordAt]
  · rw [ceil8] at hq
    rw [List.getD_eq_default _ _ (by omega : p.length ≤ q), List.getD_eq_default]
    rw [length_bytesOf, length_semiblocks, ceil8]
    omega

/-- The first bytes of the padded semiblocks are the byte sequence itself. -/
theorem take_bytesOf_semiblocks (p : List Byte) : (bytesOf (semiblocks p)).take p.length = p := by
  have hlen : p.length ≤ (bytesOf (semiblocks p)).length := by
    rw [length_bytesOf, length_semiblocks, ceil8]
    omega
  refine List.ext_getElem (List.length_take_of_le hlen) fun q _ hq => ?_
  rw [List.getElem_take, ← List.getD_eq_getElem _ 0 (hq.trans_le hlen), getD_bytesOf_semiblocks,
    List.getD_eq_getElem _ 0 hq]

/-- What is cut off is zero (R131). -/
theorem all_drop_eq_zero_iff {p : List Byte} {m : Nat} :
    (p.drop m).all (· == 0) = true ↔ ∀ q, m ≤ q → q < p.length → p.getD q 0 = 0 := by
  simp only [List.all_eq_true, beq_iff_eq, List.forall_mem_iff_getElem, List.getElem_drop, List.length_drop]
  constructor
  · intro h q hm hq
    have hbyte := h (q - m) (by omega)
    rw [List.getD_eq_getElem _ _ hq]
    simpa only [Nat.add_sub_cancel' hm] using hbyte
  · intro h q hq
    rw [← List.getD_eq_getElem _ 0]
    exact h (m + q) (Nat.le_add_right m q) (by omega)

/-- The buffer's byte sequence of a length is held by the buffer (R45). -/
theorem holdsBytes_bytes (m : Memory) (start l : Nat) : HoldsBytes m start (m.bytes start l) := by
  intro q hq
  rw [List.getD_eq_getElem _ _ hq]
  simp only [Memory.bytes, List.getElem_map, List.getElem_range]

theorem length_bytes (m : Memory) (start l : Nat) : (m.bytes start l).length = l := by
  rw [Memory.bytes, List.length_map, List.length_range]

/-- The bytes of R[1..n] stand in the buffer from entry 1 on. -/
theorem HoldsChain.byteAt {m : Memory} {n q : Nat} {c : Word × List Word} (h : HoldsChain m n c) (hq : q < 8 * n) :
    m.byteAt 1 q = (bytesOf c.2).getD q 0 := by
  rw [Memory.byteAt, Nat.add_comm, h.read_succ (by omega), getD_bytesOf]

/-! ### The reference rounds (O51) -/

/-- A fold is undone by the fold of a left inverse over the reversed list, on the states `P` that the fold keeps. -/
theorem foldl_reverse_foldl {α β : Type} {f g : β → α → β} {P : β → Prop} {l : List α}
    (hP : ∀ x ∈ l, ∀ c, P c → P (f c x)) (hgf : ∀ x ∈ l, ∀ c, P c → g (f c x) x = c) {c : β} (hc : P c) :
    l.reverse.foldl g (l.foldl f c) = c := by
  induction l generalizing c with
  | nil => rfl
  | cons x l ih =>
    obtain ⟨hPx, hPl⟩ := List.forall_mem_cons.1 hP
    obtain ⟨hx, hl⟩ := List.forall_mem_cons.1 hgf
    rw [List.foldl_cons, List.reverse_cons, List.foldl_append, ih hPl hl (hPx c hc)]
    exact hx c hc

/-- Round j of R110. -/
def wrapRound (E : Block → Block) (n : Nat) (c : Word × List Word) (j : Nat) : Word × List Word :=
  (List.range n).foldl (fun c i => wrapBody E n j (i + 1) c) c

/-- Round j of R130. -/
def unwrapRound (D : Block → Block) (n : Nat) (c : Word × List Word) (j : Nat) : Word × List Word :=
  (List.range n).reverse.foldl (fun c i => unwrapBody D n j (i + 1) c) c

theorem wrapCore_eq_rounds (E : Block → Block) (iv : Word) (r : List Word) :
    wrapCore E iv r = (List.range 6).foldl (wrapRound E r.length) (iv, r) := rfl

theorem unwrapCore_eq_rounds (D : Block → Block) (a : Word) (r : List Word) :
    unwrapCore D a r = (List.range 6).reverse.foldl (unwrapRound D r.length) (a, r) := rfl

theorem length_wrapRound (E : Block → Block) (n : Nat) (c : Word × List Word) (j : Nat) :
    (wrapRound E n c j).2.length = c.2.length :=
  List.foldlRecOn (motive := fun (b : Word × List Word) => b.2.length = c.2.length) _ _ rfl fun _ hb _ _ =>
    List.length_set.trans hb

theorem length_wrapCore (E : Block → Block) (iv : Word) (r : List Word) : (wrapCore E iv r).2.length = r.length :=
  List.foldlRecOn (motive := fun (b : Word × List Word) => b.2.length = r.length) _ (wrapRound E r.length) rfl
    fun b hb j _ => (length_wrapRound E r.length b j).trans hb

section RoundTrip

variable {enc dec : Block → Block} (hinv : ∀ x, dec (enc x) = x)

include hinv

/-- The loop body of R130 undoes that of R110: the xor with t first, then the block (R205). -/
theorem unwrapBody_wrapBody {n j i : Nat} {c : Word × List Word} (hi : i < c.2.length) :
    unwrapBody dec n j (i + 1) (wrapBody enc n j (i + 1) c) = c := by
  have hget : (c.2.set i (lo64 (enc (c.1 ++ c.2.getD i 0)))).getD i 0 = lo64 (enc (c.1 ++ c.2.getD i 0)) := by
    rw [List.getD_eq_getElem _ _ (by rwa [List.length_set]), List.getElem_set_self]
  have hset : c.2.set i (c.2.getD i 0) = c.2 := by rw [List.getD_eq_getElem _ _ hi, List.set_getElem_self]
  simp only [unwrapBody, wrapBody, Nat.add_sub_cancel, hget, xor_be64_xor_be64, hi64_append_lo64, hinv, hi64_append,
    lo64_append, List.set_set, hset]

theorem unwrapRound_wrapRound {n : Nat} {c : Word × List Word} (hc : c.2.length = n) (j : Nat) :
    unwrapRound dec n (wrapRound enc n c j) j = c :=
  foldl_reverse_foldl (P := fun c => c.2.length = n) (fun _ _ _ h => List.length_set.trans h)
    (fun _ hi _ h => unwrapBody_wrapBody hinv (h ▸ List.mem_range.1 hi)) hc

/-- The rounds of R130 undo those of R110 (R142). -/
theorem unwrapCore_wrapCore (iv : Word) (r : List Word) :
    unwrapCore dec (wrapCore enc iv r).1 (wrapCore enc iv r).2 = (iv, r) := by
  rw [unwrapCore_eq_rounds, length_wrapCore, wrapCore_eq_rounds]
  exact foldl_reverse_foldl (P := fun c => c.2.length = r.length) (fun j _ c h => (length_wrapRound enc _ c j).trans h)
    (fun j _ _ h => unwrapRound_wrapRound hinv h j) rfl

end RoundTrip

/-- The candidate of a longer ciphertext comes from the rounds (R131). -/
theorem unwrapPadCandidate_chain {D : Block → Block} {a : Word} {r : List Word} (h : 2 ≤ r.length) :
    unwrapPadCandidate D a r = unwrapCore D a r := by
  unfold unwrapPadCandidate
  split
  · exact absurd h (Nat.lt_irrefl 1)
  · rfl

/-- The candidate of a ciphertext of two semiblocks is one block (R131). -/
theorem unwrapPadCandidate_one (D : Block → Block) (a x : Word) :
    unwrapPadCandidate D a [x] = (hi64 (D (a ++ x)), [lo64 (D (a ++ x))]) := rfl

/-- `WrapPadRef` is a chaining state whose candidate is the alternative IV with the padded plaintext. -/
theorem wrapPadRef_candidate {enc dec : Block → Block} (hinv : ∀ x, dec (enc x) = x) {p : List Byte}
    (h1 : 1 ≤ p.length) :
    ∃ c : Word × List Word, wrapPadRef enc p = c.1 :: c.2 ∧ c.2.length = ceil8 p.length ∧
      unwrapPadCandidate dec c.1 c.2 = (aivOf p.length, semiblocks p) := by
  have hlen := length_semiblocks p
  by_cases h2 : 2 ≤ (semiblocks p).length
  · have hl := length_wrapCore enc (aivOf p.length) (semiblocks p)
    exact ⟨_, wrapPadRef_chain h2, hl.trans hlen,
      (unwrapPadCandidate_chain (hl.symm ▸ h2)).trans (unwrapCore_wrapCore hinv ..)⟩
  · have hone : 1 ≤ ceil8 p.length := by
      rw [ceil8]
      omega
    obtain ⟨x, hx⟩ := List.length_eq_one_iff.1 (show (semiblocks p).length = 1 by omega)
    refine ⟨(hi64 (enc (aivOf p.length ++ x)), [lo64 (enc (aivOf p.length ++ x))]), wrapPadRef_one hx,
      hlen ▸ hx ▸ rfl, ?_⟩
    rw [unwrapPadCandidate_one, hi64_append_lo64, hinv, hi64_append, lo64_append, hx]

/-- The integrity conditions of R131 on a candidate (A, R[1..n]). -/
def candidateOk (n : Nat) (c : Word × List Word) : Bool :=
  (aivCheck c.1 n).1 && ((bytesOf c.2).drop (aivLength c.1)).all (· == 0)

theorem unwrapPadRef_cons (D : Block → Block) (a : Word) (r : List Word) : unwrapPadRef D (a :: r) =
    if candidateOk r.length (unwrapPadCandidate D a r) then
      some ((bytesOf (unwrapPadCandidate D a r).2).take (aivLength (unwrapPadCandidate D a r).1))
    else none := rfl

/-- The conditions of R131 are those of R141. -/
theorem candidateOk_iff {n : Nat} {c : Word × List Word} (hc : c.2.length = n) : candidateOk n c = true ↔
    c.1.extractLsb' 32 32 = aivConst ∧ 8 * n ≤ aivLength c.1 + 7 ∧ aivLength c.1 ≤ 8 * n ∧
      ∀ q, aivLength c.1 ≤ q → q < 8 * n → (bytesOf c.2).getD q 0 = 0 := by
  rw [candidateOk, Bool.and_eq_true, aivCheck_eq_true_iff_add, all_drop_eq_zero_iff, length_bytesOf, hc, and_assoc,
    and_assoc]

theorem aivLength_aivOf {l : Nat} (h : l ≤ lmax) : aivLength (aivOf l) = l := by
  have hlow : (aivOf l).extractLsb' 0 32 = be32 l := BitVec.extractLsb'_append_eq_right
  rw [lmax] at h
  rw [aivLength, hlow, be32, BitVec.toNat_ofNat, Nat.mod_eq_of_lt (by omega)]

/-- The alternative IV with the padded plaintext passes the checks (R131). -/
theorem candidateOk_plaintext {p : List Byte} (hmax : p.length ≤ lmax) :
    candidateOk (ceil8 p.length) (aivOf p.length, semiblocks p) = true := by
  refine (candidateOk_iff (length_semiblocks p)).2 ?_
  rw [aivLength_aivOf hmax, ceil8]
  refine ⟨?_, by omega, by omega, fun q hq _ => ?_⟩
  · rw [← eq_aivOf_aivLength_iff, aivLength_aivOf hmax]
  · rw [getD_bytesOf_semiblocks]
    exact List.getD_eq_default _ _ hq

/-- Settles O51: the rounds are undone, so the recovered IV and the recovered semiblocks are those of the wrap. -/
theorem referenceRoundTrip : Obligations.ReferenceRoundTrip := by
  intro enc dec hinv p
  refine ⟨fun _ h8 => ?_, fun h1 hmax => ?_⟩
  · have hcore := unwrapCore_wrapCore hinv defaultIV (semiblocks p)
    have hbytes : bytesOf (semiblocks p) = p := by
      have htake := take_bytesOf_semiblocks p
      rwa [List.take_of_length_le] at htake
      rw [length_bytesOf, length_semiblocks, ceil8]
      omega
    rw [wrapRef, unwrapRef, hcore, hbytes]
    rfl
  · obtain ⟨c, hc, hlen, hcand⟩ := wrapPadRef_candidate hinv h1
    rw [hc, unwrapPadRef_cons, hcand, hlen, candidateOk_plaintext hmax, if_pos rfl, aivLength_aivOf hmax,
      take_bytesOf_semiblocks]

/-! ### The chaining rounds of an unwrap -/

/-- A fold over the numbers below n, the last one first. -/
theorem foldl_range_reverse {β : Type} (f : β → Nat → β) (n : Nat) (b : β) :
    (List.range n).reverse.foldl f b = (List.range n).foldl (fun c y => f c (n - 1 - y)) b := by
  rw [List.range_eq_range', List.reverse_range', List.foldl_map, List.range_eq_range', Nat.zero_add]

/-- The chaining state of `UnwrapCore` after x rounds and y steps of the next one (R130). -/
def unwrapAt (D : Block → Block) (a : Word) (r : List Word) (x y : Nat) : Word × List Word :=
  (List.range y).foldl (fun c y => unwrapBody D r.length (5 - x) (r.length - 1 - y + 1) c)
    ((List.range x).foldl (fun c x => unwrapRound D r.length c (5 - x)) (a, r))

section UnwrapAt

variable (D : Block → Block) (a : Word) (r : List Word)

theorem unwrapAt_rounds (x : Nat) : unwrapAt D a r x 0 =
    (List.range x).foldl (fun c x => unwrapRound D r.length c (5 - x)) (a, r) := rfl

theorem unwrapAt_succ (x y : Nat) : unwrapAt D a r x (y + 1) =
    unwrapBody D r.length (5 - x) (r.length - 1 - y + 1) (unwrapAt D a r x y) := by
  rw [unwrapAt, List.range_succ, List.foldl_append]
  rfl

theorem unwrapAt_round (x : Nat) : unwrapAt D a r x r.length = unwrapAt D a r (x + 1) 0 := by
  have hround : unwrapAt D a r x r.length = unwrapRound D r.length (unwrapAt D a r x 0) (5 - x) :=
    (foldl_range_reverse (fun c i => unwrapBody D r.length (5 - x) (i + 1) c) ..).symm
  rw [hround, unwrapAt_rounds, unwrapAt_rounds, List.range_succ, List.foldl_append, List.foldl_cons, List.foldl_nil]

theorem unwrapAt_six : unwrapAt D a r 6 0 = unwrapCore D a r := by
  rw [unwrapCore_eq_rounds, foldl_range_reverse, unwrapAt_rounds]

/-- The chaining state that belongs to a position of the sequencer: the position's own step is still to come. -/
def unwrapPoint : Nat × Nat × Phase → Word × List Word
  | (j, i, .run) => unwrapAt D a r (5 - j) (r.length - i)
  | (_, _, .fin) => unwrapCore D a r
  | (_, _, .idle) => unwrapCore D a r

theorem unwrapPoint_start : unwrapPoint D a r (5, r.length, .run) = (a, r) := by
  rw [unwrapPoint, Nat.sub_self, Nat.sub_self, unwrapAt_rounds, List.range_zero, List.foldl_nil]

/-- One step of R130 leads from a legal position to its successor. -/
theorem unwrapPoint_successor {j i : Nat} (hj : j ≤ 5) (hi : 1 ≤ i) (hin : i ≤ r.length) :
    unwrapPoint D a r (unwrapSuccessor r.length j i) = unwrapBody D r.length j i (unwrapPoint D a r (j, i, .run)) := by
  have hstep := unwrapAt_succ D a r (5 - j) (r.length - i)
  rw [show 5 - (5 - j) = j by omega, show r.length - 1 - (r.length - i) + 1 = i by omega] at hstep
  refine Eq.trans ?_ hstep
  unfold unwrapSuccessor
  split_ifs with h h0
  · rw [unwrapPoint, show r.length - (i - 1) = r.length - i + 1 by omega]
  · rw [show r.length - i + 1 = r.length by omega, unwrapAt_round, unwrapPoint, Nat.sub_self,
      show 5 - (j - 1) = 5 - j + 1 by omega]
  · obtain ⟨rfl, rfl⟩ : j = 0 ∧ i = 1 := by omega
    rw [Nat.sub_add_cancel hin, unwrapAt_round, unwrapAt_six]
    rfl

end UnwrapAt

/-- An unwrap RUN step takes the buffer's chaining state through the loop body of R130. -/
theorem HoldsChain.unwrapStep {s : State} {D : Block → Block} {c : Word × List Word}
    (h : HoldsChain s.buf s.n.toNat c) (hm : s.buf.wf = true) (hpos : RunPos s) (k : Key) (f : Bool) :
    HoldsChain (unwrapRunState k (D ((s.buf.read 0 ^^^ be64 s.t) ++ s.buf.read s.i.toNat)) f s).buf s.n.toNat
      (unwrapBody D s.n.toNat s.j.toNat s.i.toNat c) := by
  have htop := hpos.top
  have hread : s.buf.read s.i.toNat = c.2.getD (s.i.toNat - 1) 0 := by
    rw [← h.read_succ (by have := hpos.pos; omega), Nat.sub_add_cancel hpos.pos]
  rw [unwrapRunState_buf, h.read_zero, hread]
  exact h.write hm hpos.pos ..

/-- The chaining rounds of an unwrap compute `UnwrapCore` (R138). -/
theorem runKeeps_unwrap (D : Block → Block) (a : Word) {r : List Word} (h2 : 2 ≤ r.length) :
    RunKeeps true D r.length (unwrapPoint D a r) := by
  intro s t hI hp h ht
  obtain ⟨k, hk, rfl : cipherFn s.cfg.cipher .decrypt k = D⟩ := h.cipher
  have hn := h.count
  have hpos := hI.legalPos hp (hn.symm ▸ h2)
  cases (engineStep_unwrapRunState hI hp (hn.symm ▸ h2) h.dir hk .ok).symm.trans ht
  refine h.of_frame (unwrapRunState_frame (busy_of_run hp) ..) ?_
  have hchain := h.chain
  rw [State.position, hp, ← hn] at hchain
  have hnext := hchain.unwrapStep (D := cipherFn s.cfg.cipher .decrypt k) hI.bufWf hpos k false
  rw [hn, ← unwrapPoint_successor _ _ _ hpos.j hpos.pos (hn ▸ hpos.top)] at hnext
  rw [unwrapRunState_position hp, hn]
  exact hnext

/-! ### Whole unwrap commands (O54, O55) -/

/-- An unwrap command on an idle machine that passes validation with semiblock count n, and a schedule for it with good
answers. -/
structure UnwrapCall (i : Instr) (n : Nat) (k : Key) (pre : List Event) (s : State) : Prop where
  inv : Inv s
  idle : s.ph = .idle
  op : i = .unwrap ∨ i = .unwrapp
  key : s.key = some k
  valid : Validated i n s
  exec : exec i s = .next (codecStarted i n s)
  schedule : RunSchedule n pre
  ok : AllOk pre

/-- `v` is an unwrap of n semiblocks, called in `s`, before its FIN step, with no failed transaction and the chaining
state `c` in the buffer. -/
structure UnwrapFin (i : Instr) (n : Nat) (c : Word × List Word) (s v : State) : Prop where
  inv : Inv v
  fin : v.ph = .fin
  cf : v.cf = false
  op : v.op = i
  count : v.n.toNat = n
  chain : HoldsChain v.buf n c
  above : ∀ q, n < q → v.buf.read q = s.buf.read q

section UnwrapCall

variable {i : Instr} {n : Nat} {k : Key} {pre : List Event} {s : State}

/-- An unwrap whose RUN steps keep the buffer in step with `point` comes to its FIN step with what `point`
gives there. -/
theorem UnwrapCall.fin (h : UnwrapCall i n k pre s) {point : Nat × Nat × Phase → Word × List Word}
    {c : Word × List Word} (hkeep : RunKeeps true (cipherFn s.cfg.cipher .decrypt k) n point)
    (hstart : HoldsChain s.buf n (point (5, n, .run))) (hfin : ∀ j i, point (j, i, .fin) = c) (a : BcsAnswer) :
    ∃ v, UnwrapFin i n c s v ∧
      ∀ w, engineStep a v = .next w → commandRun i pre a s = .next { w with agenda := [] } := by
  obtain ⟨hcodec, hdir, hbuf⟩ : i.isCodec = true ∧ i.dir = true ∧ startBuf i n s = s.buf := by
    rcases h.op with rfl | rfl
    all_goals exact ⟨rfl, rfl, rfl⟩
  have hN := h.valid.toNat_n h.inv.cfg
  obtain ⟨hj, hi⟩ := codecStarted_unwrap hdir n s
  have hst := exec_started h.inv h.idle hcodec h.exec rfl
  rw [← hbuf] at hstart
  have hchain : Chaining true (cipherFn s.cfg.cipher .decrypt k) n point (codecStarted i n s) :=
    { dir := hdir, count := hN, cipher := ⟨k, h.key, rfl⟩
      chain := by rw [State.position, hj, hi, hN]; exact hstart }
  obtain ⟨v, hprog, hv, hcf, hvc, hrun⟩ :=
    commandRun_chaining hkeep hst h.exec rfl (hN.symm ▸ h.schedule) h.ok hchain a
  have hend := hvc.chain
  rw [State.position, hv, hfin] at hend
  exact ⟨v,
    { inv := hprog.inv
      fin := hv
      cf := hcf
      op := hprog.op.trans hst.op
      count := hvc.count
      chain := hend
      above := fun q hq => (hprog.above q (hN.symm ▸ hq)).trans (read_startBuf h.inv.bufWf i hq) }, hrun⟩

/-- The buffer then holds the candidate of R131: one block of a single semiblock, otherwise the rounds of R130. -/
theorem UnwrapCall.fin_candidate {a : Word} {r : List Word} (h : UnwrapCall i r.length k pre s)
    (hc : HoldsSemiblocks s.buf (a :: r)) (b : BcsAnswer) :
    ∃ v, UnwrapFin i r.length (unwrapPadCandidate (cipherFn s.cfg.cipher .decrypt k) a r) s v ∧
      ∀ w, engineStep b v = .next w → commandRun i pre b s = .next { w with agenda := [] } := by
  have hstart : HoldsChain s.buf r.length (a, r) := ⟨rfl, hc⟩
  by_cases h2 : 2 ≤ r.length
  · rw [unwrapPadCandidate_chain h2]
    refine h.fin (runKeeps_unwrap _ a h2) ?_ (fun _ _ => rfl) b
    rw [unwrapPoint_start]
    exact hstart
  · have h1 := h.valid.pos
    obtain ⟨x, rfl⟩ := List.length_eq_one_iff.1 (show r.length = 1 by omega)
    exact h.fin (runKeeps_oneBlock true _ a x) hstart (fun _ _ => rfl) b

end UnwrapCall

section UnwrapFin

variable {i : Instr} {n : Nat} {c : Word × List Word} {s v : State}

/-- An unwrap that passes its integrity check reports success. -/
theorem UnwrapFin.status_pass (h : UnwrapFin i n c s v) (l : Nat) :
    State.status { unwrapFinished true l v with agenda := [] } = 0x02 := by
  have hmatched := (h.inv.busy_report (busy_of_fin h.fin)).1
  exact (status_of_success rfl rfl rfl).trans (if_neg (hmatched ▸ Bool.noConfusion))

/-- An unwrap that fails its integrity check reports the error. -/
theorem UnwrapFin.status_fail (h : UnwrapFin i n c s v) (l : Nat) :
    State.status { unwrapFinished false l v with agenda := [] } = 0x72 :=
  status_of_error (k := .integrityCheckingOfInitialValueFailed) rfl rfl (h.inv.busy_report (busy_of_fin h.fin)).1 rfl

/-- What a late error leaves of the buffer the command was called on (R153). -/
theorem UnwrapFin.cleared (h : UnwrapFin i n c s v) : ClearedTo n s.buf (v.buf.clearTo v.n.toNat) := by
  rw [h.count]
  exact clearedTo_clearTo h.above

/-- UNWRAPP's conditions on the buffer are those of `UnwrapPadRef` on the candidate (R131, R141). -/
theorem UnwrapFin.unwrappOk_eq (h : UnwrapFin i n c s v) : unwrappOk v.buf n = candidateOk n c := by
  rw [Bool.eq_iff_iff, unwrappOk_iff, candidateOk_iff h.chain.length, h.chain.read_zero]
  refine and_congr_right fun _ => and_congr_right fun _ => and_congr_right fun _ => ?_
  exact forall_congr' fun q => forall_congr' fun _ => forall_congr' fun hq => by rw [h.chain.byteAt hq]

end UnwrapFin

/-- `LEN` holds the length of every ciphertext that fits the buffer (R6). -/
theorem toNat_len_ciphertext {s : State} {n : Nat} (hI : Inv s) (hcap : n ≤ s.cfg.nmax)
    (hlen : s.len = be64 (8 * (n + 1))) : s.len.toNat = 8 * (n + 1) := by
  have hmax := hI.cfg.2
  rw [hlen, be64_toNat (by omega)]

/-- Settles O54: the rounds compute `UnwrapCore`, and the FIN step verifies the IV as `UnwrapRef` does. -/
theorem unwrapAgreesWithReference : Obligations.UnwrapAgreesWithReference := by
  intro s k c pre b n hI hp hk hc hlen hbuf h2 hmax hcap hs hok
  obtain ⟨a, r, rfl⟩ := List.exists_cons_of_length_eq_add_one hc
  obtain rfl : r.length = n := Nat.succ_inj.1 hc
  have hv : unwrapVerdict s.cfg s.len.toNat s.klen = .pass r.length :=
    toNat_len_ciphertext hI hcap hlen ▸ unwrapVerdict_eq_pass h2 hmax hcap (klenValid_of_key hk)
  have hcall : UnwrapCall .unwrap r.length k pre s :=
    ⟨hI, hp, .inl rfl, hk, validated_unwrap hv, exec_unwrap_idle hp hv, hs, hok⟩
  obtain ⟨v, hfin, hrun⟩ := hcall.fin_candidate hbuf b
  rw [unwrapPadCandidate_chain h2] at hfin
  have hstep := engineStep_finUnwrap_unfailed hfin.inv hfin.fin hfin.op hfin.cf b
  have hread := hfin.chain.read_zero
  rw [hfin.count, hread] at hstep
  refine ⟨_, hrun _ hstep, ?_⟩
  rw [unwrapRef]
  cases hver : verify (unwrapCore (cipherFn s.cfg.cipher .decrypt k) a r).1 defaultIV with
  | true =>
    have hplain := (length_bytesOf _).trans (congrArg (8 * ·) hfin.chain.length)
    exact ⟨rfl, hfin.status_pass _, congrArg be64 hplain.symm, hplain,
      fun q hq => hfin.chain.byteAt (hplain ▸ hq), hread.trans (verify_eq_true_iff.1 hver), hfin.above⟩
  | false => exact ⟨rfl, hfin.status_fail _, rfl, hfin.cleared⟩

/-- Settles O55: the candidate is that of `UnwrapPadRef`, and the FIN step checks it as `UnwrapPadRef` does. -/
theorem unwrappAgreesWithReference : Obligations.UnwrappAgreesWithReference := by
  intro s k c pre b n hI hp hk hc hlen hbuf h1 hcap hs hok
  obtain ⟨a, r, rfl⟩ := List.exists_cons_of_length_eq_add_one hc
  obtain rfl : r.length = n := Nat.succ_inj.1 hc
  have hv : unwrappVerdict s.cfg s.len.toNat s.klen = .pass r.length :=
    toNat_len_ciphertext hI hcap hlen ▸ unwrappVerdict_eq_pass hI.cfg h1 hcap (klenValid_of_key hk)
  have hcall : UnwrapCall .unwrapp r.length k pre s :=
    ⟨hI, hp, .inr rfl, hk, validated_unwrapp hv, exec_unwrapp_idle hp hv, hs, hok⟩
  obtain ⟨v, hfin, hrun⟩ := hcall.fin_candidate hbuf b
  have hstep := engineStep_finUnwrapp_unfailed hfin.inv hfin.fin hfin.op hfin.cf b
  have hread := hfin.chain.read_zero
  have hclen := hfin.chain.length
  rw [hfin.count, hfin.unwrappOk_eq, hread] at hstep
  refine ⟨_, hrun _ hstep, ?_⟩
  rw [unwrapPadRef_cons]
  cases hcand : candidateOk r.length (unwrapPadCandidate (cipherFn s.cfg.cipher .decrypt k) a r) with
  | true =>
    obtain ⟨hpat, hlo, hhi, hpad⟩ := (candidateOk_iff hclen).1 hcand
    have hplain := List.length_take_of_le (hhi.trans (hclen ▸ length_bytesOf _).ge)
    refine ⟨rfl, ?_⟩
    simp only [if_true, hplain]
    refine ⟨hfin.status_pass _, rfl, hlo, hhi, fun q hq => ?_, fun q hq hqn => ?_, ?_, hfin.above⟩
    · rw [hplain] at hq
      refine (hfin.chain.byteAt (hq.trans_le hhi)).trans ?_
      rw [List.getD_eq_getElem?_getD, List.getD_eq_getElem?_getD, List.getElem?_take_of_lt hq]
    · exact (hfin.chain.byteAt hqn).trans (hpad q hq hqn)
    · exact hread.trans (eq_aivOf_aivLength_iff.2 hpat)
  | false => exact ⟨rfl, hfin.status_fail _, rfl, hfin.cleared⟩

/-! ### What a whole command leaves for the next one -/

theorem exec_cfg {i : Instr} {s t : State} (h : exec i s = .next t) : t.cfg = s.cfg := by
  rcases exec_cases h with ⟨-, rfl⟩ | ⟨-, -, k, rfl⟩ | ⟨-, -, n, -, rfl⟩ | ⟨-, -, iva, m, e, l, rfl⟩
  all_goals rfl

theorem engineStep_cfg {a : BcsAnswer} {s t : State} (h : engineStep a s = .next t) : t.cfg = s.cfg := by
  rcases engineStep_cases h with ⟨-, rfl⟩ | ⟨-, hf⟩ | ⟨-, e, l, buf, -, rfl⟩
  · rfl
  · rw [hf.eq]
  · rfl

theorem acceptIllegal_cfg {s t : State} (h : acceptIllegal s = .next t) : t.cfg = s.cfg := by
  unfold acceptIllegal at h
  split at h
  all_goals cases h; rfl

/-- No agent changes the parameters (R11). -/
theorem eventStep_cfg {e : Event} {s t : State} (h : eventStep s e = .next t) : t.cfg = s.cfg := by
  match e with
  | .host (.read addr) =>
    cases h
    rfl
  | .host (.write addr v) =>
    by_cases ha : addr = 0
    · subst ha
      cases hd : decode v with
      | ok i => exact exec_cfg ((eventStep_command hd).symm.trans h)
      | error e =>
        cases e
        exact acceptIllegal_cfg ((eventStep_illegal hd).symm.trans h)
    · rw [eventStep_write ha] at h
      split at h
      all_goals cases h
      exacts [(writePort_ph_cfg ..).2, rfl]
  | .engine a => exact engineStep_cfg h
  | .reset =>
    cases h
    rfl

theorem step_cfg {s t : State} (h : step s = .next t) : t.cfg = s.cfg := by
  rcases step_cases h with ⟨-, he⟩ | ⟨e, rest, -, he⟩
  · exact engineStep_cfg he
  · exact (eventStep_cfg he :)

/-- No run changes the parameters. -/
theorem run_cfg {m : Nat} {s t : State} (h : Host.Core.run core m s = .next t) : t.cfg = s.cfg := by
  induction m generalizing s with
  | zero =>
    cases h
    rfl
  | succ m ih =>
    simp only [Host.Core.run] at h
    split at h
    · next u hu => exact (ih h).trans (step_cfg hu)
    all_goals cases h

theorem commandRun_cfg {i : Instr} {pre : List Event} {a : BcsAnswer} {s t : State}
    (h : commandRun i pre a s = .next t) : t.cfg = s.cfg :=
  run_cfg (s := { s with agenda := command i :: (pre ++ [.engine a]) }) h

/-- A FIN step meets the invariant again if its buffer does and its report is one the command can make. -/
theorem Inv.finished {s : State} (hI : Inv s) (hb : s.ph ≠ .idle) {e : Option ErrKind} {l : Word} {buf : Memory}
    (hwf : buf.wf = true) (hin : ∀ c ∈ buf, c.1 ≤ s.cfg.nmax) (hquiet : e ≠ none → l = 0)
    (he : ∀ k, e = some k → canRaise s.op k = true) : Inv (finishedState e l buf s) :=
  have hmatched := (hI.busy_report hb).1
  { cfg := hI.cfg
    bufWf := hwf
    bufIn := hin
    pending := nofun
    busyDone := fun h => absurd rfl h
    errQuiet := fun h => ⟨hmatched, hquiet h⟩
    matchedBy := hI.matchedBy
    errBy := fun k hk => .inr (he k hk)
    busyOp := fun h => absurd rfl h
    busyN := fun h => absurd rfl h
    busyChain := fun h => absurd rfl h
    busyKey := fun h => absurd rfl h
    runPos := nofun }

/-- The FIN step keeps the invariant. -/
theorem engineStep_fin_inv {a : BcsAnswer} {s t : State} (hI : Inv s) (hp : s.ph = .fin)
    (h : engineStep a s = .next t) : Inv t := by
  have hb := busy_of_fin hp
  rcases engineStep_fin_cases hI hp a with ⟨k, hk, he⟩ | ⟨l, he⟩
  all_goals cases he.symm.trans h
  · exact hI.finished hb (Memory.wf_clearTo hI.bufWf _) (Memory.bound_clearTo hI.bufIn _) (fun _ => rfl)
      (fun _ h => Option.some.inj h ▸ hk)
  · have herr := (hI.busy_report hb).2
    exact hI.finished hb hI.bufWf hI.bufIn (fun h => absurd herr h) (fun _ h => nomatch herr.symm.trans h)

/-- A whole command keeps the invariant. -/
theorem commandRun_inv {i : Instr} {n : Nat} {pre : List Event} {a : BcsAnswer} {s t : State} (hI : Inv s)
    (hp : s.ph = .idle) (hc : i.isCodec = true) (hv : Validated i n s) (he : exec i s = .next (codecStarted i n s))
    (hs : RunSchedule n pre) (h : commandRun i pre a s = .next t) : Inv t := by
  have hN := hv.toNat_n hI.cfg
  obtain ⟨v, w, hprog, hfin, hw, hrun⟩ := commandRun_stages (exec_started hI hp hc he rfl) he rfl (hN.symm ▸ hs) a
  cases hrun.symm.trans h
  exact (engineStep_fin_inv hprog.inv hfin hw).of_records [] _

/-- `t` with the key of `s` loaded again and `LEN` set to the length that `t` reports. -/
def State.reloaded (t s : State) : State :=
  { t with klen := s.klen, kek0 := s.kek0, kek1 := s.kek1, kek2 := s.kek2, kek3 := s.kek3, len := t.olen }

@[simp] theorem State.reloaded_cfg (t s : State) : (t.reloaded s).cfg = t.cfg := rfl

@[simp] theorem State.reloaded_key (t s : State) : (t.reloaded s).key = s.key := rfl

/-- The key and `LEN` are free while idle. -/
theorem Inv.reloaded {t : State} (h : Inv t) (hp : t.ph = .idle) (s : State) : Inv (t.reloaded s) :=
  { h with busyKey := fun hb => absurd hp hb }

/-! ### The round trips of the machine (O56, O57) -/

/-- A buffer that holds the bytes of another one agrees with it on them. -/
theorem HoldsBytes.byteAt_eq {m m' : Memory} {l q : Nat} (h : HoldsBytes m' 1 (m.bytes 1 l)) (hq : q < l) :
    m'.byteAt 1 q = m.byteAt 1 q := by
  have hlen := length_bytes m 1 l
  exact (h q (hlen.symm ▸ hq)).trans (holdsBytes_bytes m 1 l q (hlen.symm ▸ hq)).symm

/-- Two buffers with the same bytes hold the same semiblocks (R45). -/
theorem read_eq_of_byteAt_eq {m m' : Memory} {n q : Nat} (h : ∀ p < 8 * n, m'.byteAt 1 p = m.byteAt 1 p) (h1 : 1 ≤ q)
    (hn : q ≤ n) : m'.read q = m.read q := by
  refine eq_of_byteOf_eq fun k hk => ?_
  have hbyte := h (8 * (q - 1) + k) (by omega)
  rwa [Memory.byteAt, Memory.byteAt, show 1 + (8 * (q - 1) + k) / 8 = q by omega,
    show (8 * (q - 1) + k) % 8 = k by omega] at hbyte

theorem be64_of_toNat (w : Word) : be64 w.toNat = w := (BitVec.ofNat_toNat 64 w).trans w.setWidth_eq

/-- Settles O56: both commands agree with the reference functions, whose round trip gives back the plaintext. -/
theorem machineRoundTrip : Obligations.MachineRoundTrip := by
  intro s k pre pre' a a' n hI hp hk hinv hlen h2 hmax hcap hs hok hs' hok'
  have hpl : (s.buf.bytes 1 (8 * n)).length = 8 * n := length_bytes ..
  have hdiv : 8 * n / 8 = n := by omega
  have hlen' : s.len = be64 (8 * n) := hlen ▸ (be64_of_toNat s.len).symm
  have hwrap := wrapAgreesWithReference s k (s.buf.bytes 1 (8 * n)) pre a hI hp hk
  rw [hpl, hdiv] at hwrap
  obtain ⟨t, ht, hidle, hst, hbuf, hclen, holen, -, -⟩ :=
    hwrap hlen' (holdsBytes_bytes _ _ _) (by omega) hmax (by omega) (by omega) hs hok
  have hv : wrapVerdict s.cfg s.len.toNat s.klen = .pass n := by
    rw [hlen, wrapVerdict_eq_pass (by omega) hmax (by omega) (by omega) (klenValid_of_key hk), hdiv]
  have hIt := commandRun_inv hI hp rfl (validated_wrap hv) (exec_wrap_pass hp hv) hs ht
  have hcfg : (t.reloaded s).cfg = s.cfg := (State.reloaded_cfg t s).trans (commandRun_cfg ht)
  obtain ⟨u, hu, -, hres⟩ := unwrapAgreesWithReference (t.reloaded s) k _ pre' a' n (hIt.reloaded hidle s) hidle
    ((State.reloaded_key t s).trans hk) hclen holen hbuf h2 hmax (hcfg ▸ hcap) hs' hok'
  rw [hcfg, (referenceRoundTrip _ _ (fun x => (hinv k x).1) _).1 (by omega) (by omega)] at hres
  obtain ⟨hust, huolen, -, hubytes, -⟩ := hres
  exact ⟨t, u, ht, hst, hu, hust, by rw [huolen, hpl, hlen'], fun q h1 hq =>
    read_eq_of_byteAt_eq (fun p hp => hubytes.byteAt_eq hp) h1 hq⟩

/-- Settles O57: as for O56, with the padded reference functions. -/
theorem machineRoundTripPadded : Obligations.MachineRoundTripPadded := by
  intro s k pre pre' a a' n hI hp hk hinv h1 hmax hn hcap hs hok hs' hok'
  have hpl : (s.buf.bytes 1 s.len.toNat).length = s.len.toNat := length_bytes ..
  have hlen : s.len = be64 s.len.toNat := (be64_of_toNat s.len).symm
  have hwrap := wrappAgreesWithReference s k (s.buf.bytes 1 s.len.toNat) pre a n hI hp hk
  rw [hpl] at hwrap
  obtain ⟨t, ht, hidle, hst, hbuf, hclen, holen, -, -⟩ := hwrap hlen (holdsBytes_bytes _ _ _) h1 hmax hn hcap hs hok
  have hceil : n = ceil8 s.len.toNat := hn
  have hv : wrappVerdict s.cfg s.len.toNat s.klen = .pass n :=
    hceil ▸ wrappVerdict_eq_pass h1 hmax (hceil ▸ hcap) (klenValid_of_key hk)
  have hIt := commandRun_inv hI hp rfl (validated_wrapp hv) (exec_wrapp_pass hp hv) hs ht
  have hcfg : (t.reloaded s).cfg = s.cfg := (State.reloaded_cfg t s).trans (commandRun_cfg ht)
  obtain ⟨u, hu, -, hres⟩ := unwrappAgreesWithReference (t.reloaded s) k _ pre' a' n (hIt.reloaded hidle s) hidle
    ((State.reloaded_key t s).trans hk) hclen holen hbuf (by omega) (hcfg ▸ hcap) hs' hok'
  rw [hcfg, (referenceRoundTrip _ _ (fun x => (hinv k x).1) _).2 (by omega) (by omega)] at hres
  obtain ⟨hust, huolen, -, -, hubytes, hupad, -⟩ := hres
  rw [hpl] at huolen hupad
  exact ⟨t, u, ht, hst, hu, hust, huolen.trans hlen.symm, fun q hq => hubytes.byteAt_eq hq, hupad⟩

end Sys2Proof.Machine

/-! SUPPORT. Proofs of the statements about control and arithmetic: which kinds a validation can refuse with, the
invariant over one step of each agent, which steps change the phase, and the obligations O36 to O39 and O50 settled from
them. -/

namespace Sys2Proof.Machine

/-! ### The kinds a validation refuses with -/

/-- WRAP's validation refuses with WRAP's kinds: a length that passes the checks before `Overflow` fits (R112, R156). -/
theorem canRaise_of_wrapVerdict {c : Config} {l : Nat} {klen : Byte} {k : ErrKind}
    (h : wrapVerdict c l klen = .refuse k) : canRaise .wrap k = true := by
  unfold wrapVerdict at h
  split_ifs at h with _ _ _ _ hov
  on_goal 5 => rw [counterOverflows_of_le (by omega)] at hov; cases hov
  all_goals cases h; rfl

/-- WRAPP's validation refuses with WRAPP's kinds (R114, R156). -/
theorem canRaise_of_wrappVerdict {c : Config} {l : Nat} {klen : Byte} {k : ErrKind}
    (h : wrappVerdict c l klen = .refuse k) : canRaise .wrapp k = true := by
  unfold wrappVerdict at h
  split_ifs at h with _ _ _ hov
  on_goal 4 => rw [counterOverflows_of_le (by rw [ceil8]; omega)] at hov; cases hov
  all_goals cases h; rfl

/-- UNWRAP's validation refuses with UNWRAP's kinds (R132, R156). -/
theorem canRaise_of_unwrapVerdict {c : Config} {l : Nat} {klen : Byte} {k : ErrKind}
    (h : unwrapVerdict c l klen = .refuse k) : canRaise .unwrap k = true := by
  unfold unwrapVerdict at h
  split_ifs at h with _ _ _ _ hov
  on_goal 5 => rw [counterOverflows_of_le (by omega)] at hov; cases hov
  all_goals cases h; rfl

/-- UNWRAPP's validation refuses with UNWRAPP's kinds; here it is the legal capacity that bounds the length (R134,
R156). -/
theorem canRaise_of_unwrappVerdict {c : Config} {l : Nat} {klen : Byte} {k : ErrKind} (hc : c.Valid)
    (h : unwrappVerdict c l klen = .refuse k) : canRaise .unwrapp k = true := by
  obtain ⟨-, hmax⟩ := hc
  unfold unwrappVerdict at h
  split_ifs at h with _ _ _ _ hov
  on_goal 5 => rw [counterOverflows_of_le (by rw [lmax]; omega)] at hov; cases hov
  all_goals cases h; rfl

/-- What the verdict of command `i`'s validation has established, whichever it is. -/
def VerdictSound (i : Instr) (s : State) : Verdict → Prop
  | .refuse k => canRaise i k = true
  | .pass n => Validated i n s

theorem exec_wrap_idle {s : State} (hp : s.ph = .idle) {v : Verdict}
    (hv : wrapVerdict s.cfg s.len.toNat s.klen = v) : exec .wrap s = .next (codecAccepted .wrap s v) := by
  cases v
  exacts [exec_wrap_pass hp hv, exec_wrap_refuse hp hv]

theorem exec_wrapp_idle {s : State} (hp : s.ph = .idle) {v : Verdict}
    (hv : wrappVerdict s.cfg s.len.toNat s.klen = v) : exec .wrapp s = .next (codecAccepted .wrapp s v) := by
  cases v
  exacts [exec_wrapp_pass hp hv, exec_wrapp_refuse hp hv]

/-- The accept step of a codec command follows the verdict of its validation. -/
theorem exec_codec_verdict {i : Instr} {s : State} (hc : i.isCodec = true) (hcfg : s.cfg.Valid) (hp : s.ph = .idle) :
    ∃ v, VerdictSound i s v ∧ exec i s = .next (codecAccepted i s v) := by
  rcases isCodec_cases hc with rfl | rfl | rfl | rfl
  · refine ⟨_, ?_, exec_wrap_idle hp rfl⟩
    cases hv : wrapVerdict s.cfg s.len.toNat s.klen
    exacts [validated_wrap hv, canRaise_of_wrapVerdict hv]
  · refine ⟨_, ?_, exec_unwrap_idle hp rfl⟩
    cases hv : unwrapVerdict s.cfg s.len.toNat s.klen
    exacts [validated_unwrap hv, canRaise_of_unwrapVerdict hv]
  · refine ⟨_, ?_, exec_wrapp_idle hp rfl⟩
    cases hv : wrappVerdict s.cfg s.len.toNat s.klen
    exacts [validated_wrapp hv, canRaise_of_wrappVerdict hv]
  · refine ⟨_, ?_, exec_unwrapp_idle hp rfl⟩
    cases hv : unwrappVerdict s.cfg s.len.toNat s.klen
    exacts [validated_unwrapp hv, canRaise_of_unwrappVerdict hcfg hv]

/-! ### The invariant of an idle machine -/

/-- While idle the invariant is about the capacity, the buffer and the report alone (R206). -/
theorem inv_of_idle {t : State} (hp : t.ph = .idle) (hcfg : t.cfg.Valid) (hwf : t.buf.wf = true)
    (hin : ∀ c ∈ t.buf, c.1 ≤ t.cfg.nmax) (hpending : t.done = false → t.matched = false ∧ t.err = none ∧ t.olen = 0)
    (hquiet : t.err ≠ none → t.matched = false ∧ t.olen = 0)
    (hmatched : t.matched = true → t.op = .ivchk ∨ t.op = .aivchk)
    (herr : ∀ k, t.err = some k → k = .illegalCommand ∨ canRaise t.op k = true) : Inv t where
  cfg := hcfg
  bufWf := hwf
  bufIn := hin
  pending := hpending
  busyDone := fun hb => absurd hp hb
  errQuiet := hquiet
  matchedBy := hmatched
  errBy := herr
  busyOp := fun hb => absurd hp hb
  busyN := fun hb => absurd hp hb
  busyChain := fun hb => absurd hp hb
  busyKey := fun hb => absurd hp hb
  runPos := fun hr => absurd hp (busy_of_run hr)

/-- Settles O36: the reset state is idle, its buffer empty and its report withdrawn. -/
theorem invariantHoldsAtReset : Obligations.InvariantHoldsAtReset :=
  fun c hc => inv_of_idle rfl hc (resetWith_buf_wf c) (List.forall_mem_nil _) (fun _ => ⟨rfl, rfl, rfl⟩)
    (fun _ => ⟨rfl, rfl⟩) nofun nofun

/-- A reset step keeps the invariant: what it keeps of the old state is no part of it (R180). -/
theorem Inv.resetStep {s : State} (hI : Inv s) : Inv s.resetStep := { invariantHoldsAtReset s.cfg hI.cfg with }

/-- An accept step that ends idle with no error keeps the invariant, if only IVCHK and AIVCHK report `MATCH`. -/
theorem Inv.accepted {s : State} (hI : Inv s) (hp : s.ph = .idle) {i : Instr} (iva : Word) {m : Bool} {l : Word}
    (hm : m = true → i = .ivchk ∨ i = .aivchk) :
    Inv { acceptedState i s with iva := iva, matched := m, olen := l } :=
  inv_of_idle hp hI.cfg hI.bufWf hI.bufIn nofun (fun h => absurd rfl h) hm nofun

/-- An accept step that ends in an error its command can raise keeps the invariant. -/
theorem Inv.refused {s : State} (hI : Inv s) (hp : s.ph = .idle) {i : Instr} {k : ErrKind}
    (hk : canRaise i k = true) : Inv (refusedState i k s) :=
  inv_of_idle hp hI.cfg hI.bufWf hI.bufIn nofun (fun _ => ⟨rfl, rfl⟩) nofun
    (fun _ he => .inr (Option.some.inj he ▸ hk))

/-- The refusal of an illegal word keeps the invariant (R64). -/
theorem Inv.acceptIllegal {s t : State} (hI : Inv s) (h : acceptIllegal s = .next t) : Inv t := by
  by_cases hp : s.ph = .idle
  · cases (acceptIllegal_idle hp).symm.trans h
    exact inv_of_idle hp hI.cfg hI.bufWf hI.bufIn nofun (fun _ => ⟨rfl, rfl⟩) nofun
      (fun _ he => .inl (Option.some.inj he).symm)
  · cases (acceptIllegal_busy hp).symm.trans h
    exact hI

/-- A host write keeps the invariant while idle, if it writes no entry above `NMAX` (R43). -/
theorem Inv.writePort {s : State} (hI : Inv s) (hp : s.ph = .idle) (v : Word) {p : Port}
    (hbuf : ∀ k, p = .buf k → k ≤ s.cfg.nmax) : Inv (writePort s v p) := by
  cases p
  case buf k =>
    exact inv_of_idle hp hI.cfg (Memory.wf_write hI.bufWf k v) (Memory.bound_write hI.bufIn (hbuf k rfl) v)
      hI.pending hI.errQuiet hI.matchedBy hI.errBy
  all_goals exact inv_of_idle hp hI.cfg hI.bufWf hI.bufIn hI.pending hI.errQuiet hI.matchedBy hI.errBy

/-! ### Every step answers and keeps the invariant (O37, O38) -/

/-- The accept step of a codec command keeps the invariant, refused or started. -/
theorem Inv.exec_codec {i : Instr} {s t : State} (hI : Inv s) (hc : i.isCodec = true) (hp : s.ph = .idle)
    (h : exec i s = .next t) : Inv t := by
  obtain ⟨v, hv, he⟩ := exec_codec_verdict hc hI.cfg hp
  cases he.symm.trans h
  cases v with
  | refuse k => exact hI.refused hp hv
  | pass n => exact codecStarted_inv hI hc hv

/-- The commands of the IV unit keep the invariant. -/
theorem Inv.exec_ivUnit {i : Instr} {s t : State} (hI : Inv s) (hc : i.isCodec = false) (hp : s.ph = .idle)
    (h : exec i s = .next t) : Inv t := by
  rcases ivUnit_cases hc with rfl | rfl | rfl | rfl
  · cases (exec_ivdef_idle hp).symm.trans h
    exact hI.accepted hp defaultIV nofun
  · cases (exec_ivchk_idle hp).symm.trans h
    exact hI.accepted hp s.iva fun _ => .inl rfl
  · cases hv : altIV s.len.toNat with
    | none =>
      cases (exec_ivalt_none hp hv).symm.trans h
      exact inv_of_idle hp hI.cfg hI.bufWf hI.bufIn nofun (fun _ => ⟨rfl, rfl⟩) nofun
        (fun _ he => .inr (Option.some.inj he ▸ rfl))
    | some v =>
      cases (exec_ivalt_some hp hv).symm.trans h
      exact hI.accepted hp v nofun
  · cases (exec_aivchk_idle hp).symm.trans h
    exact hI.accepted hp s.iva fun _ => .inr rfl

/-- A command's word written to `CMD` keeps the invariant, whatever the command and the phase. -/
theorem Inv.exec {i : Instr} {s t : State} (hI : Inv s) (h : exec i s = .next t) : Inv t := by
  by_cases hp : s.ph = .idle
  · cases hc : i.isCodec with
    | true => exact hI.exec_codec hc hp h
    | false => exact hI.exec_ivUnit hc hp h
  · cases (exec_busy hp i).symm.trans h
    exact hI

/-- A host access keeps the invariant. -/
theorem Inv.host {op : HostOp} {s t : State} (hI : Inv s) (h : eventStep s (.host op) = .next t) : Inv t := by
  match op with
  | .read addr =>
    cases h
    exact hI.of_records s.agenda _
  | .write addr v =>
    by_cases ha : addr = 0
    · subst ha
      cases hd : decode v with
      | ok i => exact hI.exec ((eventStep_command hd).symm.trans h)
      | error e =>
        cases e
        exact hI.acceptIllegal ((eventStep_illegal hd).symm.trans h)
    · rw [eventStep_write ha] at h
      split at h
      · next hp =>
        cases h
        exact hI.writePort hp v fun _ => portOf_buf
      · cases h
        exact hI

/-- A step of the engine answers and keeps the invariant, whatever the cipher service's draw. -/
theorem Inv.engine_next {s : State} (hI : Inv s) (a : BcsAnswer) : ∃ t, engineStep a s = .next t ∧ Inv t := by
  cases hp : s.ph with
  | idle => exact ⟨s, engineStep_idle hp a, hI⟩
  | run =>
    obtain ⟨t, ht, hprog⟩ := engineStep_progress hI hp a
    exact ⟨t, ht, hprog.inv⟩
  | fin =>
    obtain ⟨t, ht⟩ := engineStep_fin_next hI hp a
    exact ⟨t, ht, engineStep_fin_inv hI hp ht⟩

/-- Every event answers and keeps the invariant. -/
theorem Inv.event_next {s : State} (hI : Inv s) (e : Event) : ∃ t, eventStep s e = .next t ∧ Inv t := by
  cases e with
  | host op =>
    obtain ⟨t, ht⟩ := eventStep_host_next s op
    exact ⟨t, ht, hI.host ht⟩
  | engine a => exact hI.engine_next a
  | reset => exact ⟨_, rfl, hI.resetStep⟩

/-- Every step of the machine answers and keeps the invariant: the listed event's, or the engine's by itself. -/
theorem Inv.step_next {s : State} (hI : Inv s) : ∃ t, step s = .next t ∧ Inv t := by
  cases ha : s.agenda with
  | nil =>
    rw [step_nil ha]
    exact hI.engine_next _
  | cons e rest =>
    rw [step_cons ha]
    exact (hI.of_records rest s.replies).event_next e

/-- Settles O37: the step answers one state, and that one meets the invariant. -/
theorem everyStepKeepsTheInvariant : Obligations.EveryStepKeepsTheInvariant := by
  intro s t hI h
  obtain ⟨u, hu, hIu⟩ := hI.step_next
  cases hu.symm.trans h
  exact hIu

/-- Settles O38: the step answers a state, and no step changes the parameters. -/
theorem noReachableStepStops : Obligations.NoReachableStepStops := by
  intro s hI
  obtain ⟨t, ht, -⟩ := hI.step_next
  exact ⟨t, ht, step_cfg ht⟩

/-! ### The steps into and out of IDLE (O39) -/

/-- The words of the codec commands are 0 to 3 (R62). -/
theorem encode_codec_le {i : Instr} (h : i.isCodec = true) : (encode i).toNat ≤ 3 := by
  rcases isCodec_cases h with rfl | rfl | rfl | rfl <;> decide

/-- Only the start of a codec command leaves IDLE, and it leads to RUN. -/
theorem exec_leaves_idle {i : Instr} {s t : State} (h : exec i s = .next t) (hs : s.ph = .idle) (ht : t.ph ≠ .idle) :
    t.ph = .run ∧ i.isCodec = true := by
  rcases exec_cases h with ⟨hb, -⟩ | ⟨-, -, k, rfl⟩ | ⟨-, hc, n, -, rfl⟩ | ⟨-, -, iva, m, e, l, rfl⟩
  · exact absurd hs hb
  · exact absurd hs ht
  · exact ⟨rfl, hc⟩
  · exact absurd hs ht

/-- The one event that leaves IDLE is the write of a codec command's word to `CMD` (R206, R209). -/
theorem eventStep_leaves_idle {e : Event} {s t : State} (h : eventStep s e = .next t) (hs : s.ph = .idle)
    (ht : t.ph ≠ .idle) : t.ph = .run ∧ ∃ w : Word, e = .host (.write 0 w) ∧ w.toNat ≤ 3 := by
  match e with
  | .host (.read addr) =>
    cases h
    exact absurd hs ht
  | .host (.write addr v) =>
    by_cases ha : addr = 0
    · subst ha
      cases hd : decode v with
      | ok i =>
        obtain ⟨hrun, hc⟩ := exec_leaves_idle ((eventStep_command hd).symm.trans h) hs ht
        exact ⟨hrun, v, rfl, eq_encode_of_decode hd ▸ encode_codec_le hc⟩
      | error e =>
        cases e
        cases (acceptIllegal_idle hs).symm.trans ((eventStep_illegal hd).symm.trans h)
        exact absurd hs ht
    · rw [eventStep_write ha, if_pos hs] at h
      cases h
      exact absurd ((writePort_ph_cfg ..).1.trans hs) ht
  | .engine a =>
    cases (engineStep_idle hs a).symm.trans h
    exact absurd hs ht
  | .reset =>
    cases h
    exact absurd rfl ht

/-- The engine returns to IDLE by a FIN step only. -/
theorem engineStep_to_idle {a : BcsAnswer} {s t : State} (h : engineStep a s = .next t) (hs : s.ph ≠ .idle)
    (ht : t.ph = .idle) : s.ph = .fin := by
  rcases engineStep_cases h with ⟨hp, -⟩ | ⟨-, hf⟩ | ⟨hp, -⟩
  · exact absurd hp hs
  · exact absurd ht hf.busy
  · exact hp

/-- The events that return to IDLE are a reset and the engine's FIN step (R206, R181). -/
theorem eventStep_to_idle {e : Event} {s t : State} (h : eventStep s e = .next t) (hs : s.ph ≠ .idle)
    (ht : t.ph = .idle) : e = .reset ∨ s.ph = .fin ∧ ∃ a, e = .engine a := by
  cases e with
  | host op =>
    obtain ⟨r, hr⟩ := eventStep_host_busy hs op
    cases hr.symm.trans h
    exact absurd ht hs
  | engine a => exact .inr ⟨engineStep_to_idle h hs ht, a, rfl⟩
  | reset => exact .inl rfl

/-- Settles O39: the engine by itself never leaves IDLE, and the events that do and that return are the ones above. -/
theorem onlyTheseEventsChangeBusy : Obligations.OnlyTheseEventsChangeBusy := by
  intro s t h
  rcases step_cases h with ⟨ha, he⟩ | ⟨e, rest, ha, he⟩
  · refine ⟨fun hs ht => ?_, fun hs ht => .inr ⟨engineStep_to_idle he hs ht, .inl ha⟩⟩
    cases (engineStep_idle hs _).symm.trans he
    exact absurd hs ht
  · refine ⟨fun hs ht => ?_, fun hs ht => ?_⟩
    · obtain ⟨hrun, w, rfl, hw⟩ := eventStep_leaves_idle he hs ht
      exact ⟨hrun, w, rest, ha, hw⟩
    · rcases eventStep_to_idle he hs ht with rfl | ⟨hfin, a, rfl⟩
      · exact .inl ⟨rest, ha⟩
      · exact .inr ⟨hfin, .inr ⟨a, rest, ha⟩⟩

/-! ### The reference rounds (O50) -/

/-- Settles O50, by the rounds of R130 undoing those of R110 one at a time. -/
theorem unwrapCoreUndoesWrapCore : Obligations.UnwrapCoreUndoesWrapCore := fun _ _ hinv => unwrapCore_wrapCore hinv

end Sys2Proof.Machine

/-! SUPPORT. Proofs of the statement about the error kinds: which of them an accept step reports, and the obligation O19
settled from that. -/

namespace Sys2Proof.Machine

/-! ### The kinds an accept step reports -/

/-- A codec command's accept step reports a kind its command can raise: a start reports none (R156). -/
theorem canRaise_of_exec_codec {i : Instr} {s t : State} {k : ErrKind} (hc : i.isCodec = true) (hcfg : s.cfg.Valid)
    (hp : s.ph = .idle) (h : exec i s = .next t) (herr : t.err = some k) : canRaise i k = true := by
  obtain ⟨v, hv, he⟩ := exec_codec_verdict hc hcfg hp
  cases he.symm.trans h
  cases v with
  | refuse k' =>
    cases herr
    exact hv
  | pass n => cases herr

/-- Of the IV unit's commands, IVALT alone reports an error, and that is `Overflow` (R95 to R99, R156). -/
theorem canRaise_of_exec_ivUnit {i : Instr} {s t : State} {k : ErrKind} (hc : i.isCodec = false) (hp : s.ph = .idle)
    (h : exec i s = .next t) (herr : t.err = some k) : canRaise i k = true := by
  rcases ivUnit_cases hc with rfl | rfl | rfl | rfl
  · cases (exec_ivdef_idle hp).symm.trans h
    cases herr
  · cases (exec_ivchk_idle hp).symm.trans h
    cases herr
  · cases hv : altIV s.len.toNat with
    | none =>
      cases (exec_ivalt_none hp hv).symm.trans h
      cases herr
      rfl
    | some v =>
      cases (exec_ivalt_some hp hv).symm.trans h
      cases herr
  · cases (exec_aivchk_idle hp).symm.trans h
    cases herr

/-- What an accept step reports stands in its command's row of the table of kinds (R156). -/
theorem canRaise_of_exec {i : Instr} {s t : State} {k : ErrKind} (hcfg : s.cfg.Valid) (hp : s.ph = .idle)
    (h : exec i s = .next t) (herr : t.err = some k) : canRaise i k = true := by
  cases hc : i.isCodec with
  | true => exact canRaise_of_exec_codec hc hcfg hp h herr
  | false => exact canRaise_of_exec_ivUnit hc hp h herr

/-! ### `Overflow` (O19) -/

/-- The rows of the table of kinds that hold `Overflow`: IVALT's (R156, R159). -/
theorem eq_ivalt_of_canRaise_overflow {i : Instr} (h : canRaise i .overflow = true) : i = .ivalt := by
  cases i
  case ivalt => rfl
  all_goals cases h

/-- Settles O19: what a command reports it can raise, and `AltIV` fails at every length from 2^32. -/
theorem overflowOnlyFromIvalt : Obligations.OverflowOnlyFromIvalt :=
  ⟨fun _ _ _ hcfg hp h herr => eq_ivalt_of_canRaise_overflow (canRaise_of_exec hcfg hp h herr),
    fun _ hp hlen => ⟨_, exec_ivalt_none hp (altIV_of_lt hlen), rfl⟩⟩

end Sys2Proof.Machine

/-! SUPPORT. Proofs of the statements about reset and the hazards of the schedule: the state a reset step leaves, what
the commands do straight after it, and how a command in flight ends, with the obligations O34, O35 and O41 settled from
them. -/

namespace Sys2Proof.Machine

/-! ### The end of a command in flight (O41) -/

/-- The FIN step completes the command, whatever it reports (R120, R140, R141). -/
theorem Finished.done {s t : State} (h : Finished s t) : t.done = true := by
  obtain ⟨e, l, buf, -, rfl⟩ := h
  rfl

/-- A schedule without resets that holds all the RUN steps still to come leads to FIN (R191). -/
theorem runAgenda_to_fin {s : State} {pre : List Event} (hI : Inv s) (hb : s.ph ≠ .idle)
    (hr : ∀ e ∈ pre, e.noReset = true) (hc : engineCount pre = remainingRuns s) :
    ∃ u, runAgenda { s with agenda := pre } = .next u ∧ Inv u ∧ u.ph = .fin := by
  obtain ⟨u, hu, hprog⟩ := runAgenda_progress hI hb hr hc.le
  have hleft := hprog.left
  exact ⟨u, hu, hprog.inv, fin_of_remainingRuns hprog.inv hprog.busy (by omega)⟩

/-- Settles O41: each engine step of the schedule is one of the RUN steps still to come, and the step after them is
the FIN step. -/
theorem commandsTerminate : Obligations.CommandsTerminate := by
  intro s pre a hI hp hr hc
  obtain ⟨u, hu, hIu, hfin⟩ := runAgenda_to_fin hI (busy_of_run hp) hr hc
  obtain ⟨t, ht⟩ := engineStep_fin_next hIu hfin a
  have hend := engineStep_fin_finished hfin ht
  have hrun : runAgenda { s with agenda := pre ++ [.engine a] } = .next { t with agenda := [] } :=
    calc runAgenda { s with agenda := pre ++ [.engine a] }
        = runAgenda { u with agenda := [.engine a] } := runAgenda_append hu _
      _ = runAgenda { t with agenda := [] } := runAgenda_cons ht
      _ = .next { t with agenda := [] } := runAgenda_nil rfl
  exact ⟨⟨u, hu, hfin⟩, _, hrun, hend.idle, hend.done⟩

/-! ### The codec commands without a key -/

/-- The validation `v` of capacity, `LEN` and `KLEN` refuses an invalid key length with `InvalidKeyEncryptionKey`
wherever it would pass with some other one. -/
def ChecksKey (v : Config → Nat → Byte → Verdict) : Prop :=
  ∀ c l klen klen' n, v c l klen = .pass n → klenValid klen' = false → v c l klen' = .refuse .invalidKeyEncryptionKey

theorem wrapVerdict_checksKey : ChecksKey wrapVerdict := by
  intro c l klen klen' n h hk
  obtain ⟨hn, h8, h2, hcap, hmax, -⟩ := wrapVerdict_pass h
  rw [wrapVerdict, if_neg (by omega), if_neg (by omega), if_neg (by omega), if_pos hk]

theorem wrappVerdict_checksKey : ChecksKey wrappVerdict := by
  intro c l klen klen' n h hk
  obtain ⟨hn, -, hcap, h1, hmax, -⟩ := wrappVerdict_pass h
  rw [wrappVerdict, if_neg (by omega), if_neg (by omega), if_pos hk]

theorem unwrapVerdict_checksKey : ChecksKey unwrapVerdict := by
  intro c l klen klen' n h hk
  obtain ⟨hl, h2, hcap, hmax, -⟩ := unwrapVerdict_pass h
  rw [unwrapVerdict, if_neg (by omega), if_neg (by omega), if_neg (by omega), if_pos hk]

theorem unwrappVerdict_checksKey : ChecksKey unwrappVerdict := by
  intro c l klen klen' n h hk
  obtain ⟨hl, h1, hcap, -⟩ := unwrappVerdict_pass h
  rw [unwrappVerdict, if_neg (by omega), if_neg (by omega), if_neg (by omega), if_pos hk]

/-- The accept step of a codec command follows a validation that checks the key. -/
theorem exec_codec_checksKey {i : Instr} (hc : i.isCodec = true) :
    ∃ v, ChecksKey v ∧
      ∀ s : State, s.ph = .idle → exec i s = .next (codecAccepted i s (v s.cfg s.len.toNat s.klen)) := by
  rcases isCodec_cases hc with rfl | rfl | rfl | rfl
  · exact ⟨wrapVerdict, wrapVerdict_checksKey, fun _ hp => exec_wrap_idle hp rfl⟩
  · exact ⟨unwrapVerdict, unwrapVerdict_checksKey, fun _ hp => exec_unwrap_idle hp rfl⟩
  · exact ⟨wrappVerdict, wrappVerdict_checksKey, fun _ hp => exec_wrapp_idle hp rfl⟩
  · exact ⟨unwrappVerdict, unwrappVerdict_checksKey, fun _ hp => exec_unwrapp_idle hp rfl⟩

/-- A codec command that starts is refused with `InvalidKeyEncryptionKey` when `KLEN` alone is made invalid. -/
theorem exec_codec_invalid_klen {i : Instr} {s u : State} {klen : Byte} (hc : i.isCodec = true) (hp : s.ph = .idle)
    (he : exec i s = .next u) (hu : u.ph = .run) (hk : klenValid klen = false) :
    exec i { s with klen := klen } = .next (refusedState i .invalidKeyEncryptionKey { s with klen := klen }) := by
  obtain ⟨v, hv, hexec⟩ := exec_codec_checksKey hc
  cases (hexec s hp).symm.trans he
  rw [hexec { s with klen := klen } hp]
  cases hs : v s.cfg s.len.toNat s.klen with
  | refuse k =>
    rw [hs] at hu
    cases hp.symm.trans hu
  | pass n => rw [hv s.cfg s.len.toNat s.klen klen n hs hk, codecAccepted]

/-! ### Reset (O34, O35) -/

/-- After a reset step the host reads a `STATUS` of zero: idle, and nothing reported (R180, R20). -/
theorem resetStep_status (s : State) : s.resetStep.status = 0 := by
  rw [State.status, State.resetStep_err, State.resetStep_matched, State.resetStep_done, busy_eq_false s.resetStep_ph]
  rfl

/-- Settles O34: the reset step builds the reset state around the parameters, the agenda and the records. -/
theorem resetStepClearsEverything : Obligations.ResetStepClearsEverything :=
  fun s => ⟨s.resetStep, eventStep_reset s, resetStep_status s, rfl⟩

/-- Settles O35: after reset `KLEN` is no key length, so a codec command with a valid `LEN` is refused for its key; the
IV unit's commands run on registers that are all zero. -/
theorem commandsStraightAfterReset : Obligations.CommandsStraightAfterReset := by
  intro c _
  have hidle : (State.resetWith c).ph = .idle := rfl
  refine ⟨hidle, engineStep_idle hidle, fun i l u hc he hu => ?_, ?_, ?_, ?_, ?_⟩
  · exact ⟨_, exec_codec_invalid_klen (klen := 0) hc rfl he hu rfl,
      status_of_error (k := .invalidKeyEncryptionKey) rfl rfl rfl rfl, rfl⟩
  · exact ⟨_, exec_ivchk_idle hidle, (status_of_success rfl rfl rfl).trans (if_pos rfl)⟩
  · have hfail : ¬(aivCheck 0 0).1 = true := by decide
    exact ⟨_, exec_aivchk_fail hidle hfail, (status_of_success rfl rfl rfl).trans (if_neg Bool.noConfusion)⟩
  · exact ⟨_, exec_ivdef_idle hidle, rfl, (status_of_success rfl rfl rfl).trans (if_neg Bool.noConfusion)⟩
  · have hzero : altIV (0 : Word).toNat = some (aivOf 0) := altIV_of_le (Nat.zero_le lmax)
    exact ⟨_, exec_ivalt_some hidle hzero, rfl, (status_of_success rfl rfl rfl).trans (if_neg Bool.noConfusion)⟩

end Sys2Proof.Machine
